-- ==== Sys2Proof/Word.lean ====
section
/-! DEFINITION. The words of the block: a Raw Value is a 64-bit pattern (00_scope.md R6, R8). -/

namespace Sys2Proof

/-- A Raw Value, "64-bit bit-pattern of a double-precision number, treated as an opaque integer"
(00_scope.md, glossary; `XLEN = 64`, rule R6). -/
abbrev Word := BitVec 64

/-- One byte of a byte image (20_memory.md R64, R65) or of a command word's layout. -/
abbrev Byte := BitVec 8

end Sys2Proof
end

