-- ==== Sys2Proof/Config.lean ====
section
/-! DEFINITION. What an implementation fixes (00_scope.md R6, R7) and the values the spec leaves unspecified. -/

namespace Sys2Proof

/-- `RING_CAP`: entries of a Reference Ring (00_scope.md R6). -/
abbrev Config.ringCap : Nat := 128

/-- `TRAIL_THRESHOLD`: the matched reference is used only above this trailing-zero count (R6, R175). -/
abbrev Config.trailThreshold : Nat := 13

/-- The two kinds of unit (10_state.md R20). -/
inductive UnitKind where
  | cmp
  | dec
deriving DecidableEq, Repr

/-- `PD_LAYOUT`: from which end the packed record's bits are counted (00_scope.md R7, 30_encoding.md R100, D9). -/
inductive Layout where
  | msb0
  | lsb0
deriving DecidableEq, Repr

/-- `KEY` as plain data (00_scope.md R7, 40_ring.md R122, D4): a function of the high-order `bits` bits of a value.
`high bits` gives those bits themselves (the default has `bits = 14`). `table bits t` gives the entry of `t` they
select, so that every function of the high bits into numbers is some table. DESIGN CHOICE (log 3), safe: no
admissible key function is left out. -/
inductive KeyFn where
  | high (bits : Nat)
  | table (bits : Nat) (entries : List Nat)
deriving DecidableEq, Repr

/-- The build parameters of a compressor unit (00_scope.md R7). A capacity of `none` is "unbounded". -/
structure CmpParams where
  key       : KeyFn
  layout    : Layout
  bsCapBits : Option Nat
  fbCap     : Option Nat
  lzbCap    : Option Nat
  pdbCap    : Option Nat
deriving DecidableEq, Repr

/-- The build parameters of a decompressor unit: a DEC uses `PD_LAYOUT` alone (70_reset_and_hazards.md R278). -/
structure DecParams where
  layout : Layout
deriving DecidableEq, Repr

/-- The defaults of 92_eei_decisions.md, "Parameters left open, in one list". -/
def CmpParams.default : CmpParams :=
  { key := .high 14, layout := .msb0, bsCapBits := none, fbCap := none, lzbCap := none, pdbCap := none }

/-- The default of 92_eei_decisions.md D9. -/
def DecParams.default : DecParams :=
  { layout := .msb0 }

/-- Where an unspecified value comes from: which unit, and how many times that unit's state has become unspecified.
MODEL's own (log 4): it indexes the free values so that two of them are never tied to one another. -/
structure Config.Source where
  kind : UnitKind
  unit : Nat
  draw : Nat
deriving DecidableEq, Repr

/-- The source of the values drawn next. -/
def Config.Source.next (src : Config.Source) : Config.Source :=
  { src with draw := src.draw + 1 }

/-- The elements of a unit's state that the spec can leave unspecified (10_state.md R41, R42, R47; R240). -/
inductive Config.Element where
  | ring
  | size
  | first
  | prevLzValid
  | prevLz
  | flushed
  | measure
  | fbCount
  | lzbCount
  | pdbCount
  | bsWpos
  | refValue
  | curLzValid
  | curLz
  | curTzValid
  | curTz
  | lzCursor
  | pdCursor
  | bsRpos
  | result
  | bs
  | fb
  | lzb
  | pdb
  | lza
  | pda
  | register
  | statusBit
deriving DecidableEq, Repr

/-- A FREE VALUE of `w` bits: what element `e` (its entry `i`) holds where the spec says "unspecified".
It has no body, so nothing can be proved of it (log 4). Safe. -/
opaque Config.unspecified (w : Nat) (src : Config.Source) (e : Config.Element) (i : Nat) : BitVec w

/-- A FREE VALUE of a natural-number element (a count, a position or a cursor), as above. Safe. -/
opaque Config.unspecifiedNat (src : Config.Source) (e : Config.Element) : Nat

end Sys2Proof
end

