-- ==== Sys2Proof/Machine/State.lean ====
section
/-! DEFINITION. The state of the block (10_state.md), the reasons a step can stop, and the state after reset. -/

namespace Sys2Proof.Machine

/-- An element-addressed memory (20_memory.md R60, R62): the elements that something has written, by address, the
addresses strictly rising (`Memory.wf`). The spec has no byte-addressed space: an element holds exactly the bits of its
width, so a cell is an address and an element of that width (`Memory 8` is a list of `Host.Cell`). An unlisted address
holds no value of its own; what reading one gives is said by the reader (log 6). -/
abbrev Memory (w : Nat) := List (Nat × BitVec w)

/-- The Reference Ring's slots `x[0]` to `x[127]` (10_state.md R21). -/
abbrev Ring := Vector Word Config.ringCap

/-- One compressor unit (10_state.md sections 2, 4, 6; 20_memory.md R60). `params` and `src` are the model's own. -/
structure Cmp where
  /-- `x[0..127]` (R21). -/
  ring : Ring
  /-- `s.size`, the insertion index of the newest value (R22). -/
  size : Nat
  /-- `s.first` (R25). -/
  first : Bool
  /-- `s.prev_lz`, `none` for `unset` (R26, R27). -/
  prevLz : Option (BitVec 3)
  /-- `s.flushed` (R28). -/
  flushed : Bool
  /-- `s.fault` (R29). -/
  fault : Bool
  /-- `s.cause` (R29, 60_exceptions.md R231). -/
  cause : BitVec 4
  /-- `s.measure` (R40). -/
  measure : Bool
  /-- `C_CONFIG` (R41); bit 0 is `MEASURE`, the others read as zero. -/
  config : BitVec 8
  /-- The Flag Buffer and `s.fb_count` (R30). -/
  fb : Memory 2
  fbCount : Nat
  /-- The Leading-Zero Buffer and `s.lzb_count` (R31). -/
  lzb : Memory 3
  lzbCount : Nat
  /-- The Packed-Data Buffer and `s.pdb_count` (R32). -/
  pdb : Memory 16
  pdbCount : Nat
  /-- The Bit Stream and `s.bs_wpos` (R33). -/
  bs : Memory 1
  bsWpos : Nat
  /-- MODEL's own (log 3): the build parameters (00_scope.md R7, R45), which no step writes. -/
  params : CmpParams
  /-- MODEL's own (log 4): the index of the unit's current free values. -/
  src : Config.Source
deriving DecidableEq, Repr

/-- One decompressor unit (10_state.md sections 2, 5; 20_memory.md R60). `params`, `src`, `memSrc` are the model's own. -/
structure Dec where
  /-- `x[0..127]` (R21). -/
  ring : Ring
  /-- `s.size` (R22). -/
  size : Nat
  /-- `s.first` (R25). -/
  first : Bool
  /-- `s.fault` (R29). -/
  fault : Bool
  /-- `s.cause` (R29). -/
  cause : BitVec 4
  /-- `s.ref_value`, the last reconstructed value (R34). -/
  refValue : Word
  /-- `s.cur_lz`, a bucket bound, `none` for `unset` (R35). -/
  curLz : Option Nat
  /-- `s.cur_tz`, a count, `none` for `unset` (R35). -/
  curTz : Option Nat
  /-- `s.lz_cursor` (R36). -/
  lzCursor : Nat
  /-- `s.pd_cursor` (R36). -/
  pdCursor : Nat
  /-- The Bit Stream the host wrote and `s.bs_len` in bits (R37). -/
  bs : Memory 1
  bsLen : Nat
  /-- `s.bs_rpos`, the next bit to be read (R37). -/
  bsRpos : Nat
  /-- The Leading-Zero array and `s.lz_len` (R38). -/
  lza : Memory 3
  lzLen : Nat
  /-- The Packed-Data array and `s.pd_len` (R38). -/
  pda : Memory 16
  pdLen : Nat
  /-- `s.result` (R39). -/
  result : Word
  /-- `s.result_valid` (R39). -/
  resultValid : Bool
  /-- MODEL's own (log 3): the build parameters, which no step writes. -/
  params : DecParams
  /-- MODEL's own (log 4): the index of the unit's current free values. -/
  src : Config.Source
  /-- MODEL's own (log 6): the index of the free values that unwritten memory elements hold. -/
  memSrc : Config.Source
deriving DecidableEq, Repr

/-- The output regions of a CMP (20_memory.md R60). -/
inductive CmpRegion where
  | bs
  | fb
  | lzb
  | pdb
deriving DecidableEq, Repr

/-- The memories of a DEC that the host writes (20_memory.md R60). -/
inductive DecSpace where
  | bs
  | lza
  | pda
deriving DecidableEq, Repr

/-- What the host does next (10_state.md R20, R43; 20_memory.md R60, R75). One action is one step of the machine, so no
host access overlaps a command. `record` and `data` are the model's own (log 8, log 9): they run one row of the wire
format by itself. -/
inductive HostAction where
  /-- A command word on the port of compressor unit `unit` (30_encoding.md R91). -/
  | commandC (unit : Nat) (word : BitVec 66)
  /-- A command word on the port of decompressor unit `unit` (R92). -/
  | commandD (unit : Nat) (word : BitVec 10)
  /-- The next wire record of decompressor unit `unit`, its opcode `flag` (R94, R109). -/
  | record (unit : Nat) (flag : BitVec 8)
  /-- A packed record given as if it were a command (R100, R109). -/
  | data (unit : Nat) (rec : BitVec 16)
  /-- A register read (R41 to R43). The number says which kind of unit. -/
  | readReg (unit : Nat) (reg : BitVec 8)
  /-- A register write (R41 to R43). -/
  | writeReg (unit : Nat) (reg : BitVec 8) (value : Word)
  /-- A read of one element of a compressor unit's region (R60, R76). -/
  | readRegion (unit : Nat) (region : CmpRegion) (addr : Nat)
  /-- A write of one element of a decompressor unit's memory: the low bits of `value`, as many as the element has. -/
  | writeSpace (unit : Nat) (space : DecSpace) (addr : Nat) (value : BitVec 16)
  /-- Hardware reset of every unit (70_reset_and_hazards.md R260). -/
  | reset
deriving DecidableEq, Repr

/-- The whole block and what its host is about to do. `unit`, `inbox` and `hostData` are the model's own. -/
structure State where
  /-- The compressor units, `N_CMP` of them (00_scope.md R7, 10_state.md R20). -/
  cmps : List Cmp
  /-- The decompressor units, `N_DEC` of them. -/
  decs : List Dec
  /-- MODEL's own (log 2): the number of the unit whose port the command in hand arrived at. -/
  unit : Nat
  /-- MODEL's own (log 1): the host's actions still to come, oldest first. -/
  inbox : List HostAction
  /-- MODEL's own (log 11): the data of the host's last read. -/
  hostData : Word
deriving DecidableEq, Repr

/-- Why the machine stops: what is addressed does not exist. No fault of the SPEC is here: those are next states
(60_exceptions.md R240). -/
inductive Fault where
  /-- A command or access addressed to a unit that the block does not have (00_scope.md R7). Raised by every command and
  access. Safe: the spec gives no such port. -/
  | noSuchUnit
  /-- A register number that 10_state.md R41 and R42 do not list. Raised by register reads and writes. Safe. -/
  | noSuchRegister
  /-- A host read of a region's element at or above its count: "no element is defined at an index at or above its count"
  (10_state.md R47). Raised by region reads. Safe. -/
  | noSuchElement
deriving DecidableEq, Repr

/-- Why a step has no meaning. -/
inductive Refusal where
  /-- An instruction without a meaning in this model. No arm answers it. Safe. -/
  | notModelled (mnemonic : String)
  /-- `PDREC` given as a command: "a data format, not an operation" (30_encoding.md R109). Safe. -/
  | dataFormat
  /-- `REC.FIRST` asked of an ACTIVE unit: that record is "selected by `s.first = 1`" and has no flag (30_encoding.md R96,
  R109), so nothing can ask for it. Safe: no step decodes to it. -/
  | recordNotSelected
  /-- A host read of a Bit Stream before `FLUSH` (70_reset_and_hazards.md R270; 93_implementation_defined.md U13). Safe. -/
  | readBeforeFlush
  /-- A host write to a register that R41 or R42 list as host read-only; the spec gives it no effect. Safe. -/
  | readOnlyRegister
deriving DecidableEq, Repr

/-- A compressor unit right after power-on (10_state.md R47). The ring's contents, unspecified there, are 0: DESIGN
CHOICE (log 5), unsafe. -/
def Cmp.initial (params : CmpParams) (k : Nat) : Cmp :=
  { ring := Vector.replicate Config.ringCap 0
    size := 0
    first := true
    prevLz := none
    flushed := false
    fault := false
    cause := 0
    measure := false
    config := 0
    fb := []
    fbCount := 0
    lzb := []
    lzbCount := 0
    pdb := []
    pdbCount := 0
    bs := []
    bsWpos := 0
    params := params
    src := { kind := .cmp, unit := k, draw := 0 } }

/-- A decompressor unit right after power-on (10_state.md R47). The ring, `s.ref_value` and `s.result`, unspecified there,
are 0: DESIGN CHOICE (log 5), unsafe. The memories list nothing (log 6). -/
def Dec.initial (params : DecParams) (k : Nat) : Dec :=
  { ring := Vector.replicate Config.ringCap 0
    size := 0
    first := true
    fault := false
    cause := 0
    refValue := 0
    curLz := none
    curTz := none
    lzCursor := 0
    pdCursor := 0
    bs := []
    bsLen := 0
    bsRpos := 0
    lza := []
    lzLen := 0
    pda := []
    pdLen := 0
    result := 0
    resultValid := false
    params := params
    src := { kind := .dec, unit := k, draw := 0 }
    memSrc := { kind := .dec, unit := k, draw := 0 } }

/-- A block right after power-on, one unit for each entry of the lists of parameters (00_scope.md R7). -/
def State.power (cs : List CmpParams) (ds : List DecParams) : State :=
  { cmps := cs.mapIdx fun k p => Cmp.initial p k
    decs := ds.mapIdx fun k p => Dec.initial p k
    unit := 0
    inbox := []
    hostData := 0 }

/-- The machine right after reset: the defaults of 92_eei_decisions.md, one unit of each kind, every unit FRESH
(10_state.md R47; 70_reset_and_hazards.md R260). -/
def State.reset : State :=
  { cmps := [Cmp.initial CmpParams.default 0]
    decs := [Dec.initial DecParams.default 0]
    unit := 0
    inbox := []
    hostData := 0 }

end Sys2Proof.Machine
end

