-- ==== Sys2Proof/Machine/Operands.lean ====
section
/-! DEFINITION. The bit counts, the bucket table, the key and the packed record: how each operand becomes a value
(30_encoding.md R104; 40_ring.md R122; 41_buffers_and_tables.md R140 to R147). -/

namespace Sys2Proof.Machine

/-- `clz64(v)` (41_buffers_and_tables.md R140): leading zero bits, 64 for 0. -/
def clz64 (v : Word) : Nat :=
  ((List.range 64).find? fun i => v.getLsbD (63 - i)).getD 64

/-- `ctz64(v)` (R141): trailing zero bits, 64 for 0. -/
def ctz64 (v : Word) : Nat :=
  ((List.range 64).find? fun i => v.getLsbD i).getD 64

/-- `BUCKET[sel]` (R142). -/
def bucket (sel : BitVec 3) : Nat :=
  match sel.toNat with
  | 0 => 0
  | 1 => 8
  | 2 => 12
  | 3 => 16
  | 4 => 18
  | 5 => 20
  | 6 => 22
  | _ => 24

/-- `BucketSel(c)` (R143): the largest selector whose bound does not exceed `c`. -/
def bucketSel (c : Nat) : BitVec 3 :=
  if c < 8 then 0
  else if c < 12 then 1
  else if c < 16 then 2
  else if c < 18 then 3
  else if c < 20 then 4
  else if c < 22 then 5
  else if c < 24 then 6
  else 7

/-- The high-order `bits` bits of a value, `v[63:64-bits]`, as a number (40_ring.md R122). -/
def highBits (bits : Nat) (v : Word) : Nat :=
  v.toNat / 2 ^ (64 - bits)

/-- `Key(v)` (40_ring.md R122), for the key function in force. -/
def keyOf (f : KeyFn) (v : Word) : Nat :=
  match f with
  | .high bits => highBits bits v
  | .table bits entries => entries.getD (highBits bits v) 0

/-- `Pack(i, sel, sig)` (41_buffers_and_tables.md R146). `i` is reduced mod 128, which drops the bias of 128 that the
compressor adds (30_encoding.md R102). -/
def packRecord (layout : Layout) (i : Nat) (sel : BitVec 3) (sig : BitVec 6) : BitVec 16 :=
  match layout with
  | .msb0 => BitVec.ofNat 7 i ++ sel ++ sig
  | .lsb0 => sig ++ sel ++ BitVec.ofNat 7 i

/-- `Unpack(rec)` (R147): index, selector and significant-bit count. -/
def unpackRecord (layout : Layout) (rec : BitVec 16) : BitVec 7 × BitVec 3 × BitVec 6 :=
  match layout with
  | .msb0 => (rec.extractLsb' 9 7, rec.extractLsb' 6 3, rec.extractLsb' 0 6)
  | .lsb0 => (rec.extractLsb' 0 7, rec.extractLsb' 7 3, rec.extractLsb' 10 6)

end Sys2Proof.Machine
end

