-- ==== Sys2Proof/Machine/Flags.lean ====
section
/-! DEFINITION. The branch tags and the branch selector, the conditions of a unit, the fault causes and their codes, and
the status registers. The block has no condition codes (10_state.md R44). -/

namespace Sys2Proof.Machine

/-- The coded paths of a non-first value (00_scope.md glossary; 30_encoding.md R94). -/
inductive Path where
  | ident
  | trail
  | lzeq
  | lzload
deriving DecidableEq, Repr

/-- The 2-bit Flag of a path (30_encoding.md R94). -/
def flagOf (p : Path) : BitVec 2 :=
  match p with
  | .ident => 0
  | .trail => 1
  | .lzeq => 2
  | .lzload => 3

/-- The branch selector of `STORE` (42_compressor.md R176): `x` is the XOR result. -/
def choosePath (x : Word) (exceed : Bool) (prevLz : Option (BitVec 3)) : Path :=
  if x = 0 then .ident
  else if exceed then .trail
  else if prevLz = some (bucketSel (clz64 x)) then .lzeq
  else .lzload

/-- The commands an `IllegalCommand` can name (60_exceptions.md R238). -/
inductive CommandName where
  | store
  | flush
  | reserved
deriving DecidableEq, Repr

/-- The fault causes with their `info` (60_exceptions.md R231 to R239). The info is "for the reader and for a model's
diagnostics"; the unit records the code alone (R240). -/
inductive Cause where
  | corruptFlag (flag : BitVec 8)
  | ringIndexOutOfRange (slot : Nat)
  | bitStreamExhausted (pos : Nat)
  | sideBufferExhausted (array : DecSpace) (cursor : Nat)
  | packedRecordInvalid (rec : BitVec 16)
  | leadingZerosUnset
  | illegalCommand (cmd : CommandName)
  | bufferOverflow (which : CmpRegion)
deriving DecidableEq, Repr

/-- The cause codes (60_exceptions.md R231). -/
def causeCode (c : Cause) : BitVec 4 :=
  match c with
  | .corruptFlag _ => 1
  | .ringIndexOutOfRange _ => 2
  | .bitStreamExhausted _ => 3
  | .sideBufferExhausted _ _ => 4
  | .packedRecordInvalid _ => 5
  | .leadingZerosUnset => 6
  | .illegalCommand _ => 7
  | .bufferOverflow _ => 8

/-- The conditions of a compressor unit (42_compressor.md R170). -/
inductive CmpCondition where
  | fresh
  | active
  | flushed
  | faulted
deriving DecidableEq, Repr

/-- The condition a compressor unit is in (R170). -/
def cmpCondition (c : Cmp) : CmpCondition :=
  if c.fault then .faulted
  else if c.flushed then .flushed
  else if c.first then .fresh
  else .active

/-- The conditions of a decompressor unit (43_decompressor.md R200). -/
inductive DecCondition where
  | fresh
  | active
  | faulted
deriving DecidableEq, Repr

/-- The condition a decompressor unit is in (R200). -/
def decCondition (d : Dec) : DecCondition :=
  if d.fault then .faulted
  else if d.first then .fresh
  else .active

/-- The `fault` output line of a compressor unit (60_exceptions.md R245). -/
def cmpFaultLine (c : Cmp) : Bool :=
  c.fault

/-- The `fault` output line of a decompressor unit (R245). -/
def decFaultLine (d : Dec) : Bool :=
  d.fault

/-- A status bit: its value, or a free value while the unit is FAULTED (10_state.md R41, R42; log 12). -/
def statusBit (fault : Bool) (src : Config.Source) (i : Nat) (b : Bool) : BitVec 1 :=
  if fault then Config.unspecified 1 src .statusBit i else BitVec.ofBool b

/-- `C_STATUS` (10_state.md R41): bits 7:4 zero, `MEASURE`, `FAULT`, `FLUSHED`, `FIRST`. -/
def cmpStatus (c : Cmp) : BitVec 8 :=
  (0 : BitVec 4) ++ statusBit c.fault c.src 3 c.measure ++ BitVec.ofBool c.fault
    ++ statusBit c.fault c.src 1 c.flushed ++ statusBit c.fault c.src 0 c.first

/-- `D_STATUS` (10_state.md R42): bits 7:5 zero, `RESULT_VALID`, zero, `FAULT`, zero, `FIRST`. -/
def decStatus (d : Dec) : BitVec 8 :=
  (0 : BitVec 3) ++ BitVec.ofBool d.resultValid ++ (0 : BitVec 1) ++ BitVec.ofBool d.fault
    ++ (0 : BitVec 1) ++ statusBit d.fault d.src 0 d.first

end Sys2Proof.Machine
end

