-- ==== Sys2Proof/Machine/Ops.lean ====
section
/-! DEFINITION. The named operations on memories, rings and units: the primitives of 40_ring.md and
41_buffers_and_tables.md, taking a fault (60_exceptions.md R240), initialisation (the return from one, R242), and how a
command reaches its unit. -/

namespace Sys2Proof.Machine

/-! ### Memories (20_memory.md R60, R62) -/

/-- The canonical form: addresses strictly rising. No unlisted address has a value of its own, so no listed element can
equal what it would read as unlisted. -/
abbrev Memory.wf {w : Nat} (m : Memory w) : Prop :=
  List.Pairwise (fun p q => p.1 < q.1) m

/-- The element at `a`, if something has written it. -/
def Memory.read {w : Nat} (m : Memory w) (a : Nat) : Option (BitVec w) :=
  match m with
  | [] => none
  | (b, x) :: r => if a = b then some x else Memory.read r a

/-- `MemWrite(SPACE:a, w, v)` of one element (00_scope.md R9). -/
def Memory.write {w : Nat} (m : Memory w) (a : Nat) (v : BitVec w) : Memory w :=
  match m with
  | [] => [(a, v)]
  | (b, x) :: r =>
    if a < b then (a, v) :: (b, x) :: r
    else if a = b then (a, v) :: r
    else (b, x) :: Memory.write r a v

/-- `MemWrite(BS:pos, n, v)` (00_scope.md R9; 20_memory.md R63): stream bit `pos` receives `v[n-1]`, bit `pos+n-1`
receives `v[0]`. -/
def Memory.writeBits (m : Memory 1) (pos n : Nat) (v : Word) : Memory 1 :=
  match n with
  | 0 => m
  | k + 1 => Memory.writeBits (Memory.write m pos (BitVec.ofBool (v.getLsbD k))) (pos + 1) k v

/-- `MemRead(BS:pos, n)` zero-extended to 64 bits (00_scope.md R9): the value whose most significant bit is stream bit
`pos`; `bit` says what each stream bit is. -/
def readField (bit : Nat → BitVec 1) (pos n : Nat) : Word :=
  match n with
  | 0 => 0
  | k + 1 => (readField bit pos k <<< 1) ||| (bit (pos + k)).setWidth 64

/-! ### The Reference Ring (40_ring.md) -/

/-- `x[i mod 128]`. -/
def Ring.get (r : Ring) (i : Nat) : Word :=
  r[i % 128]'(Nat.mod_lt i (by decide))

/-- `x[i mod 128] <- v`. -/
def Ring.put (r : Ring) (i : Nat) (v : Word) : Ring :=
  r.set (i % 128) v (Nat.mod_lt i (by decide))

/-- A ring whose contents are "no longer defined": every slot a free value (10_state.md R47; log 5). -/
@[irreducible] def Ring.unspecified (src : Config.Source) : Ring :=
  Vector.ofFn fun i => Config.unspecified 64 src .ring i.val

/-- Slot validity (10_state.md R21): `s.first = 0` and `i <= min(s.size, 127)`. -/
def slotValid (first : Bool) (size i : Nat) : Bool :=
  !first && decide (i ≤ min size 127)

/-- `Insert(v)` in a compressor unit (40_ring.md R121). -/
def Cmp.insert (c : Cmp) (v : Word) : Cmp :=
  if c.first then { c with ring := Ring.put c.ring 0 v }
  else { c with size := c.size + 1, ring := Ring.put c.ring (c.size + 1) v }

/-- `Insert(v)` in a decompressor unit (R121). -/
def Dec.insert (d : Dec) (v : Word) : Dec :=
  if d.first then { d with ring := Ring.put d.ring 0 v }
  else { d with size := d.size + 1, ring := Ring.put d.ring (d.size + 1) v }

/-- `IndexOf(k)` (40_ring.md R123): the newest live entry with that key, searched from `s.size` down to
`max(0, s.size - 127)`. -/
def Cmp.indexOf (c : Cmp) (k : Nat) : Option Nat :=
  if c.first then none
  else
    ((List.range (min c.size 127 + 1)).find? fun j =>
      keyOf c.params.key (Ring.get c.ring (c.size - j)) == k).map fun j => c.size - j

/-- `Value(slot)` (40_ring.md R125). -/
def Dec.value (d : Dec) (slot : Nat) : Except Cause Word :=
  if slotValid d.first d.size (slot % 128) then .ok (Ring.get d.ring slot)
  else .error (.ringIndexOutOfRange (slot % 128))

/-! ### The output side of a compressor unit (41_buffers_and_tables.md R149, R150, R152) -/

/-- `BSWrite(v, n)` (R150): the memory write is skipped in measurement mode (10_state.md R40). -/
def Cmp.bsWrite (c : Cmp) (v : Word) (n : Nat) : Cmp :=
  { c with
    bs := if c.measure then c.bs else Memory.writeBits c.bs c.bsWpos n v
    bsWpos := c.bsWpos + n }

/-- `FBAppend(flag)` (R149). -/
def Cmp.fbAppend (c : Cmp) (flag : BitVec 2) : Cmp :=
  { c with
    fb := if c.measure then c.fb else Memory.write c.fb c.fbCount flag
    fbCount := c.fbCount + 1 }

/-- `LZBAppend(sel)` (R149). -/
def Cmp.lzbAppend (c : Cmp) (sel : BitVec 3) : Cmp :=
  { c with
    lzb := if c.measure then c.lzb else Memory.write c.lzb c.lzbCount sel
    lzbCount := c.lzbCount + 1 }

/-- `PDBAppend(rec)` (R149). -/
def Cmp.pdbAppend (c : Cmp) (rec : BitVec 16) : Cmp :=
  { c with
    pdb := if c.measure then c.pdb else Memory.write c.pdb c.pdbCount rec
    pdbCount := c.pdbCount + 1 }

/-- The number of pad bits of `BSFlush` (R152). -/
def padBits (wpos : Nat) : Nat :=
  (8 - wpos % 8) % 8

/-- `BSFlush()` (R152): pad bits are zero. -/
def Cmp.bsFlush (c : Cmp) : Cmp :=
  if 0 < padBits c.bsWpos then c.bsWrite 0 (padBits c.bsWpos) else c

/-- Does a capacity forbid `need` bits or elements? "Unbounded" forbids nothing (00_scope.md R7, 42_compressor.md R172). -/
def exceeds (cap : Option Nat) (need : Nat) : Bool :=
  match cap with
  | none => false
  | some n => decide (n < need)

/-! ### The input side of a decompressor unit (41_buffers_and_tables.md R151, R154) -/

/-- Stream bit `a` of a DEC: what the host wrote, or a free value where it wrote nothing (log 6). -/
def Dec.bsBit (d : Dec) (a : Nat) : BitVec 1 :=
  (d.bs.read a).getD (Config.unspecified 1 d.memSrc .bs a)

/-- `LZA[a]`. -/
def Dec.lzaElem (d : Dec) (a : Nat) : BitVec 3 :=
  (d.lza.read a).getD (Config.unspecified 3 d.memSrc .lza a)

/-- `PDA[a]`. -/
def Dec.pdaElem (d : Dec) (a : Nat) : BitVec 16 :=
  (d.pda.read a).getD (Config.unspecified 16 d.memSrc .pda a)

/-- `BSRead(n)` (R151), zero-extended, with the unit after it. -/
def Dec.bsRead (d : Dec) (n : Nat) : Except Cause (Word × Dec) :=
  if d.bsLen < d.bsRpos + n then .error (.bitStreamExhausted d.bsRpos)
  else .ok (readField d.bsBit d.bsRpos n, { d with bsRpos := d.bsRpos + n })

/-- `LZANext()` (R154). -/
def Dec.lzaNext (d : Dec) : Except Cause (BitVec 3 × Dec) :=
  if d.lzLen ≤ d.lzCursor then .error (.sideBufferExhausted .lza d.lzCursor)
  else .ok (d.lzaElem d.lzCursor, { d with lzCursor := d.lzCursor + 1 })

/-- `PDANext()` (R154). -/
def Dec.pdaNext (d : Dec) : Except Cause (BitVec 16 × Dec) :=
  if d.pdLen ≤ d.pdCursor then .error (.sideBufferExhausted .pda d.pdCursor)
  else .ok (d.pdaElem d.pdCursor, { d with pdCursor := d.pdCursor + 1 })

/-! ### Taking a fault (60_exceptions.md R240) -/

/-- An unspecified bit of a unit. -/
def freeBit (src : Config.Source) (e : Config.Element) : Bool :=
  (Config.unspecified 1 src e 0).getLsbD 0

/-- An unspecified optional field, "a valid bit beside the field" (10_state.md R27). -/
def freeOption (w : Nat) (src : Config.Source) (valid e : Config.Element) : Option (BitVec w) :=
  if freeBit src valid then some (Config.unspecified w src e 0) else none

/-- `raise F(info)` in a compressor unit: FAULTED, the cause latched, `C_CONFIG` untouched, every other element that the
unit writes and the contents of the four regions unspecified (R240; log 4). -/
def Cmp.raise (c : Cmp) (why : Cause) : Cmp :=
  { ring := Ring.unspecified c.src.next
    size := Config.unspecifiedNat c.src.next .size
    first := freeBit c.src.next .first
    prevLz := freeOption 3 c.src.next .prevLzValid .prevLz
    flushed := freeBit c.src.next .flushed
    fault := true
    cause := causeCode why
    measure := freeBit c.src.next .measure
    config := c.config
    fb := []
    fbCount := Config.unspecifiedNat c.src.next .fbCount
    lzb := []
    lzbCount := Config.unspecifiedNat c.src.next .lzbCount
    pdb := []
    pdbCount := Config.unspecifiedNat c.src.next .pdbCount
    bs := []
    bsWpos := Config.unspecifiedNat c.src.next .bsWpos
    params := c.params
    src := c.src.next }

/-- `raise F(info)` in a decompressor unit: as above; `s.result_valid` becomes 0, and the memories and lengths, which only
the host writes, are untouched (R240). -/
def Dec.raise (d : Dec) (why : Cause) : Dec :=
  { ring := Ring.unspecified d.src.next
    size := Config.unspecifiedNat d.src.next .size
    first := freeBit d.src.next .first
    fault := true
    cause := causeCode why
    refValue := Config.unspecified 64 d.src.next .refValue 0
    curLz := (freeOption 3 d.src.next .curLzValid .curLz).map bucket
    curTz := (freeOption 6 d.src.next .curTzValid .curTz).map BitVec.toNat
    lzCursor := Config.unspecifiedNat d.src.next .lzCursor
    pdCursor := Config.unspecifiedNat d.src.next .pdCursor
    bs := d.bs
    bsLen := d.bsLen
    bsRpos := Config.unspecifiedNat d.src.next .bsRpos
    lza := d.lza
    lzLen := d.lzLen
    pda := d.pda
    pdLen := d.pdLen
    result := Config.unspecified 64 d.src.next .result 0
    resultValid := false
    params := d.params
    src := d.src.next
    memSrc := d.memSrc }

/-! ### Initialisation, the only way out of a fault (60_exceptions.md R242) -/

/-- What `CINIT` does to its unit (42_compressor.md R171; 10_state.md R47). -/
def Cmp.init (c : Cmp) : Cmp :=
  { ring := Ring.unspecified c.src.next
    size := 0
    first := true
    prevLz := none
    flushed := false
    fault := false
    cause := 0
    measure := c.config.getLsbD 0
    config := c.config
    fb := []
    fbCount := 0
    lzb := []
    lzbCount := 0
    pdb := []
    pdbCount := 0
    bs := []
    bsWpos := 0
    params := c.params
    src := c.src.next }

/-- What `DINIT` does to its unit (43_decompressor.md R201; 10_state.md R47). -/
def Dec.init (d : Dec) : Dec :=
  { ring := Ring.unspecified d.src.next
    size := 0
    first := true
    fault := false
    cause := 0
    refValue := Config.unspecified 64 d.src.next .refValue 0
    curLz := none
    curTz := none
    lzCursor := 0
    pdCursor := 0
    bs := d.bs
    bsLen := d.bsLen
    bsRpos := 0
    lza := d.lza
    lzLen := d.lzLen
    pda := d.pda
    pdLen := d.pdLen
    result := Config.unspecified 64 d.src.next .result 0
    resultValid := false
    params := d.params
    src := d.src.next
    memSrc := d.memSrc }

/-- Hardware reset of a compressor unit (70_reset_and_hazards.md R260): `C_CONFIG = 0`, then `CINIT`. -/
def Cmp.hardReset (c : Cmp) : Cmp :=
  Cmp.init { c with config := 0 }

/-- Hardware reset of a decompressor unit (R260, 10_state.md R47): lengths 0, memory contents unspecified, then `DINIT`. -/
def Dec.hardReset (d : Dec) : Dec :=
  Dec.init
    { d with
      bs := []
      bsLen := 0
      lza := []
      lzLen := 0
      pda := []
      pdLen := 0
      memSrc := d.src.next }

/-! ### A command and its unit (10_state.md R20; 30_encoding.md R90) -/

/-- The state with the addressed compressor unit replaced. -/
def State.setCmp (s : State) (c : Cmp) : State :=
  { s with cmps := s.cmps.set s.unit c }

/-- The state with the addressed decompressor unit replaced. -/
def State.setDec (s : State) (d : Dec) : State :=
  { s with decs := s.decs.set s.unit d }

/-- One command as one indivisible transition of the addressed compressor unit (00_scope.md R10). -/
def onCmp (f : Cmp → Cmp) (s : State) : Host.Outcome State Fault Refusal :=
  match s.cmps[s.unit]? with
  | none => .fault .noSuchUnit
  | some c => .next (s.setCmp (f c))

/-- One command as one indivisible transition of the addressed decompressor unit. -/
def onDec (f : Dec → Dec) (s : State) : Host.Outcome State Fault Refusal :=
  match s.decs[s.unit]? with
  | none => .fault .noSuchUnit
  | some d => .next (s.setDec (f d))

/-- A command other than `CINIT` on a compressor unit: ignored while FAULTED (60_exceptions.md R241). -/
def Cmp.unlessFaulted (f : Cmp → Cmp) (c : Cmp) : Cmp :=
  if c.fault then c else f c

/-- A command other than `DINIT` on a decompressor unit: ignored while FAULTED (R241). -/
def Dec.unlessFaulted (f : Dec → Dec) (d : Dec) : Dec :=
  if d.fault then d else f d

end Sys2Proof.Machine
end

