-- ==== Sys2Proof/Machine/Compressor.lean ====
section
/-! DEFINITION. The compressor unit's commands (42_compressor.md): `CINIT`, `STORE`, `FLUSH` and the reserved code. -/

namespace Sys2Proof.Machine

/-- What one `STORE` sends to the four regions, and the `s.prev_lz` it leaves (42_compressor.md R173, R178 to R181). -/
structure Emission where
  /-- The Flag Buffer entry; the first value has none (30_encoding.md R94). -/
  flag : Option (BitVec 2)
  /-- The Bit Stream field and its width. -/
  field : Word
  width : Nat
  /-- The Leading-Zero Buffer entry. -/
  sel : Option (BitVec 3)
  /-- The Packed-Data Buffer entry. -/
  packed : Option (BitVec 16)
  /-- `s.prev_lz` afterwards. -/
  prevLz : Option (BitVec 3)
deriving DecidableEq, Repr

/-- Reference selection (R174, R175): the slot `ref` and the transient `exceed`. -/
def Cmp.reference (c : Cmp) (v : Word) : Nat × Bool :=
  match c.indexOf (keyOf c.params.key v) with
  | none => (c.size % 128, false)
  | some m =>
    if Config.trailThreshold < ctz64 (v ^^^ Ring.get c.ring m) then (m % 128, true)
    else (c.size % 128, false)

/-- The XOR result `x_r` (R177). -/
def Cmp.xorResult (c : Cmp) (v : Word) : Word :=
  v ^^^ Ring.get c.ring (c.reference v).1

/-- The FIRST record (R173). `s.prev_lz` is not written. -/
def Cmp.emitFirst (c : Cmp) (v : Word) : Emission :=
  { flag := none, field := v, width := 64, sel := none, packed := none, prevLz := c.prevLz }

/-- The VALUE_IDENTICAL record (R178). -/
def emitIdent (ref : Nat) : Emission :=
  { flag := some (flagOf .ident), field := BitVec.ofNat 64 ref, width := 7, sel := none, packed := none, prevLz := none }

/-- `sig` of the TRAILING_EXCEEDS_THRESHOLD path (R179; 41_buffers_and_tables.md R145). -/
def trailSig (x : Word) : Nat :=
  64 - bucket (bucketSel (clz64 x)) - ctz64 x

/-- The TRAILING_EXCEEDS_THRESHOLD record (R179). -/
def emitTrail (layout : Layout) (ref : Nat) (x : Word) : Emission :=
  { flag := some (flagOf .trail)
    field := x >>> ctz64 x
    width := trailSig x
    sel := none
    packed := some (packRecord layout (128 + ref) (bucketSel (clz64 x)) (BitVec.ofNat 6 (trailSig x)))
    prevLz := none }

/-- The LEADING_ZERO_EQUALITY record (R180): `s.prev_lz` keeps its value, passed in. -/
def emitLzeq (prevLz : Option (BitVec 3)) (x : Word) : Emission :=
  { flag := some (flagOf .lzeq)
    field := x
    width := 64 - bucket (bucketSel (clz64 x))
    sel := none
    packed := none
    prevLz := prevLz }

/-- The LEADING_ZERO_LOAD record (R181). -/
def emitLzload (x : Word) : Emission :=
  { flag := some (flagOf .lzload)
    field := x
    width := 64 - bucket (bucketSel (clz64 x))
    sel := some (bucketSel (clz64 x))
    packed := none
    prevLz := some (bucketSel (clz64 x)) }

/-- The path a non-first `STORE` takes (R176). -/
def Cmp.storePath (c : Cmp) (v : Word) : Path :=
  choosePath (c.xorResult v) (c.reference v).2 c.prevLz

/-- What a `STORE` emits: "the command first determines its path and field width without changing state" (R172). -/
def Cmp.emission (c : Cmp) (v : Word) : Emission :=
  if c.first then c.emitFirst v
  else
    match c.storePath v with
    | .ident => emitIdent (c.reference v).1
    | .trail => emitTrail c.params.layout (c.reference v).1 (c.xorResult v)
    | .lzeq => emitLzeq c.prevLz (c.xorResult v)
    | .lzload => emitLzload (c.xorResult v)

/-- Does an optional element need room that its capacity does not give? -/
def lacksRoom {w : Nat} (cap : Option Nat) (count : Nat) (e : Option (BitVec w)) : Bool :=
  e.isSome && exceeds cap (count + 1)

/-- The capacity check of R172, exact: the first region that lacks room. None is checked in measurement mode. -/
def Cmp.overflow (c : Cmp) (e : Emission) : Option CmpRegion :=
  if c.measure then none
  else if exceeds c.params.bsCapBits (c.bsWpos + e.width) then some .bs
  else if lacksRoom c.params.fbCap c.fbCount e.flag then some .fb
  else if lacksRoom c.params.lzbCap c.lzbCount e.sel then some .lzb
  else if lacksRoom c.params.pdbCap c.pdbCount e.packed then some .pdb
  else none

/-- An append that a path may not make. -/
def Cmp.appendIf {w : Nat} (c : Cmp) (f : Cmp → BitVec w → Cmp) (e : Option (BitVec w)) : Cmp :=
  match e with
  | none => c
  | some x => f c x

/-- The effects of a path and of the epilogue (R173, R178 to R182): the records, `s.prev_lz`, `Insert(value)`, the flag,
and `s.first` cleared. -/
def Cmp.commit (c : Cmp) (v : Word) (e : Emission) : Cmp :=
  let written := ((c.appendIf Cmp.lzbAppend e.sel).appendIf Cmp.pdbAppend e.packed).bsWrite e.field e.width
  let inserted := Cmp.insert { written with prevLz := e.prevLz } v
  Cmp.appendIf { inserted with first := false } Cmp.fbAppend e.flag

/-- `STORE value` in a unit that is not FAULTED (R172). -/
def Cmp.store (v : Word) (c : Cmp) : Cmp :=
  if c.flushed then c.raise (.illegalCommand .store)
  else
    match c.overflow (c.emission v) with
    | some which => c.raise (.bufferOverflow which)
    | none => c.commit v (c.emission v)

/-- `FLUSH` in a unit that is not FAULTED (R186). -/
def Cmp.flush (c : Cmp) : Cmp :=
  if c.flushed then c.raise (.illegalCommand .flush)
  else if !c.measure && exceeds c.params.bsCapBits (c.bsWpos + padBits c.bsWpos) then c.raise (.bufferOverflow .bs)
  else { c.bsFlush with flushed := true }

/-- `CINIT` (42_compressor.md R171): accepted in every condition. -/
def execCinit (s : State) : Host.Outcome State Fault Refusal :=
  onCmp Cmp.init s

/-- `STORE value` (R172 to R185). -/
def execStore (v : Word) (s : State) : Host.Outcome State Fault Refusal :=
  onCmp (Cmp.unlessFaulted (Cmp.store v)) s

/-- `FLUSH` (R186). -/
def execFlush (s : State) : Host.Outcome State Fault Refusal :=
  onCmp (Cmp.unlessFaulted Cmp.flush) s

/-- `CMDC.op = 11` (30_encoding.md R93; 60_exceptions.md R238). -/
def execCmdcReserved (s : State) : Host.Outcome State Fault Refusal :=
  onCmp (Cmp.unlessFaulted fun c => c.raise (.illegalCommand .reserved)) s

end Sys2Proof.Machine
end

