-- ==== Sys2Proof/Machine/Decompressor.lean ====
section
/-! DEFINITION. The decompressor unit's commands (43_decompressor.md): `DINIT`, `LOAD` and the reserved codes. -/

namespace Sys2Proof.Machine

/-- The value a path rebuilds and the unit it leaves, or the fault it raises; checks are made in the order of
60_exceptions.md R243. -/
abbrev LoadResult := Except Cause (Word × Dec)

/-- FIRST (43_decompressor.md R204): the field read. -/
def Dec.readFirst (d : Dec) : LoadResult :=
  d.bsRead 64

/-- VALUE_IDENTICAL (R205). -/
def Dec.readIdent (d : Dec) : LoadResult :=
  match d.bsRead 7 with
  | .error why => .error why
  | .ok (i, d1) =>
    match d1.value i.toNat with
    | .error why => .error why
    | .ok r => .ok (r, d1)

/-- The check of a packed record (R206): `sig = 0`, or `sig + lz` above 64, is no record. -/
def recordValid (sel : BitVec 3) (sig : BitVec 6) : Bool :=
  decide (sig.toNat ≠ 0) && decide (sig.toNat + bucket sel ≤ 64)

/-- The part of R206 that follows the record check. -/
def Dec.readTrailField (d : Dec) (i : BitVec 7) (lz sig : Nat) : LoadResult :=
  match d.bsRead sig with
  | .error why => .error why
  | .ok (x, d1) =>
    match d1.value i.toNat with
    | .error why => .error why
    | .ok ref => .ok ((x <<< (64 - sig - lz)) ^^^ ref, { d1 with curLz := some lz, curTz := some (64 - sig - lz) })

/-- TRAILING_EXCEEDS_THRESHOLD (R206). -/
def Dec.readTrail (d : Dec) : LoadResult :=
  match d.pdaNext with
  | .error why => .error why
  | .ok (rec, d1) =>
    match unpackRecord d1.params.layout rec with
    | (i, sel, sig) =>
      if recordValid sel sig then d1.readTrailField i (bucket sel) sig.toNat
      else .error (.packedRecordInvalid rec)

/-- The field of the two leading-zero paths: `64 - lz` bits, XORed with `s.ref_value` (R207, R208). -/
def Dec.readLz (d : Dec) (lz : Nat) : LoadResult :=
  match d.bsRead (64 - lz) with
  | .error why => .error why
  | .ok (x, d1) => .ok (x ^^^ d.refValue, d1)

/-- LEADING_ZERO_EQUALITY (R207). -/
def Dec.readLzeq (d : Dec) : LoadResult :=
  match d.curLz with
  | none => .error .leadingZerosUnset
  | some lz => d.readLz lz

/-- LEADING_ZERO_LOAD (R208). -/
def Dec.readLzload (d : Dec) : LoadResult :=
  match d.lzaNext with
  | .error why => .error why
  | .ok (sel, d1) => Dec.readLz { d1 with curLz := some (bucket sel) } (bucket sel)

/-- The path selector (R203; R202 for a flag above 3). -/
def Dec.readCoded (d : Dec) (flag : BitVec 8) : LoadResult :=
  if flag = 0 then d.readIdent
  else if flag = 1 then d.readTrail
  else if flag = 2 then d.readLzeq
  else if flag = 3 then d.readLzload
  else .error (.corruptFlag flag)

/-- The epilogue (R209; R204 for the first value, where `Insert` writes slot 0 and `s.first` is then cleared). -/
def Dec.finish (d : Dec) (r : Word) : Dec :=
  { Dec.insert d r with refValue := r, first := false, result := r, resultValid := true }

/-- One `LOAD` in a unit that is not FAULTED (R202): the FIRST record while `s.first = 1`, whatever was asked for, else
the path `coded`. -/
def Dec.loadWith (coded : Dec → LoadResult) (d : Dec) : Dec :=
  match (if d.first then Dec.readFirst { d with resultValid := false } else coded { d with resultValid := false }) with
  | .error why => d.raise why
  | .ok (r, d1) => d1.finish r

/-- `DINIT` (R201): accepted in every condition. -/
def execDinit (s : State) : Host.Outcome State Fault Refusal :=
  onDec Dec.init s

/-- `LOAD flag` (R202 to R209). -/
def execLoad (flag : BitVec 8) (s : State) : Host.Outcome State Fault Refusal :=
  onDec (Dec.unlessFaulted (Dec.loadWith fun d => d.readCoded flag)) s

/-- `CMDD.op = 10` (30_encoding.md R93; 60_exceptions.md R238). -/
def execCmddReserved2 (s : State) : Host.Outcome State Fault Refusal :=
  onDec (Dec.unlessFaulted fun d => d.raise (.illegalCommand .reserved)) s

/-- `CMDD.op = 11` (R93, R238). -/
def execCmddReserved3 (s : State) : Host.Outcome State Fault Refusal :=
  onDec (Dec.unlessFaulted fun d => d.raise (.illegalCommand .reserved)) s

end Sys2Proof.Machine
end

