-- ==== Sys2Proof/Machine/Records.lean ====
section
/-! DEFINITION. The wire records as instructions (30_encoding.md R96 to R101, R105) and the packed record. A record is
what a `LOAD` of its flag reads: "the flag is the opcode of the wire format" (R94). Its meaning is that `LOAD`, so in a
FRESH unit, where "the flag operand is not examined at all" (43_decompressor.md R202), it reads the FIRST record (log 8). -/

namespace Sys2Proof.Machine

/-- `REC.FIRST` (R96; R204): "selected by `s.first = 1`". In an ACTIVE unit nothing can ask for it (log 8). -/
def execRecFirst (s : State) : Host.Outcome State Fault Refusal :=
  match s.decs[s.unit]? with
  | none => .fault .noSuchUnit
  | some d =>
    if d.fault || d.first then .next (s.setDec (Dec.unlessFaulted (Dec.loadWith Dec.readFirst) d))
    else .refused .recordNotSelected

/-- `REC.IDENT` (R97; R205). -/
def execRecIdent (s : State) : Host.Outcome State Fault Refusal :=
  onDec (Dec.unlessFaulted (Dec.loadWith Dec.readIdent)) s

/-- `REC.TRAIL` (R98; R206). -/
def execRecTrail (s : State) : Host.Outcome State Fault Refusal :=
  onDec (Dec.unlessFaulted (Dec.loadWith Dec.readTrail)) s

/-- `REC.LZEQ` (R99; R207). -/
def execRecLzeq (s : State) : Host.Outcome State Fault Refusal :=
  onDec (Dec.unlessFaulted (Dec.loadWith Dec.readLzeq)) s

/-- `REC.LZLOAD` (R101; R208). -/
def execRecLzload (s : State) : Host.Outcome State Fault Refusal :=
  onDec (Dec.unlessFaulted (Dec.loadWith Dec.readLzload)) s

/-- `REC.CORRUPT` (R105 (a); 60_exceptions.md R232): "no record is read; raises CorruptFlag". -/
def execRecCorrupt (flag : BitVec 8) (s : State) : Host.Outcome State Fault Refusal :=
  onDec (Dec.unlessFaulted (Dec.loadWith fun _ => .error (.corruptFlag flag))) s

/-- `PDREC` (R100, R109): "a data format, not an operation"; the spec gives it no effect of its own. What a packed record
does is `REC.TRAIL`'s (R206) and `STORE`'s (R179) to say. -/
def execPdrec (_rec : BitVec 16) (_s : State) : Host.Outcome State Fault Refusal :=
  .refused .dataFormat

end Sys2Proof.Machine
end

