-- ==== Sys2Proof/Syntax.lean ====
section
/-! DEFINITION. The instructions: one constructor per row of spec/opcode_table.json (30_encoding.md R109). -/

namespace Sys2Proof

/-- The five commands, the reserved command codes, the wire records and the packed record.
Bits that a row calls ignored are no operand. A wire record's fields lie in the Bit Stream and the side arrays, where
the record's execution reads them; its opcode, the flag, is all that selects it (R94, R109). -/
inductive Instr where
  /-- `CINIT`: `CMDC.op = 00`; `value` ignored (R91, R171). -/
  | cinit
  /-- `STORE value`: `CMDC.op = 01` (R91, R172). -/
  | store (value : Word)
  /-- `FLUSH`: `CMDC.op = 10`; `value` ignored (R91, R186). -/
  | flush
  /-- `CMDC.RESERVED`: `CMDC.op = 11` (R93). -/
  | cmdcReserved
  /-- `DINIT`: `CMDD.op = 00`; `flag` ignored (R92, R201). -/
  | dinit
  /-- `LOAD flag`: `CMDD.op = 01` (R92, R202). -/
  | load (flag : BitVec 8)
  /-- `CMDD.RESERVED2`: `CMDD.op = 10` (R93). -/
  | cmddReserved2
  /-- `CMDD.RESERVED3`: `CMDD.op = 11` (R93). -/
  | cmddReserved3
  /-- `REC.FIRST`: selected by `s.first = 1`, no flag (R96). -/
  | recFirst
  /-- `REC.IDENT`: flag 0, VALUE_IDENTICAL (R97). -/
  | recIdent
  /-- `REC.TRAIL`: flag 1, TRAILING_EXCEEDS_THRESHOLD (R98). -/
  | recTrail
  /-- `REC.LZEQ`: flag 2, LEADING_ZERO_EQUALITY (R99). -/
  | recLzeq
  /-- `REC.LZLOAD`: flag 3, LEADING_ZERO_LOAD (R101). -/
  | recLzload
  /-- `REC.CORRUPT`: a flag in 4..255 (R105 (a)). -/
  | recCorrupt (flag : BitVec 8)
  /-- `PDREC`: the 16-bit packed record, "a data format, not an operation" (R100, R109). -/
  | pdrec (rec : BitVec 16)
deriving DecidableEq, Repr

end Sys2Proof
end

