-- ==== Sys2Proof/Machine/Dispatch.lean ====
section
/-! DEFINITION. One arm for each row of the opcode table. -/

namespace Sys2Proof.Machine

def exec (i : Instr) (s : State) : Host.Outcome State Fault Refusal :=
  match i with
  | .cinit => Sys2Proof.Machine.execCinit s
  | .store value => Sys2Proof.Machine.execStore value s
  | .flush => Sys2Proof.Machine.execFlush s
  | .cmdcReserved => Sys2Proof.Machine.execCmdcReserved s
  | .dinit => Sys2Proof.Machine.execDinit s
  | .load flag => Sys2Proof.Machine.execLoad flag s
  | .cmddReserved2 => Sys2Proof.Machine.execCmddReserved2 s
  | .cmddReserved3 => Sys2Proof.Machine.execCmddReserved3 s
  | .recFirst => Sys2Proof.Machine.execRecFirst s
  | .recIdent => Sys2Proof.Machine.execRecIdent s
  | .recTrail => Sys2Proof.Machine.execRecTrail s
  | .recLzeq => Sys2Proof.Machine.execRecLzeq s
  | .recLzload => Sys2Proof.Machine.execRecLzload s
  | .recCorrupt flag => Sys2Proof.Machine.execRecCorrupt flag s
  | .pdrec rec => Sys2Proof.Machine.execPdrec rec s

end Sys2Proof.Machine
end

