-- ==== Sys2Proof/WellFormed.lean ====
section
/-! DEFINITION. Which terms of `Instr` stand for an encoding of the spec. -/

namespace Sys2Proof

/-- The one check that the operand types do not make: a `REC.CORRUPT` holds a flag that is none of the four branch
tags (30_encoding.md R94, R105 (a)). Every other operand value is legal: every `value` (R172), every `flag` (R202),
every 16-bit record (R147). -/
def Instr.wf : Instr → Bool
  | .cinit => true
  | .store _ => true
  | .flush => true
  | .cmdcReserved => true
  | .dinit => true
  | .load _ => true
  | .cmddReserved2 => true
  | .cmddReserved3 => true
  | .recFirst => true
  | .recIdent => true
  | .recTrail => true
  | .recLzeq => true
  | .recLzload => true
  | .recCorrupt flag => decide (3 < flag.toNat)
  | .pdrec _ => true

end Sys2Proof
end

