-- ==== Sys2Proof/Decode.lean ====
section
/-! DEFINITION. Decoding of command words, of the wire opcode and of the packed record, and the encoder
(30_encoding.md R91 to R101, R105, R109). -/

namespace Sys2Proof

/-- The four formats of 30_encoding.md. Nothing inside a word tells its format; the port it arrives at does. A record's
decoding also depends on `s.first` (R109: "`REC.FIRST` only when `s.first = 1`"), so `first` belongs to the format. -/
inductive Format where
  /-- The command word of a CMP, 66 bits (R91). -/
  | cmdc
  /-- The command word of a DEC, 10 bits (R92). -/
  | cmdd
  /-- The wire record's opcode: the 8-bit flag operand of `LOAD`, and `s.first` (R94, R109). -/
  | record (first : Bool)
  /-- The packed record, 16 bits (R100). -/
  | pd16
deriving DecidableEq, Repr

/-- Why a string of bytes is no word of a format. Safe: nothing is executed. -/
inductive DecodeError where
  /-- The number of bytes is not the format's. -/
  | wrongLength
  /-- A bit above the format's width is set (bits 71:66 of a `CMDC`, 15:10 of a `CMDD`). -/
  | excessBits
deriving DecidableEq, Repr

/-- The width in bits of a word of the format (R91, R92, R100; a flag operand has 8 bits, `FLAG_PORT_BITS`). -/
def Format.width : Format → Nat
  | .cmdc => 66
  | .cmdd => 10
  | .record _ => 8
  | .pd16 => 16

/-- The whole bytes that a word of the format takes in the model's layout. -/
def Format.bytes : Format → Nat
  | .cmdc => 9
  | .cmdd => 2
  | .record _ => 1
  | .pd16 => 2

/-- `CMDC` (R91, R93). -/
def decodeCmdc (w : BitVec 66) : Instr :=
  if w.extractLsb' 64 2 = 0 then .cinit
  else if w.extractLsb' 64 2 = 1 then .store (w.extractLsb' 0 64)
  else if w.extractLsb' 64 2 = 2 then .flush
  else .cmdcReserved

/-- `CMDD` (R92, R93). -/
def decodeCmdd (w : BitVec 10) : Instr :=
  if w.extractLsb' 8 2 = 0 then .dinit
  else if w.extractLsb' 8 2 = 1 then .load (w.extractLsb' 0 8)
  else if w.extractLsb' 8 2 = 2 then .cmddReserved2
  else .cmddReserved3

/-- The wire opcode (R94, R105 (a), R109): the rows "are tried in the order listed, and `REC.FIRST` only when
`s.first = 1`". -/
def decodeRecord (first : Bool) (flag : BitVec 8) : Instr :=
  if first then .recFirst
  else if flag = 0 then .recIdent
  else if flag = 1 then .recTrail
  else if flag = 2 then .recLzeq
  else if flag = 3 then .recLzload
  else .recCorrupt flag

/-- The bits of a word as a number, read in its format. -/
def decodeBits (f : Format) (n : Nat) : Instr :=
  match f with
  | .cmdc => decodeCmdc (BitVec.ofNat 66 n)
  | .cmdd => decodeCmdd (BitVec.ofNat 10 n)
  | .record first => decodeRecord first (BitVec.ofNat 8 n)
  | .pd16 => .pdrec (BitVec.ofNat 16 n)

/-- The number whose bits 7:0 are the first byte, 15:8 the second, and so on. DESIGN CHOICE (log 10), safe: command
words live on a port, the spec stores them nowhere, and no rule depends on a byte order. -/
def bytesToNat : List Byte → Nat
  | [] => 0
  | b :: r => b.toNat + 256 * bytesToNat r

/-- `k` bytes of a number, bits 7:0 first: the inverse of `bytesToNat` on `k` bytes. -/
def natToBytes : Nat → Nat → List Byte
  | 0, _ => []
  | k + 1, n => BitVec.ofNat 8 n :: natToBytes k (n / 256)

/-- The decoder, total on any bytes: the instruction, or why there is none. -/
def decodeBytes (f : Format) (bs : List Byte) : Except DecodeError Instr :=
  if bs.length ≠ f.bytes then .error .wrongLength
  else if 2 ^ f.width ≤ bytesToNat bs then .error .excessBits
  else .ok (decodeBits f (bytesToNat bs))

/-- The format an instruction is written in. -/
def formatOf : Instr → Format
  | .cinit => .cmdc
  | .store _ => .cmdc
  | .flush => .cmdc
  | .cmdcReserved => .cmdc
  | .dinit => .cmdd
  | .load _ => .cmdd
  | .cmddReserved2 => .cmdd
  | .cmddReserved3 => .cmdd
  | .recFirst => .record true
  | .recIdent => .record false
  | .recTrail => .record false
  | .recLzeq => .record false
  | .recLzload => .record false
  | .recCorrupt _ => .record false
  | .pdrec _ => .pd16

/-- The bits of an instruction's word, from the tables of R91, R92, R94 and R100. Ignored bits are written 0. -/
def encodeBits : Instr → Nat
  | .cinit => 0
  | .store value => 2 ^ 64 + value.toNat
  | .flush => 2 * 2 ^ 64
  | .cmdcReserved => 3 * 2 ^ 64
  | .dinit => 0
  | .load flag => 2 ^ 8 + flag.toNat
  | .cmddReserved2 => 2 * 2 ^ 8
  | .cmddReserved3 => 3 * 2 ^ 8
  | .recFirst => 0
  | .recIdent => 0
  | .recTrail => 1
  | .recLzeq => 2
  | .recLzload => 3
  | .recCorrupt flag => flag.toNat
  | .pdrec rec => rec.toNat

/-- The word of an instruction, as bytes of its format. -/
def encode (i : Instr) : List Byte :=
  natToBytes (formatOf i).bytes (encodeBits i)

/-- The format the opcode table's row width stands for: 66 bits (9 bytes) a `CMDC`, 10 bits (2 bytes) a `CMDD`, 8 bits
a record's flag. Two rows share 16 bits, the `CMDD` word in whole bytes and the packed record: a number that has a bit
above bit 9 is a packed record (log 10). `REC.FIRST`, whose row is "64 bits of BS", has no flag. -/
def tableFormat (nbits w : Nat) : Option Format :=
  if nbits = 66 ∨ nbits = 72 then some .cmdc
  else if nbits = 10 then some .cmdd
  else if nbits = 16 then (if w < 2 ^ 10 then some .cmdd else some .pd16)
  else if nbits = 8 then some (.record false)
  else none

/-- The instruction the decoder reads from an opcode-table word (fixed name of the host's). The 64-bit row `REC.FIRST`
is all operand, the Raw Value: every number of 64 bits is one. -/
def decodeTableWord (nbits w : Nat) : Option Instr :=
  if nbits = 64 then (if w < 2 ^ 64 then some (decodeRecord true 0) else none)
  else
    match tableFormat nbits w with
    | none => none
    | some f =>
      if 2 ^ (8 * f.bytes) ≤ w then none
      else
        match decodeBytes f (natToBytes f.bytes w) with
        | .ok i => some i
        | .error _ => none

end Sys2Proof
end

