-- ==== Sys2Proof/Machine/Access.lean ====
section
/-! DEFINITION. The host's side: registers (10_state.md R41 to R43), the regions it reads and the memories it writes
(20_memory.md R60, R75, R76; 70_reset_and_hazards.md R270), and hardware reset (R260). -/

namespace Sys2Proof.Machine

/-- A register's value, or a free value where it reads unspecified (10_state.md R41, R42; log 12). -/
def registerOr (undefinedNow : Bool) (src : Config.Source) (reg : Nat) (v : Word) : Word :=
  if undefinedNow then Config.unspecified 64 src .register reg else v

/-- A host read of a compressor unit's register (R41), zero-extended to 64 bits. A count wider than the register gives its
low 64 bits (log 7). -/
def Cmp.readReg (c : Cmp) (reg : BitVec 8) : Option Word :=
  match reg.toNat with
  | 0x00 => some ((cmpStatus c).setWidth 64)
  | 0x01 => some (c.cause.setWidth 64)
  | 0x02 => some (c.config.setWidth 64)
  | 0x03 => some (registerOr c.fault c.src 0x03 (BitVec.ofNat 64 c.size))
  | 0x04 => some (registerOr c.fault c.src 0x04 (BitVec.ofNat 64 c.bsWpos))
  | 0x05 => some (registerOr c.fault c.src 0x05 (BitVec.ofNat 64 c.fbCount))
  | 0x06 => some (registerOr c.fault c.src 0x06 (BitVec.ofNat 64 c.lzbCount))
  | 0x07 => some (registerOr c.fault c.src 0x07 (BitVec.ofNat 64 c.pdbCount))
  | _ => none

/-- A host read of a decompressor unit's register (R42). `D_RESULT` is unspecified while `RESULT_VALID = 0`. -/
def Dec.readReg (d : Dec) (reg : BitVec 8) : Option Word :=
  match reg.toNat with
  | 0x10 => some ((decStatus d).setWidth 64)
  | 0x11 => some (d.cause.setWidth 64)
  | 0x12 => some (registerOr (d.fault || !d.resultValid) d.src 0x12 d.result)
  | 0x13 => some (registerOr d.fault d.src 0x13 (BitVec.ofNat 64 d.size))
  | 0x14 => some (registerOr d.fault d.src 0x14 (BitVec.ofNat 64 d.bsRpos))
  | 0x15 => some (BitVec.ofNat 64 d.bsLen)
  | 0x16 => some (registerOr d.fault d.src 0x16 (BitVec.ofNat 64 d.lzCursor))
  | 0x17 => some (BitVec.ofNat 64 d.lzLen)
  | 0x18 => some (registerOr d.fault d.src 0x18 (BitVec.ofNat 64 d.pdCursor))
  | 0x19 => some (BitVec.ofNat 64 d.pdLen)
  | _ => none

/-- A host write of `C_CONFIG`: "unlisted bits read as zero and ignore writes" (R41). -/
def Cmp.writeConfig (c : Cmp) (v : Word) : Cmp :=
  { c with config := v.setWidth 8 &&& 1 }

/-- A host write of a compressor unit's register: `C_CONFIG` alone is RW (R41). -/
def Cmp.writeReg (c : Cmp) (reg : BitVec 8) (v : Word) : Option Cmp :=
  if reg = 0x02 then some (c.writeConfig v) else none

/-- A host write of a decompressor unit's register (R42, R43): every value is legal in a RW register. -/
def Dec.writeReg (d : Dec) (reg : BitVec 8) (v : Word) : Option Dec :=
  match reg.toNat with
  | 0x15 => some { d with bsLen := v.toNat }
  | 0x16 => some { d with lzCursor := v.toNat }
  | 0x17 => some { d with lzLen := v.toNat }
  | 0x18 => some { d with pdCursor := v.toNat }
  | 0x19 => some { d with pdLen := v.toNat }
  | _ => none

/-- An element of a region as the host sees it: what the unit wrote, or a free value where it wrote nothing. In
measurement mode and while FAULTED the contents are unspecified (10_state.md R40; 60_exceptions.md R240; log 13). -/
def hostView {w : Nat} (c : Cmp) (e : Config.Element) (m : Memory w) (a : Nat) : BitVec w :=
  if c.fault || c.measure then Config.unspecified w c.src e a
  else (m.read a).getD (Config.unspecified w c.src e a)

/-- The number of elements of a region (10_state.md R30 to R33). -/
def Cmp.regionCount (c : Cmp) (r : CmpRegion) : Nat :=
  match r with
  | .bs => c.bsWpos
  | .fb => c.fbCount
  | .lzb => c.lzbCount
  | .pdb => c.pdbCount

/-- The element a host read of a region gives, zero-extended. -/
def Cmp.regionElem (c : Cmp) (r : CmpRegion) (a : Nat) : Word :=
  match r with
  | .bs => (hostView c .bs c.bs a).setWidth 64
  | .fb => (hostView c .fb c.fb a).setWidth 64
  | .lzb => (hostView c .lzb c.lzb a).setWidth 64
  | .pdb => (hostView c .pdb c.pdb a).setWidth 64

/-- A host read of a region's element (20_memory.md R60, R76). The Bit Stream may be read "only after `FLUSH`"
(70_reset_and_hazards.md R270; 93_implementation_defined.md U13). Everything reads unspecified from a FAULTED unit (R277). -/
def Cmp.readRegion (c : Cmp) (r : CmpRegion) (a : Nat) : Host.Outcome Word Fault Refusal :=
  if c.fault then .next (c.regionElem r a)
  else if r = .bs && !c.flushed then .refused .readBeforeFlush
  else if a < c.regionCount r then .next (c.regionElem r a)
  else .fault .noSuchElement

/-- A host write of an element of a decompressor unit's memory (20_memory.md R60). The lengths are registers of their
own, so the order of the two writes is free (70_reset_and_hazards.md R263). -/
def Dec.writeSpace (d : Dec) (sp : DecSpace) (a : Nat) (v : BitVec 16) : Dec :=
  match sp with
  | .bs => { d with bs := d.bs.write a (v.setWidth 1) }
  | .lza => { d with lza := d.lza.write a (v.setWidth 3) }
  | .pda => { d with pda := d.pda.write a v }

/-- A register number names a compressor unit's register (R41). -/
def isCmpReg (reg : BitVec 8) : Bool :=
  decide (reg.toNat < 0x08)

/-- A register number names a decompressor unit's register (R42). -/
def isDecReg (reg : BitVec 8) : Bool :=
  decide (0x10 ≤ reg.toNat) && decide (reg.toNat < 0x1A)

/-- The host's register read: the data goes to `hostData`, and "no register has a side effect on read" (R43). -/
def hostReadReg (reg : BitVec 8) (s : State) : Host.Outcome State Fault Refusal :=
  if isCmpReg reg then
    match s.cmps[s.unit]? with
    | none => .fault .noSuchUnit
    | some c => .next { s with hostData := (c.readReg reg).getD 0 }
  else if isDecReg reg then
    match s.decs[s.unit]? with
    | none => .fault .noSuchUnit
    | some d => .next { s with hostData := (d.readReg reg).getD 0 }
  else .fault .noSuchRegister

/-- The host's register write (R43). -/
def hostWriteReg (reg : BitVec 8) (v : Word) (s : State) : Host.Outcome State Fault Refusal :=
  if isCmpReg reg then
    match s.cmps[s.unit]? with
    | none => .fault .noSuchUnit
    | some c =>
      match c.writeReg reg v with
      | none => .refused .readOnlyRegister
      | some c1 => .next (s.setCmp c1)
  else if isDecReg reg then
    match s.decs[s.unit]? with
    | none => .fault .noSuchUnit
    | some d =>
      match d.writeReg reg v with
      | none => .refused .readOnlyRegister
      | some d1 => .next (s.setDec d1)
  else .fault .noSuchRegister

/-- The host's read of a region's element: the data goes to `hostData`. -/
def hostReadRegion (r : CmpRegion) (a : Nat) (s : State) : Host.Outcome State Fault Refusal :=
  match s.cmps[s.unit]? with
  | none => .fault .noSuchUnit
  | some c =>
    match c.readRegion r a with
    | .next v => .next { s with hostData := v }
    | .fault e => .fault e
    | .refused e => .refused e

/-- The host's write of a memory element. -/
def hostWriteSpace (sp : DecSpace) (a : Nat) (v : BitVec 16) (s : State) : Host.Outcome State Fault Refusal :=
  onDec (fun d => d.writeSpace sp a v) s

/-- Hardware reset, "applied to every unit at once" (70_reset_and_hazards.md R260). -/
def hostReset (s : State) : Host.Outcome State Fault Refusal :=
  .next { s with cmps := s.cmps.map Cmp.hardReset, decs := s.decs.map Dec.hardReset }

end Sys2Proof.Machine
end

