-- ==== Sys2Proof/Machine/Fetch.lean ====
section
/-! DEFINITION. What the next host action is: a command word to decode, or an access (10_state.md R24: the block "has no
program counter and fetches no instructions"; "what sequences it is the host's order of commands"). -/

namespace Sys2Proof.Machine

/-- Which unit an action is addressed to; hardware reset is addressed to none (the number 0 stands there). -/
def actionUnit (a : HostAction) : Nat :=
  match a with
  | .commandC k _ => k
  | .commandD k _ => k
  | .record k _ => k
  | .data k _ => k
  | .readReg k _ => k
  | .writeReg k _ _ => k
  | .readRegion k _ _ => k
  | .writeSpace k _ _ _ => k
  | .reset => 0

/-- `s.first` of the decompressor unit a record is for (30_encoding.md R109); false where there is no such unit. -/
def recordFirst (s : State) (k : Nat) : Bool :=
  match s.decs[k]? with
  | none => false
  | some d => d.first

/-- The instruction an action carries, decoded; none for a host access. -/
def actionInstr (s : State) (a : HostAction) : Option Instr :=
  match a with
  | .commandC _ w => some (decodeCmdc w)
  | .commandD _ w => some (decodeCmdd w)
  | .record k flag => some (decodeRecord (recordFirst s k) flag)
  | .data _ rec => some (.pdrec rec)
  | .readReg _ _ => none
  | .writeReg _ _ _ => none
  | .readRegion _ _ _ => none
  | .writeSpace _ _ _ _ => none
  | .reset => none

/-- The state in which the first action of the inbox is carried out: the action taken out, its unit addressed. -/
def accept (s : State) (a : HostAction) (rest : List HostAction) : State :=
  { s with inbox := rest, unit := actionUnit a }

/-- A host access. A command is none: it leaves the state (`step` gives it to `exec`). -/
def hostAccess (a : HostAction) (s : State) : Host.Outcome State Fault Refusal :=
  match a with
  | .commandC _ _ => .next s
  | .commandD _ _ => .next s
  | .record _ _ => .next s
  | .data _ _ => .next s
  | .readReg _ reg => hostReadReg reg s
  | .writeReg _ reg v => hostWriteReg reg v s
  | .readRegion _ r addr => hostReadRegion r addr s
  | .writeSpace _ sp addr v => hostWriteSpace sp addr v s
  | .reset => hostReset s

/-- The Bit Stream bits of a number, most significant first: how a first record's 64 bits lie in `BS` (20_memory.md R63). -/
def rawBits (n : Nat) (w : Nat) : Memory 1 :=
  Memory.writeBits [] 0 n (BitVec.ofNat 64 w)

/-- The action that gives the block an opcode-table word (log 10), if some format holds it. -/
def tableAction (nbits w : Nat) : Option HostAction :=
  match tableFormat nbits w with
  | none => none
  | some .cmdc => some (.commandC 0 (BitVec.ofNat 66 w))
  | some .cmdd => some (.commandD 0 (BitVec.ofNat 10 w))
  | some (.record _) => some (.record 0 (BitVec.ofNat 8 w))
  | some .pd16 => some (.data 0 (BitVec.ofNat 16 w))

/-- The decompressor units with unit 0's `s.first` as a record's row needs it ("selected by `s.first = 0`", R109). -/
def selectRecord (first : Bool) (ds : List Dec) : List Dec :=
  match ds with
  | [] => []
  | d :: r => { d with first := first } :: r

/-- The decompressor units with unit 0 FRESH and a Raw Value as its Bit Stream: the row `REC.FIRST` and its field (R96). -/
def selectFirstRecord (w : Nat) (ds : List Dec) : List Dec :=
  match ds with
  | [] => []
  | d :: r => { d with first := true, bs := rawBits 64 w, bsLen := 64, bsRpos := 0 } :: r

end Sys2Proof.Machine
end

