-- ==== Sys2Proof/Machine/Step.lean ====
section
/-! DEFINITION. One step: the host's next action, carried out whole (00_scope.md R10; 20_memory.md R72, R75). -/

namespace Sys2Proof.Machine

/-- One step. With nothing to do "a unit between commands holds its state indefinitely" (60_exceptions.md R255). -/
def step (s : State) : Host.Outcome State Fault Refusal :=
  match s.inbox with
  | [] => .next s
  | a :: rest =>
    match actionInstr s a with
    | some i => exec i (accept s a rest)
    | none => hostAccess a (accept s a rest)

/-- `s` with one opcode-table word as the host's next action (fixed name of the host's; log 8, log 10). A record's row
also needs the `s.first` that selects it, and `REC.FIRST` its field. -/
def State.withFetchWord (s : State) (nbits w : Nat) : State :=
  if nbits = 64 then { s with inbox := .record 0 0 :: s.inbox, decs := selectFirstRecord w s.decs }
  else
    match tableAction nbits w with
    | none => s
    | some (.record k flag) => { s with inbox := .record k flag :: s.inbox, decs := selectRecord false s.decs }
    | some a => { s with inbox := a :: s.inbox }

end Sys2Proof.Machine
end

