-- ==== Sys2Proof/Machine/Streams.lean ====
section
/-! DEFINITION. The encoded stream as a host handles it: byte images (20_memory.md R64, R65), the wire-format regions
(30_encoding.md R95), the host's transfer from a CMP to a DEC and the pseudo-commands (R108), and the trace syntax
(R107). None of it is used by a command's meaning. -/

namespace Sys2Proof.Machine

/-! ### Byte images (20_memory.md R64, R65) -/

/-- Bit `k` of `n` elements of width `w` laid end to end, most significant bit first; zero past the end. -/
def imageBit {w : Nat} (n : Nat) (elem : Nat → BitVec w) (k : Nat) : Bool :=
  decide (k < w * n) && (elem (k / w)).getMsbD (k % w)

/-- Byte `j` of an image: stream bit `8j` is its most significant bit (R64). -/
def imageByte {w : Nat} (n : Nat) (elem : Nat → BitVec w) (j : Nat) : Byte :=
  BitVec.ofBool (imageBit n elem (8 * j)) ++ BitVec.ofBool (imageBit n elem (8 * j + 1))
    ++ BitVec.ofBool (imageBit n elem (8 * j + 2)) ++ BitVec.ofBool (imageBit n elem (8 * j + 3))
    ++ BitVec.ofBool (imageBit n elem (8 * j + 4)) ++ BitVec.ofBool (imageBit n elem (8 * j + 5))
    ++ BitVec.ofBool (imageBit n elem (8 * j + 6)) ++ BitVec.ofBool (imageBit n elem (8 * j + 7))

/-- The byte image of `n` elements, zero-padded to a byte. -/
def byteImage {w : Nat} (n : Nat) (elem : Nat → BitVec w) : List Byte :=
  (List.range ((w * n + 7) / 8)).map (imageByte n elem)

/-- The byte image of a compressor unit's Bit Stream (R64). DESIGN CHOICE (log 16), unsafe: of a unit that is not FLUSHED,
whose Bit Stream a host may not read (R76; 70_reset_and_hazards.md R270), it is the bits so far, zero-padded. -/
def Cmp.bsImage (c : Cmp) : List Byte :=
  byteImage c.bsWpos (hostView c .bs c.bs)

/-- The canonical image of its Flag Buffer (R65 (a)). -/
def Cmp.fbImage (c : Cmp) : List Byte :=
  byteImage c.fbCount (hostView c .fb c.fb)

/-- The canonical image of its Leading-Zero Buffer (R65 (b)). -/
def Cmp.lzbImage (c : Cmp) : List Byte :=
  byteImage c.lzbCount (hostView c .lzb c.lzb)

/-- The canonical image of its Packed-Data Buffer (R65 (c)). -/
def Cmp.pdbImage (c : Cmp) : List Byte :=
  byteImage c.pdbCount (hostView c .pdb c.pdb)

/-! ### The regions of one stream (30_encoding.md R95; 42_compressor.md R190) -/

/-- One encoded stream: the elements of the four regions, in order. -/
structure WireStream where
  bits    : List (BitVec 1)
  flags   : List (BitVec 2)
  sels    : List (BitVec 3)
  records : List (BitVec 16)
deriving DecidableEq, Repr

/-- The regions of a compressor unit as the host reads them (R95). DESIGN CHOICE (log 16), unsafe: of a unit that is not
FLUSHED, whose Bit Stream a host may not read (R76, R270), `bits` is the bits so far. -/
def Cmp.stream (c : Cmp) : WireStream :=
  { bits := (List.range c.bsWpos).map (hostView c .bs c.bs)
    flags := (List.range c.fbCount).map (hostView c .fb c.fb)
    sels := (List.range c.lzbCount).map (hostView c .lzb c.lzb)
    records := (List.range c.pdbCount).map (hostView c .pdb c.pdb) }

/-- The memory that holds the elements of a list from address `a` on. -/
def Memory.ofList {w : Nat} (a : Nat) (l : List (BitVec w)) : Memory w :=
  match l with
  | [] => []
  | x :: r => (a, x) :: Memory.ofList (a + 1) r

/-- A stream put into a decompressor unit: its three memories and their lengths (R108 (c); 70_reset_and_hazards.md R263).
The flags stay with the host. -/
def Dec.withStream (d : Dec) (w : WireStream) : Dec :=
  { d with
    bs := Memory.ofList 0 w.bits
    bsLen := w.bits.length
    lza := Memory.ofList 0 w.sels
    lzLen := w.sels.length
    pda := Memory.ofList 0 w.records
    pdLen := w.records.length }

/-- `TRANSFER` (R108 (c)) from the addressed compressor unit to the addressed decompressor unit: what the host's accesses
together do. DESIGN CHOICE (log 16), unsafe: from a unit that is not FLUSHED it takes the bits so far, where the host's
read of the Bit Stream is refused (R270). -/
def transfer (s : State) : State :=
  match s.cmps[s.unit]?, s.decs[s.unit]? with
  | some c, some d => s.setDec (d.withStream c.stream)
  | _, _ => s

/-- `ENCODE v1, ..., vn` (R108 (a)). -/
def encodeCommands (vs : List Word) : List Instr :=
  .cinit :: (vs.map Instr.store ++ [.flush])

/-- `DECODE n` (R108 (b)): `first` is the ignored flag operand of the first `LOAD`. -/
def decodeCommands (first : BitVec 8) (flags : List (BitVec 2)) : List Instr :=
  .dinit :: .load first :: flags.map fun f => Instr.load (f.setWidth 8)

/-! ### Trace syntax (30_encoding.md R107) -/

/-- One hexadecimal digit, capital letters. -/
def hexDigit (n : Nat) : Char :=
  if n < 10 then Char.ofNat (48 + n) else Char.ofNat (55 + n)

/-- The low `k` hexadecimal digits of a number, most significant first. -/
def hexDigits (k n : Nat) : List Char :=
  match k with
  | 0 => []
  | j + 1 => hexDigits j (n / 16) ++ [hexDigit (n % 16)]

/-- A flag operand in decimal, 0 to 255. -/
def decimalDigits (n : Nat) : List Char :=
  if n < 10 then [hexDigit n]
  else if n < 100 then [hexDigit (n / 10), hexDigit (n % 10)]
  else [hexDigit (n / 100), hexDigit (n / 10 % 10), hexDigit (n % 10)]

/-- The line of a command in a trace (R107), as characters; rows that are no command have none. -/
def traceLine (i : Instr) : Option (List Char) :=
  match i with
  | .cinit => some ['C', 'I', 'N', 'I', 'T']
  | .store v => some (['S', 'T', 'O', 'R', 'E', ' ', '0', 'x'] ++ hexDigits 16 v.toNat)
  | .flush => some ['F', 'L', 'U', 'S', 'H']
  | .cmdcReserved => none
  | .dinit => some ['D', 'I', 'N', 'I', 'T']
  | .load f => some (['L', 'O', 'A', 'D', ' '] ++ decimalDigits f.toNat)
  | .cmddReserved2 => none
  | .cmddReserved3 => none
  | .recFirst => none
  | .recIdent => none
  | .recTrail => none
  | .recLzeq => none
  | .recLzload => none
  | .recCorrupt _ => none
  | .pdrec _ => none

end Sys2Proof.Machine
end

