-- ==== Sys2Proof/Safety.lean ====
section
/-! DEFINITION. What counts as a safe run, and the invariant of the block's state, in the terms the statements use. -/

namespace Sys2Proof.Machine

/-! ### Runs -/

/-- Instructions one after the other: "the effect of a sequence of commands is the composition of their rules in order"
(20_memory.md R72). It stops at the first fault or refusal of the machine. -/
def execAll (is : List Instr) (s : State) : Host.Outcome State Fault Refusal :=
  match is with
  | [] => .next s
  | i :: r =>
    match exec i s with
    | .next t => execAll r t
    | .fault e => .fault e
    | .refused e => .refused e

/-- `c` is the compressor unit that a command given now reaches. -/
abbrev AtCmp (s : State) (c : Cmp) : Prop :=
  s.cmps[s.unit]? = some c

/-- `d` is the decompressor unit that a command given now reaches. -/
abbrev AtDec (s : State) (d : Dec) : Prop :=
  s.decs[s.unit]? = some d

/-- Bit Stream fields read one after the other. -/
def Dec.bsReadAll (d : Dec) (widths : List Nat) : Except Cause (List Word × Dec) :=
  match widths with
  | [] => .ok ([], d)
  | n :: r =>
    match d.bsRead n with
    | .error why => .error why
    | .ok (x, d1) =>
      match Dec.bsReadAll d1 r with
      | .error why => .error why
      | .ok (xs, d2) => .ok (x :: xs, d2)

/-- There is room for a field of `n` bits and its flag, or the unit is in measurement mode, where no capacity is checked
(42_compressor.md R172, R185). -/
abbrev Cmp.roomFor (c : Cmp) (n : Nat) : Prop :=
  c.measure = true ∨ (exceeds c.params.bsCapBits (c.bsWpos + n) = false ∧ exceeds c.params.fbCap (c.fbCount + 1) = false)

/-- Some region lacks the room that a record needs, outside measurement mode (42_compressor.md R172, "Capacity"). -/
abbrev Cmp.lacks (c : Cmp) (e : Emission) : Prop :=
  c.measure = false ∧
    (exceeds c.params.bsCapBits (c.bsWpos + e.width) = true ∨
      (e.flag ≠ none ∧ exceeds c.params.fbCap (c.fbCount + 1) = true) ∨
      (e.sel ≠ none ∧ exceeds c.params.lzbCap (c.lzbCount + 1) = true) ∨
      (e.packed ≠ none ∧ exceeds c.params.pdbCap (c.pdbCount + 1) = true))

/-- A safe state: no unit is FAULTED. "A FAULTED state is never a final state of a successful run"
(60_exceptions.md R240). -/
def State.faultFree (s : State) : Prop :=
  (∀ c ∈ s.cmps, c.fault = false) ∧ (∀ d ∈ s.decs, d.fault = false)

/-- A compression run is complete "when `FLUSH` has completed with `s.fault = 0`" (70_reset_and_hazards.md R280). -/
def Cmp.runComplete (c : Cmp) : Prop :=
  c.flushed = true ∧ c.fault = false

/-- A unit's capacities are all "unbounded" (00_scope.md R7). -/
def Cmp.unbounded (c : Cmp) : Prop :=
  c.params.bsCapBits = none ∧ c.params.fbCap = none ∧ c.params.lzbCap = none ∧ c.params.pdbCap = none

/-! ### The invariant -/

/-- A memory holds exactly the elements `0` to `n-1`. -/
def Memory.fills {w : Nat} (m : Memory w) (n : Nat) : Prop :=
  ∀ a, (m.read a).isSome = decide (a < n)

/-- How many of the first `n` elements are `x`. -/
def Memory.tally {w : Nat} (m : Memory w) (n : Nat) (x : BitVec w) : Nat :=
  match n with
  | 0 => 0
  | k + 1 => Memory.tally m k x + (if m.read k = some x then 1 else 0)

/-- The four regions are in canonical form, `C_CONFIG` has only its implemented bit (10_state.md R41), and the cause is
the one the fault bit allows: none, or a code that a compressor unit raises (60_exceptions.md R231). -/
structure Cmp.Sound (c : Cmp) : Prop where
  bsWf : Memory.wf c.bs
  fbWf : Memory.wf c.fb
  lzbWf : Memory.wf c.lzb
  pdbWf : Memory.wf c.pdb
  configBits : c.config &&& 1 = c.config
  causeClear : c.fault = false → c.cause = 0
  causeCode : c.fault = true → c.cause = 7 ∨ c.cause = 8

/-- The stream of a unit that is not FAULTED (10_state.md R48 (a), (b)): nothing has been written while `s.first = 1`;
afterwards one flag for every value but the first; the side entries are at most one for each flag; a flushed stream is
byte-aligned (42_compressor.md R186). -/
structure Cmp.StreamCounts (c : Cmp) : Prop where
  freshSize : c.first = true → c.size = 0 ∧ c.fbCount = 0 ∧ c.bsWpos = 0 ∧ c.prevLz = none
  activeSize : c.first = false → c.size = c.fbCount ∧ 64 ≤ c.bsWpos
  sides : c.lzbCount + c.pdbCount ≤ c.fbCount
  flushedAligned : c.flushed = true → c.bsWpos % 8 = 0

/-- What the regions hold in a unit that is not FAULTED and not in measurement mode (10_state.md R30 to R33, R48 (c), (e)):
exactly the elements below the counts, within the capacities; as many Leading-Zero entries as flags 3 and as many packed
records as flags 1; and `s.prev_lz` is set exactly after a flag 2 or 3, being then the newest Leading-Zero entry. -/
structure Cmp.StreamContents (c : Cmp) : Prop where
  bsFills : Memory.fills c.bs c.bsWpos
  fbFills : Memory.fills c.fb c.fbCount
  lzbFills : Memory.fills c.lzb c.lzbCount
  pdbFills : Memory.fills c.pdb c.pdbCount
  bsRoom : exceeds c.params.bsCapBits c.bsWpos = false
  fbRoom : exceeds c.params.fbCap c.fbCount = false
  lzbRoom : exceeds c.params.lzbCap c.lzbCount = false
  pdbRoom : exceeds c.params.pdbCap c.pdbCount = false
  lzbTally : c.lzbCount = Memory.tally c.fb c.fbCount 3
  pdbTally : c.pdbCount = Memory.tally c.fb c.fbCount 1
  prevSet : ∀ n, c.fbCount = n + 1 → (c.prevLz.isSome ↔ c.fb.read n = some 2 ∨ c.fb.read n = some 3)
  prevNewest : ∀ sel, c.prevLz = some sel → ∃ n, c.lzbCount = n + 1 ∧ c.lzb.read n = some sel

/-- The invariant of a compressor unit. -/
structure Cmp.Inv (c : Cmp) : Prop where
  sound : c.Sound
  counts : c.fault = false → c.StreamCounts
  contents : c.fault = false → c.measure = false → c.StreamContents

/-- The memories are in canonical form, the leading- and trailing-zero counters are legal (10_state.md R35), and the cause
is one the fault bit allows (60_exceptions.md R231, R240). -/
structure Dec.Sound (d : Dec) : Prop where
  bsWf : Memory.wf d.bs
  lzaWf : Memory.wf d.lza
  pdaWf : Memory.wf d.pda
  curLzLegal : ∀ lz, d.curLz = some lz → ∃ sel, lz = bucket sel
  curTzLegal : ∀ tz, d.curTz = some tz → tz ≤ 63
  causeClear : d.fault = false → d.cause = 0
  causeCode : d.fault = true → 1 ≤ d.cause.toNat ∧ d.cause.toNat ≤ 7
  faultedNoResult : d.fault = true → d.resultValid = false

/-- The stream of a decompressor unit that is not FAULTED: nothing decoded while `s.first = 1`; afterwards the last result
is valid and is `s.ref_value` and the newest ring entry (10_state.md R22, R34, R39). -/
structure Dec.StreamState (d : Dec) : Prop where
  fresh : d.first = true → d.size = 0 ∧ d.bsRpos = 0 ∧ d.curLz = none ∧ d.curTz = none ∧ d.resultValid = false
  active : d.first = false → 64 ≤ d.bsRpos ∧ d.resultValid = true ∧ d.refValue = d.result ∧ Ring.get d.ring d.size = d.result

/-- The invariant of a decompressor unit. -/
structure Dec.Inv (d : Dec) : Prop where
  sound : d.Sound
  stream : d.fault = false → d.StreamState

/-- The invariant of the block. -/
structure State.Inv (s : State) : Prop where
  cmps : ∀ c ∈ s.cmps, c.Inv
  decs : ∀ d ∈ s.decs, d.Inv

/-! ### The widths of a stream's fields (30_encoding.md R103; 42_compressor.md R184) -/

/-- The Bit Stream bits that the flags of a stream stand for, after the first value: `sels` and `records` are the side
entries not yet consumed and `lz` the leading-zero bound in force. A missing entry counts as an empty field. -/
def fieldBits (layout : Layout) (flags : List (BitVec 2)) (sels : List (BitVec 3)) (records : List (BitVec 16))
    (lz : Nat) : Nat :=
  match flags with
  | [] => 0
  | f :: r =>
    if f = 0 then 7 + fieldBits layout r sels records lz
    else if f = 1 then
      match records with
      | [] => fieldBits layout r sels [] lz
      | p :: ps => (unpackRecord layout p).2.2.toNat + fieldBits layout r sels ps (bucket (unpackRecord layout p).2.1)
    else if f = 2 then (64 - lz) + fieldBits layout r sels records lz
    else
      match sels with
      | [] => fieldBits layout r [] records lz
      | e :: es => (64 - bucket e) + fieldBits layout r es records (bucket e)

/-! ### Compressor and decompressor side by side (42_compressor.md R191) -/

/-- The two units stand at the same point of one stream: the same values in the same valid slots, the same `s.size`, the
reference value the newest ring entry, `BUCKET[s.prev_lz] = s.cur_lz` where `s.prev_lz` is set, and the decompressor's
three cursors where the compressor's three counts stand (42_compressor.md R191, the proof invariant). -/
structure InStep (c : Cmp) (d : Dec) : Prop where
  cmpRuns : c.fault = false
  decRuns : d.fault = false
  first : d.first = c.first
  size : d.size = c.size
  fresh : c.first = true → c.size = 0
  slots : c.first = false → ∀ i, i ≤ min c.size 127 → Ring.get d.ring i = Ring.get c.ring i
  reference : c.first = false → d.refValue = Ring.get c.ring c.size
  bound : ∀ sel, c.prevLz = some sel → d.curLz = some (bucket sel)
  bitCursor : d.bsRpos = c.bsWpos
  selCursor : d.lzCursor = c.lzbCount
  recordCursor : d.pdCursor = c.pdbCount

/-- A decompressor unit's memories hold at least what a compressor unit has written so far, and its lengths reach that
far. -/
structure Carries (d : Dec) (c : Cmp) : Prop where
  bits : ∀ a x, c.bs.read a = some x → d.bs.read a = some x
  sels : ∀ a x, c.lzb.read a = some x → d.lza.read a = some x
  records : ∀ a x, c.pdb.read a = some x → d.pda.read a = some x
  bitLength : c.bsWpos ≤ d.bsLen
  selLength : c.lzbCount ≤ d.lzLen
  recordLength : c.pdbCount ≤ d.pdLen
  layout : d.params.layout = c.params.layout

end Sys2Proof.Machine
end

