-- ==== Sys2Proof/Certificates/Slice0/Obligations.lean ====
section
/-! DEFINITION. The statements for the provers. OBLIGATIONS.json lists them. -/

open Sys2Proof Sys2Proof.Machine

/-! ### Encodings (30_encoding.md) -/

/-- R91: the `op` and `value` fields of a compressor unit's command word. -/
def Obligations.CommandWordsOfCompressor : Prop :=
  ∀ (op : BitVec 2) (value : Word),
    decodeCmdc (op ++ value) =
      if op = 0 then .cinit else if op = 1 then .store value else if op = 2 then .flush else .cmdcReserved

/-- R92: the `op` and `flag` fields of a decompressor unit's command word; in a FRESH unit `LOAD` ignores its flag. -/
def Obligations.CommandWordsOfDecompressor : Prop :=
  (∀ (op : BitVec 2) (flag : BitVec 8),
    decodeCmdd (op ++ flag) =
      if op = 0 then .dinit else if op = 1 then .load flag else if op = 2 then .cmddReserved2 else .cmddReserved3) ∧
  (∀ (s : State) (d : Dec) (flag flag' : BitVec 8), AtDec s d → d.first = true →
    exec (.load flag) s = exec (.load flag') s)

/-- Words written out from R91, R92, R94 and R100 decode to the instructions they stand for. -/
def Obligations.HandWrittenWordsDecode : Prop :=
  decodeBytes .cmdc [0, 0, 0, 0, 0, 0, 0xF0, 0x3F, 1] = .ok (.store 0x3FF0000000000000) ∧
  decodeBytes .cmdc [0, 0, 0, 0, 0, 0, 0, 0, 2] = .ok .flush ∧
  decodeBytes .cmdd [3, 1] = .ok (.load 3) ∧
  decodeBytes .cmdd [0, 3] = .ok .cmddReserved3 ∧
  decodeBytes (.record false) [1] = .ok .recTrail ∧
  decodeBytes .pd16 [0xD4, 0x01] = .ok (.pdrec 0x01D4) ∧
  decodeBytes .cmdd [0, 4] = .error .excessBits

/-- Decoding the encoding of a well-formed instruction gives it back, every operand at every value. -/
def Obligations.DecodeOfEncode : Prop :=
  ∀ i : Instr, i.wf = true → decodeBytes (formatOf i) (encode i) = .ok i

/-- What the decoder answers is well-formed and its encoding decodes to it again in the format it was read in. -/
def Obligations.DecodedInstructionsAreWellFormed : Prop :=
  ∀ (f : Format) (bs : List Byte) (i : Instr), decodeBytes f bs = .ok i →
    i.wf = true ∧ formatOf i = f ∧ decodeBytes f (encode i) = .ok i

/-! ### Steps -/

/-- A step runs the decoded instruction: the host's next action is taken out of the inbox, its unit addressed, and the
instruction it carries executed, or, where it carries none, the access made. -/
def Obligations.StepRunsDecodedInstruction : Prop :=
  ∀ (s : State) (k : Nat) (rest : List HostAction),
    (∀ w, s.inbox = .commandC k w :: rest → step s = exec (decodeCmdc w) { s with inbox := rest, unit := k }) ∧
    (∀ w, s.inbox = .commandD k w :: rest → step s = exec (decodeCmdd w) { s with inbox := rest, unit := k }) ∧
    (∀ flag d, s.decs[k]? = some d → s.inbox = .record k flag :: rest →
      step s = exec (decodeRecord d.first flag) { s with inbox := rest, unit := k }) ∧
    (∀ rec, s.inbox = .data k rec :: rest → step s = exec (.pdrec rec) { s with inbox := rest, unit := k }) ∧
    (∀ a, s.inbox = a :: rest → actionInstr s a = none →
      step s = hostAccess a { s with inbox := rest, unit := actionUnit a })

/-- R255: with nothing to do every unit keeps its state. -/
def Obligations.IdleStepHoldsState : Prop :=
  ∀ s : State, s.inbox = [] → step s = .next s

/-- R203 with R202 and R109: a `LOAD` runs the record that `s.first` and its flag select: the first record while
`s.first = 1` whatever the flag, else the record of the flag. -/
def Obligations.LoadRunsSelectedRecord : Prop :=
  (∀ flag, decodeRecord true flag = .recFirst) ∧ decodeRecord false 0 = .recIdent ∧ decodeRecord false 1 = .recTrail ∧
  decodeRecord false 2 = .recLzeq ∧ decodeRecord false 3 = .recLzload ∧
  (∀ flag : BitVec 8, 4 ≤ flag.toNat → decodeRecord false flag = .recCorrupt flag) ∧
  ∀ (s : State) (d : Dec) (flag : BitVec 8), AtDec s d →
    exec (.load flag) s = exec (decodeRecord d.first flag) s

/-- The model's choice (log 8): a record with a flag is the `LOAD` of that flag in every state; the FIRST record, which has
no flag, is the `LOAD` of any flag in a FRESH unit and cannot be asked for in an ACTIVE one. -/
def Obligations.RecordsAreLoadsOfTheirFlag : Prop :=
  (∀ s : State, exec .recIdent s = exec (.load 0) s ∧ exec .recTrail s = exec (.load 1) s ∧
    exec .recLzeq s = exec (.load 2) s ∧ exec .recLzload s = exec (.load 3) s ∧
    ∀ flag : BitVec 8, 4 ≤ flag.toNat → exec (.recCorrupt flag) s = exec (.load flag) s) ∧
  ∀ (s : State) (d : Dec), AtDec s d → d.fault = false →
    (d.first = true → ∀ flag, exec .recFirst s = exec (.load flag) s) ∧
    (d.first = false → exec .recFirst s = .refused .recordNotSelected)

/-- The packed record is "a data format, not an operation" (R109). -/
def Obligations.PackedRecordIsNoOperation : Prop :=
  ∀ (rec : BitVec 16) (s : State), exec (.pdrec rec) s = .refused .dataFormat

/-! ### Bit counts, buckets, keys, records (40_ring.md R122; 41_buffers_and_tables.md) -/

/-- R140 and R141: `clz64` and `ctz64`, the bits from the highest or lowest set bit outwards; 64 for 0. -/
def Obligations.ZeroCounts : Prop :=
  clz64 0 = 64 ∧ ctz64 0 = 64 ∧ ∀ v : Word, v ≠ 0 →
    (clz64 v ≤ 63 ∧ v.getLsbD (63 - clz64 v) = true ∧ ∀ i, 63 - clz64 v < i → v.getLsbD i = false) ∧
    (ctz64 v ≤ 63 ∧ v.getLsbD (ctz64 v) = true ∧ ∀ i, i < ctz64 v → v.getLsbD i = false)

/-- R142 and R143: the levels, and `BucketSel(c)` the largest selector whose bound does not exceed `c`. With R144: the bits
of a value above its bucket bound are all zero. -/
def Obligations.BucketSelectsLowerBound : Prop :=
  (List.finRange 8).map (fun i => bucket (BitVec.ofFin i)) = [0, 8, 12, 16, 18, 20, 22, 24] ∧
  (∀ c, c ≤ 63 → bucket (bucketSel c) ≤ c ∧ ∀ sel : BitVec 3, bucket sel ≤ c → sel.toNat ≤ (bucketSel c).toNat) ∧
  (∀ c c', c ≤ c' → (bucketSel c).toNat ≤ (bucketSel c').toNat) ∧
  ∀ x : Word, x ≠ 0 → bucket (bucketSel (clz64 x)) ≤ clz64 x ∧ x.toNat < 2 ^ (64 - bucket (bucketSel (clz64 x)))

/-- R145: the significant bits of a TRAILING_EXCEEDS_THRESHOLD field, and that the field holds all of the XOR result. -/
def Obligations.SignificantBitsRange : Prop :=
  ∀ x : Word, x ≠ 0 → 14 ≤ ctz64 x →
    1 ≤ trailSig x ∧ trailSig x ≤ 50 ∧ trailSig x + bucket (bucketSel (clz64 x)) + ctz64 x = 64 ∧
    (x >>> ctz64 x).toNat < 2 ^ trailSig x ∧ (x >>> ctz64 x) <<< ctz64 x = x

/-- R148: the packed record's round trips, in both layouts; an index from 128 to 255 loses its bias. -/
def Obligations.PackedRecordRoundTrip : Prop :=
  ∀ layout : Layout,
    (∀ (i : Nat) (sel : BitVec 3) (sig : BitVec 6), i < 256 →
      unpackRecord layout (packRecord layout i sel sig) = (BitVec.ofNat 7 (i % 128), sel, sig)) ∧
    (∀ rec : BitVec 16,
      packRecord layout (unpackRecord layout rec).1.toNat (unpackRecord layout rec).2.1 (unpackRecord layout rec).2.2
        = rec)

/-- R122: a key depends on the high-order bits alone, and the default key is `v[63:50]`. -/
def Obligations.KeyDependsOnHighBits : Prop :=
  (∀ (bits : Nat) (entries : List Nat) (v w : Word), 1 ≤ bits → bits ≤ 64 → v >>> (64 - bits) = w >>> (64 - bits) →
    keyOf (.high bits) v = keyOf (.high bits) w ∧ keyOf (.table bits entries) v = keyOf (.table bits entries) w) ∧
  ∀ v : Word, keyOf CmpParams.default.key v = (v.extractLsb' 50 14).toNat

/-! ### The ring (40_ring.md) -/

/-- R121: `Insert` writes slot 0 and leaves the counter for the first value, else advances the counter and writes the slot
of the new count; no other slot changes. In both units. -/
def Obligations.InsertWritesNewestSlot : Prop :=
  (∀ (c : Cmp) (v : Word),
    (c.insert v).size = (if c.first = true then c.size else c.size + 1) ∧
    ∀ i, i < 128 → Ring.get (c.insert v).ring i =
      if i = (if c.first = true then 0 else (c.size + 1) % 128) then v else Ring.get c.ring i) ∧
  (∀ (d : Dec) (v : Word),
    (d.insert v).size = (if d.first = true then d.size else d.size + 1) ∧
    ∀ i, i < 128 → Ring.get (d.insert v).ring i =
      if i = (if d.first = true then 0 else (d.size + 1) % 128) then v else Ring.get d.ring i)

/-- R123: `IndexOf` gives the newest live entry with the key, or nothing when no live entry has it. -/
def Obligations.IndexOfFindsNewestLive : Prop :=
  ∀ (c : Cmp) (k : Nat),
    (c.first = true → c.indexOf k = none) ∧
    (c.first = false → ∀ i, c.indexOf k = some i ↔
      (i ≤ c.size ∧ c.size - 127 ≤ i ∧ keyOf c.params.key (Ring.get c.ring i) = k ∧
        ∀ j, i < j → j ≤ c.size → keyOf c.params.key (Ring.get c.ring j) ≠ k)) ∧
    (c.first = false → (c.indexOf k = none ↔
      ∀ j, c.size - 127 ≤ j → j ≤ c.size → keyOf c.params.key (Ring.get c.ring j) ≠ k))

/-- R125: `Value` reads a valid slot and faults on another. -/
def Obligations.ValueReadsValidSlots : Prop :=
  ∀ (d : Dec) (slot : Nat),
    d.value slot =
      if d.first = true ∨ min d.size 127 < slot % 128 then .error (.ringIndexOutOfRange (slot % 128))
      else .ok (Ring.get d.ring (slot % 128))

/-! ### The Bit Stream (20_memory.md R63; 41_buffers_and_tables.md R150 to R153) -/

/-- R149 and R150: each append writes at its count or position and advances it, and changes nothing else: one element of a
side buffer; for `BSWrite(v, n)`, `v[n-1-j]` at stream bit `s.bs_wpos + j`. In measurement mode only the count moves. -/
def Obligations.AppendsWriteAtTheCount : Prop :=
  (∀ (c : Cmp) (v : Word) (n : Nat), 1 ≤ n → n ≤ 64 →
    ∃ m, c.bsWrite v n = { c with bs := m, bsWpos := c.bsWpos + n } ∧
      (c.measure = true → m = c.bs) ∧
      (c.measure = false →
        (∀ j, j < n → Memory.read m (c.bsWpos + j) = some (BitVec.ofBool (v.getLsbD (n - 1 - j)))) ∧
        ∀ a, a < c.bsWpos ∨ c.bsWpos + n ≤ a → Memory.read m a = Memory.read c.bs a)) ∧
  (∀ (c : Cmp) (flag : BitVec 2), ∃ m, c.fbAppend flag = { c with fb := m, fbCount := c.fbCount + 1 } ∧
    (c.measure = true → m = c.fb) ∧
    (c.measure = false → ∀ a, Memory.read m a = if a = c.fbCount then some flag else Memory.read c.fb a)) ∧
  (∀ (c : Cmp) (sel : BitVec 3), ∃ m, c.lzbAppend sel = { c with lzb := m, lzbCount := c.lzbCount + 1 } ∧
    (c.measure = true → m = c.lzb) ∧
    (c.measure = false → ∀ a, Memory.read m a = if a = c.lzbCount then some sel else Memory.read c.lzb a)) ∧
  (∀ (c : Cmp) (rec : BitVec 16), ∃ m, c.pdbAppend rec = { c with pdb := m, pdbCount := c.pdbCount + 1 } ∧
    (c.measure = true → m = c.pdb) ∧
    (c.measure = false → ∀ a, Memory.read m a = if a = c.pdbCount then some rec else Memory.read c.pdb a))

/-- R153: fields of 1 to 64 bits written one after the other and read in the same order come back, each cut to its
width. -/
def Obligations.FieldsReadBackInOrder : Prop :=
  ∀ (fields : List (Word × Nat)) (c : Cmp) (d : Dec),
    (∀ f ∈ fields, 1 ≤ f.2 ∧ f.2 ≤ 64) → c.measure = false → d.bsRpos = c.bsWpos →
    (∀ a x, Memory.read (fields.foldl (fun c f => c.bsWrite f.1 f.2) c).bs a = some x → Memory.read d.bs a = some x) →
    (fields.foldl (fun c f => c.bsWrite f.1 f.2) c).bsWpos ≤ d.bsLen →
    d.bsReadAll (fields.map Prod.snd) =
      .ok (fields.map (fun f => BitVec.ofNat 64 (f.1.toNat % 2 ^ f.2)),
        { d with bsRpos := (fields.foldl (fun c f => c.bsWrite f.1 f.2) c).bsWpos })

/-- R64: stream bit `k` of an image is bit `7 - (k mod 8)` of byte `k div 8`, for elements of any width laid end to end;
the bits past the end are zero. -/
def Obligations.ByteImageIsMsbFirst : Prop :=
  ∀ (w n : Nat) (elem : Nat → BitVec w), 1 ≤ w →
    (byteImage n elem).length = (w * n + 7) / 8 ∧
    ∀ k b, (byteImage n elem)[k / 8]? = some b →
      b.getLsbD (7 - k % 8) = (decide (k < w * n) && (elem (k / w)).getLsbD (w - 1 - k % w))

/-! ### The compressor unit (42_compressor.md) -/

/-- R171: `CINIT`, in every condition. The ring's contents are no longer defined: some ring, some source of free values.
Everything not named (`C_CONFIG`, the parameters) is unchanged. -/
def Obligations.CinitStartsStream : Prop :=
  ∀ (s : State) (c : Cmp), AtCmp s c → ∃ (ring : Ring) (src : Config.Source),
    exec .cinit s = .next (s.setCmp
      { c with
        first := true, size := 0, prevLz := none, flushed := false, fault := false, cause := 0
        measure := c.config.getLsbD 0
        fb := [], fbCount := 0, lzb := [], lzbCount := 0, pdb := [], pdbCount := 0, bs := [], bsWpos := 0
        ring := ring, src := src }) ∧
    (c.config = 0 → cmpStatus c.init = 1)

/-- R175 with R174 and R177: which entry is the reference, and whether the threshold was passed. -/
def Obligations.ReferenceSelection : Prop :=
  ∀ (c : Cmp) (v : Word),
    (∀ m, c.indexOf (keyOf c.params.key v) = some m → 13 < ctz64 (v ^^^ Ring.get c.ring m) →
      c.reference v = (m % 128, true)) ∧
    (∀ m, c.indexOf (keyOf c.params.key v) = some m → ctz64 (v ^^^ Ring.get c.ring m) ≤ 13 →
      c.reference v = (c.size % 128, false)) ∧
    (c.indexOf (keyOf c.params.key v) = none → c.reference v = (c.size % 128, false)) ∧
    c.xorResult v = v ^^^ Ring.get c.ring (c.reference v).1 ∧
    ((c.reference v).2 = true →
      ∃ m, c.indexOf (keyOf c.params.key v) = some m ∧ c.xorResult v = v ^^^ Ring.get c.ring m)

/-- R176: exactly one path, by the XOR result, the threshold and the previous bucket. -/
def Obligations.BranchSelector : Prop :=
  ∀ (x : Word) (exceed : Bool) (prev : Option (BitVec 3)),
    (choosePath x exceed prev = .ident ↔ x = 0) ∧
    (choosePath x exceed prev = .trail ↔ x ≠ 0 ∧ exceed = true) ∧
    (choosePath x exceed prev = .lzeq ↔ x ≠ 0 ∧ exceed = false ∧ prev = some (bucketSel (clz64 x))) ∧
    (choosePath x exceed prev = .lzload ↔ x ≠ 0 ∧ exceed = false ∧ prev ≠ some (bucketSel (clz64 x)))

/-- R173: the first value goes verbatim to the Bit Stream and into slot 0, with no flag. Everything else is unchanged. -/
def Obligations.StoreFirstValue : Prop :=
  ∀ (s : State) (c : Cmp) (v : Word), AtCmp s c → c.fault = false → c.flushed = false → c.first = true →
    ((c.measure = true ∨ exceeds c.params.bsCapBits (c.bsWpos + 64) = false) →
      exec (.store v) s = .next (s.setCmp
        { c with
          bs := if c.measure = true then c.bs else Memory.writeBits c.bs c.bsWpos 64 v
          bsWpos := c.bsWpos + 64
          ring := Ring.put c.ring 0 v
          first := false })) ∧
    (c.measure = false → exceeds c.params.bsCapBits (c.bsWpos + 64) = true →
      exec (.store v) s = .next (s.setCmp (c.raise (.bufferOverflow .bs))))

/-- R178 with R182: VALUE_IDENTICAL. Everything not named is unchanged. -/
def Obligations.StoreIdenticalValue : Prop :=
  ∀ (s : State) (c : Cmp) (v : Word), AtCmp s c → c.fault = false → c.flushed = false → c.first = false →
    c.storePath v = .ident → c.roomFor 7 →
    exec (.store v) s = .next (s.setCmp
      { c with
        bs := if c.measure = true then c.bs
          else Memory.writeBits c.bs c.bsWpos 7 (BitVec.ofNat 64 (c.reference v).1)
        bsWpos := c.bsWpos + 7
        prevLz := none
        fb := if c.measure = true then c.fb else Memory.write c.fb c.fbCount 0
        fbCount := c.fbCount + 1
        ring := Ring.put c.ring (c.size + 1) v
        size := c.size + 1 })

/-- R179 with R182: TRAILING_EXCEEDS_THRESHOLD. Everything not named is unchanged. -/
def Obligations.StoreTrailingExceeds : Prop :=
  ∀ (s : State) (c : Cmp) (v x : Word) (sel : BitVec 3) (sig : Nat),
    AtCmp s c → c.fault = false → c.flushed = false → c.first = false → c.storePath v = .trail →
    x = c.xorResult v → sel = bucketSel (clz64 x) → sig = 64 - bucket sel - ctz64 x →
    c.roomFor sig → (c.measure = true ∨ exceeds c.params.pdbCap (c.pdbCount + 1) = false) →
    exec (.store v) s = .next (s.setCmp
      { c with
        pdb := if c.measure = true then c.pdb
          else Memory.write c.pdb c.pdbCount
            (packRecord c.params.layout (128 + (c.reference v).1) sel (BitVec.ofNat 6 sig))
        pdbCount := c.pdbCount + 1
        bs := if c.measure = true then c.bs else Memory.writeBits c.bs c.bsWpos sig (x >>> ctz64 x)
        bsWpos := c.bsWpos + sig
        prevLz := none
        fb := if c.measure = true then c.fb else Memory.write c.fb c.fbCount 1
        fbCount := c.fbCount + 1
        ring := Ring.put c.ring (c.size + 1) v
        size := c.size + 1 })

/-- R180 with R182: LEADING_ZERO_EQUALITY. Everything not named, `s.prev_lz` included, is unchanged. -/
def Obligations.StoreLeadingZeroEquality : Prop :=
  ∀ (s : State) (c : Cmp) (v x : Word) (sel : BitVec 3),
    AtCmp s c → c.fault = false → c.flushed = false → c.first = false → c.storePath v = .lzeq →
    x = c.xorResult v → sel = bucketSel (clz64 x) → c.roomFor (64 - bucket sel) →
    exec (.store v) s = .next (s.setCmp
      { c with
        bs := if c.measure = true then c.bs else Memory.writeBits c.bs c.bsWpos (64 - bucket sel) x
        bsWpos := c.bsWpos + (64 - bucket sel)
        fb := if c.measure = true then c.fb else Memory.write c.fb c.fbCount 2
        fbCount := c.fbCount + 1
        ring := Ring.put c.ring (c.size + 1) v
        size := c.size + 1 })

/-- R181 with R182: LEADING_ZERO_LOAD. Everything not named is unchanged. -/
def Obligations.StoreLeadingZeroLoad : Prop :=
  ∀ (s : State) (c : Cmp) (v x : Word) (sel : BitVec 3),
    AtCmp s c → c.fault = false → c.flushed = false → c.first = false → c.storePath v = .lzload →
    x = c.xorResult v → sel = bucketSel (clz64 x) → c.roomFor (64 - bucket sel) →
    (c.measure = true ∨ exceeds c.params.lzbCap (c.lzbCount + 1) = false) →
    exec (.store v) s = .next (s.setCmp
      { c with
        lzb := if c.measure = true then c.lzb else Memory.write c.lzb c.lzbCount sel
        lzbCount := c.lzbCount + 1
        bs := if c.measure = true then c.bs else Memory.writeBits c.bs c.bsWpos (64 - bucket sel) x
        bsWpos := c.bsWpos + (64 - bucket sel)
        prevLz := some sel
        fb := if c.measure = true then c.fb else Memory.write c.fb c.fbCount 3
        fbCount := c.fbCount + 1
        ring := Ring.put c.ring (c.size + 1) v
        size := c.size + 1 })

/-- R184: the widths and side entries of each path. -/
def Obligations.FieldWidthsByPath : Prop :=
  ∀ (c : Cmp) (v : Word),
    (c.first = true → (c.emission v).width = 64 ∧ (c.emission v).flag = none ∧ (c.emission v).sel = none ∧
      (c.emission v).packed = none) ∧
    (c.first = false →
      (c.storePath v = .ident → (c.emission v).width = 7 ∧ (c.emission v).flag = some 0 ∧ (c.emission v).sel = none ∧
        (c.emission v).packed = none) ∧
      (c.storePath v = .trail → 1 ≤ (c.emission v).width ∧ (c.emission v).width ≤ 50 ∧ (c.emission v).flag = some 1 ∧
        (c.emission v).sel = none ∧ (c.emission v).packed.isSome = true) ∧
      (c.storePath v = .lzeq → (c.emission v).flag = some 2 ∧ (c.emission v).sel = none ∧ (c.emission v).packed = none ∧
        (c.emission v).width = 64 - bucket (bucketSel (clz64 (c.xorResult v)))) ∧
      (c.storePath v = .lzload → (c.emission v).flag = some 3 ∧ (c.emission v).packed = none ∧
        (c.emission v).sel = some (bucketSel (clz64 (c.xorResult v))) ∧
        (c.emission v).width = 64 - bucket (bucketSel (clz64 (c.xorResult v)))))

/-- R185: in measurement mode a `STORE` or a `FLUSH` changes the counts, the ring, `s.prev_lz` and `s.first` exactly as a
unit of unbounded capacities does, and writes no region. -/
def Obligations.MeasurementModeCounts : Prop :=
  ∀ (c real : Cmp) (v : Word), c.measure = true →
    real = { c with
      measure := false
      params := { c.params with bsCapBits := none, fbCap := none, lzbCap := none, pdbCap := none } } →
    c.flushed = false →
    c.store v = { real.store v with
      measure := true, params := c.params, bs := c.bs, fb := c.fb, lzb := c.lzb, pdb := c.pdb } ∧
    c.flush = { real.flush with
      measure := true, params := c.params, bs := c.bs, fb := c.fb, lzb := c.lzb, pdb := c.pdb }

/-- R172: the prologue of `STORE` and its exact capacity check. A FAULTED unit ignores it; on a FLUSHED unit it is illegal
(cause 7); a record that finds no room overflows (cause 8); else the record of its path is committed. -/
def Obligations.StorePrologue : Prop :=
  ∀ (s : State) (c : Cmp) (v : Word), AtCmp s c →
    (c.fault = true → exec (.store v) s = .next s) ∧
    (c.fault = false → c.flushed = true →
      exec (.store v) s = .next (s.setCmp (c.raise (.illegalCommand .store))) ∧
      (c.raise (.illegalCommand .store)).cause = 7) ∧
    (c.fault = false → c.flushed = false → c.lacks (c.emission v) →
      ∃ which, exec (.store v) s = .next (s.setCmp (c.raise (.bufferOverflow which))) ∧
        (c.raise (.bufferOverflow which)).cause = 8) ∧
    (c.fault = false → c.flushed = false → ¬ c.lacks (c.emission v) →
      exec (.store v) s = .next (s.setCmp (c.commit v (c.emission v))) ∧
      (c.commit v (c.emission v)).fault = false)

/-- R186 with R152: `FLUSH` pads the Bit Stream with zero bits to a byte and finishes the stream; a FAULTED unit ignores it;
on a FLUSHED unit it is illegal; without room for the pad bits it overflows. -/
def Obligations.FlushPadsToByte : Prop :=
  ∀ (s : State) (c : Cmp) (pad : Nat), AtCmp s c → pad = (8 - c.bsWpos % 8) % 8 →
    (c.fault = true → exec .flush s = .next s) ∧
    (c.fault = false → c.flushed = true → exec .flush s = .next (s.setCmp (c.raise (.illegalCommand .flush)))) ∧
    (c.fault = false → c.flushed = false → c.measure = false → exceeds c.params.bsCapBits (c.bsWpos + pad) = true →
      exec .flush s = .next (s.setCmp (c.raise (.bufferOverflow .bs)))) ∧
    (c.fault = false → c.flushed = false →
      (c.measure = true ∨ exceeds c.params.bsCapBits (c.bsWpos + pad) = false) →
      (c.bsWpos + pad) % 8 = 0 ∧
      exec .flush s = .next (s.setCmp
        { c with
          bs := if c.measure = true then c.bs else Memory.writeBits c.bs c.bsWpos pad 0
          bsWpos := c.bsWpos + pad
          flushed := true }))

/-- R93 with R238: every reserved command code is an `IllegalCommand` (cause 7) on a unit that is not FAULTED. -/
def Obligations.ReservedCodesAreIllegal : Prop :=
  (∀ value : Word, decodeCmdc ((3 : BitVec 2) ++ value) = .cmdcReserved) ∧
  (∀ flag : BitVec 8, decodeCmdd ((2 : BitVec 2) ++ flag) = .cmddReserved2 ∧
    decodeCmdd ((3 : BitVec 2) ++ flag) = .cmddReserved3) ∧
  (∀ (s : State) (c : Cmp), AtCmp s c → c.fault = false →
    exec .cmdcReserved s = .next (s.setCmp (c.raise (.illegalCommand .reserved))) ∧
    (c.raise (.illegalCommand .reserved)).fault = true ∧ (c.raise (.illegalCommand .reserved)).cause = 7) ∧
  (∀ (s : State) (d : Dec), AtDec s d → d.fault = false →
    exec .cmddReserved2 s = .next (s.setDec (d.raise (.illegalCommand .reserved))) ∧
    exec .cmddReserved3 s = .next (s.setDec (d.raise (.illegalCommand .reserved))) ∧
    (d.raise (.illegalCommand .reserved)).fault = true ∧ (d.raise (.illegalCommand .reserved)).cause = 7)

/-- With unbounded capacities no `STORE` and no `FLUSH` of a stream faults, whatever the values and the key function. -/
def Obligations.UnboundedCompressorNeverFaults : Prop :=
  ∀ (s : State) (c : Cmp) (v : Word), AtCmp s c → c.fault = false → c.flushed = false → c.unbounded →
    ∃ c1 c2, exec (.store v) s = .next (s.setCmp c1) ∧ c1.fault = false ∧ c1.flushed = false ∧ c1.first = false ∧
      exec .flush s = .next (s.setCmp c2) ∧ c2.runComplete

/-- A run of values equal to the newest one is coded as VALUE_IDENTICAL throughout, for every key function: 7 bits and a
flag 0 each. -/
def Obligations.IdenticalRunTakesIdent : Prop :=
  ∀ (n : Nat) (s : State) (c : Cmp) (v : Word), AtCmp s c → c.fault = false → c.flushed = false → c.first = false →
    c.measure = false → c.unbounded → Ring.get c.ring c.size = v →
    ∃ t c1, execAll (List.replicate n (.store v)) s = .next t ∧ AtCmp t c1 ∧ c1.fault = false ∧
      c1.size = c.size + n ∧ c1.bsWpos = c.bsWpos + 7 * n ∧ c1.fbCount = c.fbCount + n ∧
      c1.lzbCount = c.lzbCount ∧ c1.pdbCount = c.pdbCount ∧
      ∀ k, k < n → Memory.read c1.fb (c.fbCount + k) = some 0

/-! ### The decompressor unit (43_decompressor.md) -/

/-- R201: `DINIT`, in every condition. The memories and lengths stay; the ring, `s.ref_value` and `s.result` are no longer
defined: some ring and values, some source of free values. Everything not named is unchanged. -/
def Obligations.DinitStartsStream : Prop :=
  ∀ (s : State) (d : Dec), AtDec s d → ∃ (ring : Ring) (ref result : Word) (src : Config.Source),
    exec .dinit s = .next (s.setDec
      { d with
        first := true, size := 0, curLz := none, curTz := none, fault := false, cause := 0
        lzCursor := 0, pdCursor := 0, bsRpos := 0, resultValid := false
        ring := ring, refValue := ref, result := result, src := src })

/-- R204: the first record, whatever the flag operand: 64 bits, into slot 0. Everything not named is unchanged. -/
def Obligations.LoadFirstRecord : Prop :=
  ∀ (s : State) (d : Dec) (flag : BitVec 8) (r : Word), AtDec s d → d.fault = false → d.first = true →
    r = readField d.bsBit d.bsRpos 64 →
    (d.bsRpos + 64 ≤ d.bsLen → ∀ i ∈ [Instr.load flag, .recFirst], exec i s = .next (s.setDec
      { d with
        bsRpos := d.bsRpos + 64, ring := Ring.put d.ring 0 r, refValue := r, first := false, result := r
        resultValid := true })) ∧
    (d.bsLen < d.bsRpos + 64 → ∀ i ∈ [Instr.load flag, .recFirst],
      exec i s = .next (s.setDec (d.raise (.bitStreamExhausted d.bsRpos))))

/-- R205 with R209 and R243: VALUE_IDENTICAL. Everything not named is unchanged. -/
def Obligations.LoadIdenticalRecord : Prop :=
  ∀ (s : State) (d : Dec) (slot : Nat), AtDec s d → d.fault = false → d.first = false →
    slot = (readField d.bsBit d.bsRpos 7).toNat →
    (d.bsLen < d.bsRpos + 7 → ∀ i ∈ [Instr.load 0, .recIdent],
      exec i s = .next (s.setDec (d.raise (.bitStreamExhausted d.bsRpos)))) ∧
    (d.bsRpos + 7 ≤ d.bsLen → min d.size 127 < slot → ∀ i ∈ [Instr.load 0, .recIdent],
      exec i s = .next (s.setDec (d.raise (.ringIndexOutOfRange slot)))) ∧
    (d.bsRpos + 7 ≤ d.bsLen → slot ≤ min d.size 127 → ∀ i ∈ [Instr.load 0, .recIdent], exec i s = .next (s.setDec
      { d with
        bsRpos := d.bsRpos + 7, refValue := Ring.get d.ring slot
        size := d.size + 1, ring := Ring.put d.ring (d.size + 1) (Ring.get d.ring slot)
        result := Ring.get d.ring slot, resultValid := true }))

/-- R206 with R209 and R243: TRAILING_EXCEEDS_THRESHOLD. Everything not named is unchanged. -/
def Obligations.LoadTrailingRecord : Prop :=
  ∀ (s : State) (d : Dec) (index : BitVec 7) (sel : BitVec 3) (sig : BitVec 6) (tz : Nat) (r : Word),
    AtDec s d → d.fault = false → d.first = false →
    unpackRecord d.params.layout (d.pdaElem d.pdCursor) = (index, sel, sig) →
    tz = 64 - sig.toNat - bucket sel →
    r = (readField d.bsBit d.bsRpos sig.toNat <<< tz) ^^^ Ring.get d.ring index.toNat →
    (d.pdLen ≤ d.pdCursor → ∀ i ∈ [Instr.load 1, .recTrail],
      exec i s = .next (s.setDec (d.raise (.sideBufferExhausted .pda d.pdCursor)))) ∧
    (d.pdCursor < d.pdLen → (sig = 0 ∨ 64 < sig.toNat + bucket sel) → ∀ i ∈ [Instr.load 1, .recTrail],
      exec i s = .next (s.setDec (d.raise (.packedRecordInvalid (d.pdaElem d.pdCursor))))) ∧
    (d.pdCursor < d.pdLen → sig ≠ 0 → sig.toNat + bucket sel ≤ 64 → d.bsLen < d.bsRpos + sig.toNat →
      ∀ i ∈ [Instr.load 1, .recTrail], exec i s = .next (s.setDec (d.raise (.bitStreamExhausted d.bsRpos)))) ∧
    (d.pdCursor < d.pdLen → sig ≠ 0 → sig.toNat + bucket sel ≤ 64 → d.bsRpos + sig.toNat ≤ d.bsLen →
      min d.size 127 < index.toNat →
      ∀ i ∈ [Instr.load 1, .recTrail], exec i s = .next (s.setDec (d.raise (.ringIndexOutOfRange index.toNat)))) ∧
    (d.pdCursor < d.pdLen → sig ≠ 0 → sig.toNat + bucket sel ≤ 64 → d.bsRpos + sig.toNat ≤ d.bsLen →
      index.toNat ≤ min d.size 127 →
      ∀ i ∈ [Instr.load 1, .recTrail], exec i s = .next (s.setDec
        { d with
          pdCursor := d.pdCursor + 1, bsRpos := d.bsRpos + sig.toNat, curLz := some (bucket sel), curTz := some tz
          refValue := r, size := d.size + 1, ring := Ring.put d.ring (d.size + 1) r, result := r
          resultValid := true }))

/-- R207 with R209 and R243: LEADING_ZERO_EQUALITY. Everything not named, `s.cur_lz` included, is unchanged. -/
def Obligations.LoadLeadingZeroEquality : Prop :=
  ∀ (s : State) (d : Dec), AtDec s d → d.fault = false → d.first = false →
    (d.curLz = none → ∀ i ∈ [Instr.load 2, .recLzeq], exec i s = .next (s.setDec (d.raise .leadingZerosUnset))) ∧
    (∀ lz r, d.curLz = some lz → r = readField d.bsBit d.bsRpos (64 - lz) ^^^ d.refValue →
      (d.bsLen < d.bsRpos + (64 - lz) → ∀ i ∈ [Instr.load 2, .recLzeq],
        exec i s = .next (s.setDec (d.raise (.bitStreamExhausted d.bsRpos)))) ∧
      (d.bsRpos + (64 - lz) ≤ d.bsLen → ∀ i ∈ [Instr.load 2, .recLzeq], exec i s = .next (s.setDec
        { d with
          bsRpos := d.bsRpos + (64 - lz), refValue := r, size := d.size + 1, ring := Ring.put d.ring (d.size + 1) r
          result := r, resultValid := true })))

/-- R208 with R209 and R243: LEADING_ZERO_LOAD. Everything not named is unchanged. -/
def Obligations.LoadLeadingZeroLoad : Prop :=
  ∀ (s : State) (d : Dec) (lz : Nat) (r : Word), AtDec s d → d.fault = false → d.first = false →
    lz = bucket (d.lzaElem d.lzCursor) → r = readField d.bsBit d.bsRpos (64 - lz) ^^^ d.refValue →
    (d.lzLen ≤ d.lzCursor → ∀ i ∈ [Instr.load 3, .recLzload],
      exec i s = .next (s.setDec (d.raise (.sideBufferExhausted .lza d.lzCursor)))) ∧
    (d.lzCursor < d.lzLen → d.bsLen < d.bsRpos + (64 - lz) → ∀ i ∈ [Instr.load 3, .recLzload],
      exec i s = .next (s.setDec (d.raise (.bitStreamExhausted d.bsRpos)))) ∧
    (d.lzCursor < d.lzLen → d.bsRpos + (64 - lz) ≤ d.bsLen → ∀ i ∈ [Instr.load 3, .recLzload],
      exec i s = .next (s.setDec
        { d with
          lzCursor := d.lzCursor + 1, curLz := some lz, bsRpos := d.bsRpos + (64 - lz), refValue := r
          size := d.size + 1, ring := Ring.put d.ring (d.size + 1) r, result := r, resultValid := true }))

/-- R232: a flag above 3 on an ACTIVE unit is a `CorruptFlag` (cause 1), with no result; a FRESH unit does not look at its
flag. -/
def Obligations.CorruptFlagIsFatal : Prop :=
  ∀ (s : State) (d : Dec) (flag : BitVec 8), AtDec s d → d.fault = false → 4 ≤ flag.toNat →
    (d.first = false → ∀ i ∈ [Instr.load flag, .recCorrupt flag],
      exec i s = .next (s.setDec (d.raise (.corruptFlag flag))) ∧
      (d.raise (.corruptFlag flag)).fault = true ∧ (d.raise (.corruptFlag flag)).cause = 1 ∧
      (d.raise (.corruptFlag flag)).resultValid = false) ∧
    (d.first = true → exec (.load flag) s = exec .recFirst s)

/-! ### Faults (60_exceptions.md) -/

/-- R240: taking a fault latches its code, by R231's table (the code of each cause, whatever its info), and raises the
unit's `fault` line; what only the host writes (`C_CONFIG`; a
decompressor unit's memories and lengths) is untouched; every other element that the unit writes, and a compressor unit's
regions, become unspecified: some value. -/
def Obligations.RaiseFaultsTheUnit : Prop :=
  ((∀ flag, causeCode (.corruptFlag flag) = 1) ∧ (∀ slot, causeCode (.ringIndexOutOfRange slot) = 2) ∧
    (∀ pos, causeCode (.bitStreamExhausted pos) = 3) ∧
    (∀ array cursor, causeCode (.sideBufferExhausted array cursor) = 4) ∧
    (∀ rec, causeCode (.packedRecordInvalid rec) = 5) ∧ causeCode .leadingZerosUnset = 6 ∧
    (∀ cmd, causeCode (.illegalCommand cmd) = 7) ∧ (∀ which, causeCode (.bufferOverflow which) = 8)) ∧
  (∀ (c : Cmp) (why : Cause), cmpFaultLine (c.raise why) = true ∧
    ∃ (ring : Ring) (size fbCount lzbCount pdbCount bsWpos : Nat) (first flushed measure : Bool)
      (prevLz : Option (BitVec 3)) (fb : Memory 2) (lzb : Memory 3) (pdb : Memory 16) (bs : Memory 1)
      (src : Config.Source),
      c.raise why =
        { c with
          fault := true, cause := causeCode why
          ring := ring, size := size, first := first, prevLz := prevLz, flushed := flushed, measure := measure
          fb := fb, fbCount := fbCount, lzb := lzb, lzbCount := lzbCount, pdb := pdb, pdbCount := pdbCount
          bs := bs, bsWpos := bsWpos, src := src }) ∧
  (∀ (d : Dec) (why : Cause), decFaultLine (d.raise why) = true ∧
    ∃ (ring : Ring) (size lzCursor pdCursor bsRpos : Nat) (first : Bool) (curLz curTz : Option Nat) (ref result : Word)
      (src : Config.Source),
      d.raise why =
        { d with
          fault := true, cause := causeCode why, resultValid := false
          ring := ring, size := size, first := first, refValue := ref, curLz := curLz, curTz := curTz
          lzCursor := lzCursor, pdCursor := pdCursor, bsRpos := bsRpos, result := result, src := src })

/-- R241: a FAULTED unit ignores every command but its initialisation. That it ignores the wire records too is the model's
choice: a record means the `LOAD` of its flag (log 8). -/
def Obligations.FaultedUnitIgnoresCommands : Prop :=
  (∀ (s : State) (c : Cmp) (i : Instr), AtCmp s c → c.fault = true → formatOf i = .cmdc → i ≠ .cinit →
    exec i s = .next s) ∧
  (∀ (s : State) (d : Dec) (i : Instr), AtDec s d → d.fault = true →
    (formatOf i = .cmdd ∨ formatOf i = .record true ∨ formatOf i = .record false) → i ≠ .dinit →
    exec i s = .next s)

/-- R242 with R241: no step takes a unit out of FAULTED but its initialisation and hardware reset, and no step changes the
cause of a unit that stays FAULTED. -/
def Obligations.OnlyInitialisationLeavesFaulted : Prop :=
  (∀ (s t : State) (k : Nat) (c c1 : Cmp), step s = .next t → s.cmps[k]? = some c → t.cmps[k]? = some c1 →
    c.fault = true →
    (c1.fault = true ∧ c1.cause = c.cause) ∨
    (c1.fault = false ∧ c1.cause = 0 ∧ c1.first = true ∧
      ((∃ w rest, s.inbox = .commandC k w :: rest ∧ decodeCmdc w = .cinit) ∨ ∃ rest, s.inbox = .reset :: rest))) ∧
  (∀ (s t : State) (k : Nat) (d d1 : Dec), step s = .next t → s.decs[k]? = some d → t.decs[k]? = some d1 →
    d.fault = true →
    (d1.fault = true ∧ d1.cause = d.cause) ∨
    (d1.fault = false ∧ d1.cause = 0 ∧ d1.first = true ∧
      ((∃ w rest, s.inbox = .commandD k w :: rest ∧ decodeCmdd w = .dinit) ∨ ∃ rest, s.inbox = .reset :: rest)))

/-! ### The host's side (10_state.md R41 to R43; 70_reset_and_hazards.md) -/

/-- R41: the registers of a compressor unit, read and written, while it is not FAULTED and while it is. The model's
choices: a count of more than 64 bits reads as its low 64 (log 7), a read's data goes to `hostData` and a write to a
read-only register answers no next state (log 11). -/
def Obligations.CompressorRegisters : Prop :=
  ∀ (s : State) (c : Cmp) (k : Nat), AtCmp s c →
    (c.fault = false →
      hostAccess (.readReg k 0x00) s = .next { s with hostData :=
        (BitVec.ofBool c.measure ++ (0 : BitVec 1) ++ BitVec.ofBool c.flushed ++ BitVec.ofBool c.first).setWidth 64 } ∧
      hostAccess (.readReg k 0x03) s = .next { s with hostData := BitVec.ofNat 64 c.size } ∧
      hostAccess (.readReg k 0x04) s = .next { s with hostData := BitVec.ofNat 64 c.bsWpos } ∧
      hostAccess (.readReg k 0x05) s = .next { s with hostData := BitVec.ofNat 64 c.fbCount } ∧
      hostAccess (.readReg k 0x06) s = .next { s with hostData := BitVec.ofNat 64 c.lzbCount } ∧
      hostAccess (.readReg k 0x07) s = .next { s with hostData := BitVec.ofNat 64 c.pdbCount }) ∧
    (c.fault = true → ∀ reg ∈ [0x03, 0x04, 0x05, 0x06, 0x07],
      ∃ v, hostAccess (.readReg k reg) s = .next { s with hostData := v }) ∧
    (∃ v, hostAccess (.readReg k 0x00) s = .next { s with hostData := v } ∧ v.getLsbD 2 = c.fault ∧
      ∀ i, 4 ≤ i → v.getLsbD i = false) ∧
    hostAccess (.readReg k 0x01) s = .next { s with hostData := c.cause.setWidth 64 } ∧
    hostAccess (.readReg k 0x02) s = .next { s with hostData := c.config.setWidth 64 } ∧
    (∀ v : Word, hostAccess (.writeReg k 0x02 v) s =
      .next (s.setCmp { c with config := if v.getLsbD 0 = true then 1 else 0 })) ∧
    ∀ (reg : BitVec 8) (v : Word) (t : State), reg.toNat < 0x08 → hostAccess (.writeReg k reg v) s = .next t → reg = 0x02

/-- R42: the registers of a decompressor unit, read and written. The model's choices: a number of more than 64 bits reads
as its low 64 (log 7), a read's data goes to `hostData` and a write to a read-only register answers no next state
(log 11). -/
def Obligations.DecompressorRegisters : Prop :=
  ∀ (s : State) (d : Dec) (k : Nat), AtDec s d →
    (d.fault = false →
      hostAccess (.readReg k 0x10) s = .next { s with hostData :=
        (BitVec.ofBool d.resultValid ++ (0 : BitVec 3) ++ BitVec.ofBool d.first).setWidth 64 } ∧
      (d.resultValid = true → hostAccess (.readReg k 0x12) s = .next { s with hostData := d.result }) ∧
      hostAccess (.readReg k 0x13) s = .next { s with hostData := BitVec.ofNat 64 d.size } ∧
      hostAccess (.readReg k 0x14) s = .next { s with hostData := BitVec.ofNat 64 d.bsRpos } ∧
      hostAccess (.readReg k 0x16) s = .next { s with hostData := BitVec.ofNat 64 d.lzCursor } ∧
      hostAccess (.readReg k 0x18) s = .next { s with hostData := BitVec.ofNat 64 d.pdCursor }) ∧
    (d.resultValid = false → ∃ v, hostAccess (.readReg k 0x12) s = .next { s with hostData := v }) ∧
    (d.fault = true → ∀ reg ∈ [0x12, 0x13, 0x14, 0x16, 0x18],
      ∃ v, hostAccess (.readReg k reg) s = .next { s with hostData := v }) ∧
    (∃ v, hostAccess (.readReg k 0x10) s = .next { s with hostData := v } ∧ v.getLsbD 2 = d.fault ∧
      v.getLsbD 4 = d.resultValid ∧ v.getLsbD 1 = false ∧ v.getLsbD 3 = false ∧ ∀ i, 5 ≤ i → v.getLsbD i = false) ∧
    hostAccess (.readReg k 0x11) s = .next { s with hostData := d.cause.setWidth 64 } ∧
    hostAccess (.readReg k 0x15) s = .next { s with hostData := BitVec.ofNat 64 d.bsLen } ∧
    hostAccess (.readReg k 0x17) s = .next { s with hostData := BitVec.ofNat 64 d.lzLen } ∧
    hostAccess (.readReg k 0x19) s = .next { s with hostData := BitVec.ofNat 64 d.pdLen } ∧
    (∀ (reg : BitVec 8) (v : Word) (t : State), 0x10 ≤ reg.toNat → reg.toNat < 0x1A →
      hostAccess (.writeReg k reg v) s = .next t → 0x15 ≤ reg.toNat) ∧
    ∀ v : Word,
      hostAccess (.writeReg k 0x15 v) s = .next (s.setDec { d with bsLen := v.toNat }) ∧
      hostAccess (.writeReg k 0x16 v) s = .next (s.setDec { d with lzCursor := v.toNat }) ∧
      hostAccess (.writeReg k 0x17 v) s = .next (s.setDec { d with lzLen := v.toNat }) ∧
      hostAccess (.writeReg k 0x18 v) s = .next (s.setDec { d with pdCursor := v.toNat }) ∧
      hostAccess (.writeReg k 0x19 v) s = .next (s.setDec { d with pdLen := v.toNat })

/-- The host's side of R60 with R43: a host write of a decompressor unit's memory stores the low bits of its datum at the
element addressed and changes no other element and nothing else of the unit; a host read changes no unit. The model's
choices: that a datum wider than the element is cut to its low bits (log 20), and that a read's data goes to `hostData`
(log 11). -/
def Obligations.HostAccessFrames : Prop :=
  (∀ (s : State) (d : Dec) (k a : Nat) (v : BitVec 16), AtDec s d →
    (∃ m, hostAccess (.writeSpace k .bs a v) s = .next (s.setDec { d with bs := m }) ∧
      ∀ b, Memory.read m b = if b = a then some (v.setWidth 1) else Memory.read d.bs b) ∧
    (∃ m, hostAccess (.writeSpace k .lza a v) s = .next (s.setDec { d with lza := m }) ∧
      ∀ b, Memory.read m b = if b = a then some (v.setWidth 3) else Memory.read d.lza b) ∧
    (∃ m, hostAccess (.writeSpace k .pda a v) s = .next (s.setDec { d with pda := m }) ∧
      ∀ b, Memory.read m b = if b = a then some v else Memory.read d.pda b)) ∧
  ∀ (s t : State) (k addr : Nat) (reg : BitVec 8) (region : CmpRegion),
    (hostAccess (.readReg k reg) s = .next t ∨ hostAccess (.readRegion k region addr) s = .next t) →
    ∃ data, t = { s with hostData := data }

/-- R270 with R76: a host reads the Bit Stream only after `FLUSH`, and then each bit that the unit wrote; the side buffers
are visible at once. -/
def Obligations.BitStreamReadAfterFlush : Prop :=
  ∀ (s : State) (c : Cmp) (k addr : Nat), AtCmp s c → c.fault = false →
    (c.flushed = false → hostAccess (.readRegion k .bs addr) s = .refused .readBeforeFlush) ∧
    (∀ x, c.flushed = true → c.measure = false → addr < c.bsWpos → Memory.read c.bs addr = some x →
      hostAccess (.readRegion k .bs addr) s = .next { s with hostData := x.setWidth 64 }) ∧
    (∀ x, c.measure = false → addr < c.fbCount → Memory.read c.fb addr = some x →
      hostAccess (.readRegion k .fb addr) s = .next { s with hostData := x.setWidth 64 }) ∧
    (∀ x, c.measure = false → addr < c.lzbCount → Memory.read c.lzb addr = some x →
      hostAccess (.readRegion k .lzb addr) s = .next { s with hostData := x.setWidth 64 }) ∧
    (∀ x, c.measure = false → addr < c.pdbCount → Memory.read c.pdb addr = some x →
      hostAccess (.readRegion k .pdb addr) s = .next { s with hostData := x.setWidth 64 })

/-- R260: hardware reset initialises every unit at once, with `C_CONFIG` and the lengths 0; every unit is then FRESH. -/
def Obligations.HardwareResetFreshensUnits : Prop :=
  ∀ s : State, ∃ t, hostAccess .reset s = .next t ∧ t.cmps.length = s.cmps.length ∧ t.decs.length = s.decs.length ∧
    (∀ (k : Nat) (c : Cmp), s.cmps[k]? = some c → t.cmps[k]? = some (Cmp.init { c with config := 0 })) ∧
    (∀ (k : Nat) (d : Dec), s.decs[k]? = some d → ∃ (bs : Memory 1) (lza : Memory 3) (pda : Memory 16) (src : Config.Source),
      t.decs[k]? = some (Dec.init
        { d with bs := bs, bsLen := 0, lza := lza, lzLen := 0, pda := pda, pdLen := 0, memSrc := src })) ∧
    (∀ c ∈ t.cmps, cmpCondition c = .fresh ∧ c.config = 0 ∧ cmpFaultLine c = false) ∧
    (∀ d ∈ t.decs, decCondition d = .fresh ∧ d.bsLen = 0 ∧ d.lzLen = 0 ∧ d.pdLen = 0 ∧ decFaultLine d = false)

/-- R47: the values that reset, `CINIT` and `DINIT` leave, where the spec gives one. -/
def Obligations.ResetValues : Prop :=
  (∀ c : Cmp, (c ∈ State.reset.cmps ∨ ∃ b : Cmp, c = b.init) →
    c.size = 0 ∧ c.first = true ∧ c.prevLz = none ∧ c.flushed = false ∧ c.fault = false ∧ c.cause = 0 ∧
    c.fbCount = 0 ∧ c.lzbCount = 0 ∧ c.pdbCount = 0 ∧ c.bsWpos = 0 ∧ c.fb = [] ∧ c.lzb = [] ∧ c.pdb = [] ∧ c.bs = [] ∧
    ∀ i, slotValid c.first c.size i = false) ∧
  (∀ c ∈ State.reset.cmps, c.measure = false ∧ c.config = 0) ∧
  (∀ b : Cmp, b.init.measure = b.config.getLsbD 0 ∧ b.init.config = b.config) ∧
  (∀ d : Dec, (d ∈ State.reset.decs ∨ ∃ b : Dec, d = b.init) →
    d.size = 0 ∧ d.first = true ∧ d.fault = false ∧ d.cause = 0 ∧ d.curLz = none ∧ d.curTz = none ∧
    d.lzCursor = 0 ∧ d.pdCursor = 0 ∧ d.bsRpos = 0 ∧ d.resultValid = false ∧
    ∀ i, slotValid d.first d.size i = false) ∧
  (∀ d ∈ State.reset.decs, d.bsLen = 0 ∧ d.lzLen = 0 ∧ d.pdLen = 0) ∧
  (∀ b : Dec, b.init.bsLen = b.bsLen ∧ b.init.lzLen = b.lzLen ∧ b.init.pdLen = b.pdLen ∧ b.init.bs = b.bs ∧
    b.init.lza = b.lza ∧ b.init.pda = b.pda)

/-! ### Units, parameters, invariants -/

/-- R73 with R20: an instruction's effect on the unit it reaches is the same whatever the other units hold; it changes no
other unit, no unit of the other kind, and neither the inbox, the host's data nor the addressed unit. -/
def Obligations.UnitsAreIndependent : Prop :=
  (∀ (i : Instr) (s t : State), exec i s = .next t →
    (∀ k, k ≠ s.unit → t.cmps[k]? = s.cmps[k]? ∧ t.decs[k]? = s.decs[k]?) ∧
    t.inbox = s.inbox ∧ t.hostData = s.hostData ∧ t.unit = s.unit ∧
    ((formatOf i = .cmdc ∧ t.decs = s.decs) ∨ (formatOf i ≠ .cmdc ∧ t.cmps = s.cmps))) ∧
  (∀ (i : Instr) (s s' t : State), s'.unit = s.unit → s'.cmps[s.unit]? = s.cmps[s.unit]? →
    s'.decs[s.unit]? = s.decs[s.unit]? → exec i s = .next t →
    ∃ t', exec i s' = .next t' ∧ t'.cmps[s.unit]? = t.cmps[s.unit]? ∧ t'.decs[s.unit]? = t.decs[s.unit]?)

/-- No step changes the number of units or a build parameter (00_scope.md R7). -/
def Obligations.ParametersNeverChange : Prop :=
  ∀ s t : State, step s = .next t →
    t.cmps.map Cmp.params = s.cmps.map Cmp.params ∧ t.decs.map Dec.params = s.decs.map Dec.params

/-- The invariant holds right after reset. -/
def Obligations.ResetMeetsInvariant : Prop :=
  State.reset.Inv

/-- Every step from a state that meets the invariant gives a state that meets it. -/
def Obligations.StepKeepsInvariant : Prop :=
  ∀ s t : State, s.Inv → step s = .next t → t.Inv

/-- What a compressor unit holds after `CINIT` and any sequence of `STORE`s that did not fault (R48 (a) to (f)). -/
def Obligations.CompressorStateAfterStores : Prop :=
  ∀ (s t : State) (c c1 : Cmp) (vs : List Word), AtCmp s c →
    execAll (.cinit :: vs.map Instr.store) s = .next t → AtCmp t c1 → c1.fault = false →
    (c1.first = true ↔ vs = []) ∧
    (vs ≠ [] → c1.size + 1 = vs.length ∧ c1.fbCount + 1 = vs.length) ∧
    (∀ j w, j ≤ 127 → vs.reverse[j]? = some w → Ring.get c1.ring (c1.size - j) = w) ∧
    (vs.length ≤ 1 → c1.prevLz = none) ∧
    (vs = [] → c1.bsWpos = 0) ∧
    (c1.measure = false →
      c1.lzbCount = Memory.tally c1.fb c1.fbCount 3 ∧ c1.pdbCount = Memory.tally c1.fb c1.fbCount 1 ∧
      (∀ n, c1.fbCount = n + 1 →
        (c1.prevLz.isSome = true ↔ Memory.read c1.fb n = some 2 ∨ Memory.read c1.fb n = some 3)) ∧
      (vs ≠ [] → c1.bsWpos =
        64 + fieldBits c1.params.layout c1.stream.flags c1.stream.sels c1.stream.records 0))

/-- What a decompressor unit holds after `DINIT` and any sequence of `LOAD`s that did not fault (R48 (a), (b), (d)). -/
def Obligations.DecompressorStateAfterLoads : Prop :=
  ∀ (s t : State) (d d1 : Dec) (flags : List (BitVec 8)), AtDec s d →
    execAll (.dinit :: flags.map Instr.load) s = .next t → AtDec t d1 → d1.fault = false →
    (d1.first = true ↔ flags = []) ∧
    (flags ≠ [] → d1.size + 1 = flags.length) ∧
    (∀ j, j ≤ 127 → j < flags.length → ∃ u d2,
      execAll (.dinit :: (flags.take (flags.length - j)).map Instr.load) s = .next u ∧ AtDec u d2 ∧
      d2.fault = false ∧ d2.resultValid = true ∧ Ring.get d1.ring (d1.size - j) = d2.result)

/-- R191's proof invariant, one value at a time: from units in step, a `STORE` that does not fault and the `LOAD` of the
flag it appended give the value back and leave the units in step, for every key function and both layouts. -/
def Obligations.StoreAndLoadStayInStep : Prop :=
  ∀ (s : State) (c c1 : Cmp) (d : Dec) (v : Word) (flag : BitVec 8),
    AtCmp s c → AtDec s d → InStep c d → c.flushed = false → c.measure = false →
    exec (.store v) s = .next (s.setCmp c1) → c1.fault = false → Carries d c1 →
    (c.first = false → flag.toNat < 4 ∧ Memory.read c1.fb c.fbCount = some (flag.setWidth 2)) →
    ∃ d1, exec (.load flag) s = .next (s.setDec d1) ∧ d1.fault = false ∧ d1.resultValid = true ∧ d1.result = v ∧
      InStep c1 d1

/-- R191: the round trip. Any values (at least one), encoded by a compressor unit of unbounded capacities and any key
function, transferred and decoded with the flags it produced, come back one by one and no `LOAD` faults; after each the two
units stand at the same point of the stream (the rule's proof invariant). -/
def Obligations.RoundTrip : Prop :=
  ∀ (s : State) (c : Cmp) (d : Dec) (v : Word) (vs : List Word) (first : BitVec 8),
    AtCmp s c → AtDec s d → c.config.getLsbD 0 = false → c.unbounded → d.params.layout = c.params.layout →
    ∃ t c1, execAll (encodeCommands (v :: vs)) s = .next t ∧ AtCmp t c1 ∧ c1.runComplete ∧
      c1.stream.flags.length = vs.length ∧
      ∀ n w, (v :: vs)[n]? = some w →
        ∃ p c2 u d1, execAll (.cinit :: ((v :: vs).take (n + 1)).map Instr.store) s = .next p ∧ AtCmp p c2 ∧
          execAll ((decodeCommands first c1.stream.flags).take (n + 2)) (transfer t) = .next u ∧ AtDec u d1 ∧
          d1.fault = false ∧ d1.resultValid = true ∧ d1.result = w ∧ InStep c2 d1
end

