-- ==== Sys2Proof/Laws/Memory.lean ====
section
/-! SUPPORT. What a memory operation does, once for each: reads after writes, and the canonical form kept. -/

namespace Sys2Proof.Machine

variable {w : Nat}

@[simp] theorem Memory.read_nil (a : Nat) : Memory.read ([] : Memory w) a = none := rfl

/-- A read after a write: the value written at the address written, elsewhere what was there. -/
theorem Memory.read_write (m : Memory w) (a b : Nat) (v : BitVec w) :
    Memory.read (Memory.write m a v) b = if b = a then some v else Memory.read m b := by
  induction m with
  | nil => simp [Memory.write, Memory.read]
  | cons p r ih =>
    obtain ⟨c, x⟩ := p
    simp only [Memory.write]
    split
    · simp only [Memory.read]
    · split
      · rename_i h; subst h
        simp only [Memory.read]
        split <;> rfl
      · rename_i h1 h2
        simp only [Memory.read, ih]
        split
        · rename_i h; subst h
          rw [if_neg (fun e => h2 e.symm)]
        · rfl

@[simp] theorem Memory.read_write_self (m : Memory w) (a : Nat) (v : BitVec w) :
    Memory.read (Memory.write m a v) a = some v := by
  rw [Memory.read_write, if_pos rfl]

theorem Memory.read_write_other (m : Memory w) {a b : Nat} (h : b ≠ a) (v : BitVec w) :
    Memory.read (Memory.write m a v) b = Memory.read m b := by
  rw [Memory.read_write, if_neg h]

/-- The addresses of a memory after a write: the old ones and the new one. -/
theorem Memory.mem_write {m : Memory w} {a : Nat} {v : BitVec w} {p : Nat × BitVec w}
    (h : p ∈ Memory.write m a v) : p ∈ m ∨ p = (a, v) := by
  induction m with
  | nil => simpa [Memory.write] using h
  | cons q r ih =>
    obtain ⟨c, x⟩ := q
    simp only [Memory.write] at h
    split at h
    · rcases List.mem_cons.1 h with rfl | h
      · exact .inr rfl
      · exact .inl h
    · split at h
      · rcases List.mem_cons.1 h with rfl | h
        · exact .inr rfl
        · exact .inl (List.mem_cons_of_mem _ h)
      · rcases List.mem_cons.1 h with rfl | h
        · exact .inl (List.mem_cons_self)
        · exact (ih h).imp (List.mem_cons_of_mem _) id

/-- An empty memory is in canonical form. -/
theorem Memory.wf_nil : Memory.wf ([] : Memory w) := List.Pairwise.nil

/-- A write keeps the canonical form. -/
theorem Memory.wf_write {m : Memory w} (h : Memory.wf m) (a : Nat) (v : BitVec w) :
    Memory.wf (Memory.write m a v) := by
  induction m with
  | nil => exact List.pairwise_singleton _ _
  | cons q r ih =>
    obtain ⟨c, x⟩ := q
    obtain ⟨hlt, hr⟩ := List.pairwise_cons.1 h
    simp only [Memory.write]
    split
    · rename_i hac
      refine List.pairwise_cons.2 ⟨fun p hp => ?_, h⟩
      rcases List.mem_cons.1 hp with rfl | hp
      · exact hac
      · exact Nat.lt_trans hac (hlt p hp)
    · split
      · rename_i hac; subst hac
        exact List.pairwise_cons.2 ⟨hlt, hr⟩
      · rename_i h1 h2
        refine List.pairwise_cons.2 ⟨fun p hp => ?_, ih hr⟩
        rcases Memory.mem_write hp with hp | rfl
        · exact hlt p hp
        · show c < a; omega

/-- Writing a field keeps the canonical form. -/
theorem Memory.wf_writeBits {m : Memory 1} (h : Memory.wf m) (pos n : Nat) (v : Word) :
    Memory.wf (Memory.writeBits m pos n v) := by
  induction n generalizing m pos with
  | zero => exact h
  | succ k ih => exact ih (Memory.wf_write h _ _) _

/-- A list laid out from an address on is in canonical form. -/
theorem Memory.mem_ofList_ge {l : List (BitVec w)} {a : Nat} {p : Nat × BitVec w} (h : p ∈ Memory.ofList a l) :
    a ≤ p.1 := by
  induction l generalizing a with
  | nil => simp [Memory.ofList] at h
  | cons x r ih =>
    rcases List.mem_cons.1 h with rfl | h
    · exact Nat.le_refl _
    · exact Nat.le_of_succ_le (ih h)

theorem Memory.wf_ofList (a : Nat) (l : List (BitVec w)) : Memory.wf (Memory.ofList a l) := by
  induction l generalizing a with
  | nil => exact List.Pairwise.nil
  | cons x r ih => exact List.pairwise_cons.2 ⟨fun p hp => Memory.mem_ofList_ge hp, ih (a + 1)⟩

/-- What a list laid out from an address on reads as. -/
theorem Memory.read_ofList (l : List (BitVec w)) (a b : Nat) :
    Memory.read (Memory.ofList a l) b = if b < a then none else l[b - a]? := by
  induction l generalizing a with
  | nil => simp [Memory.ofList]
  | cons x r ih =>
    simp only [Memory.ofList, Memory.read, ih]
    split
    · rename_i h; subst h; simp
    · split
      · rw [if_pos (by omega)]
      · rw [if_neg (by omega), show b - a = (b - (a + 1)) + 1 by omega, List.getElem?_cons_succ]

/-- What a field's write leaves at a stream bit (20_memory.md R63): bit `j` of the field holds `v[n-1-j]`, every other bit
what it held. -/
theorem Memory.read_writeBits (m : Memory 1) (pos n : Nat) (v : Word) (b : Nat) :
    Memory.read (Memory.writeBits m pos n v) b
      = if pos ≤ b ∧ b < pos + n then some (BitVec.ofBool (v.getLsbD (n - 1 - (b - pos)))) else Memory.read m b := by
  induction n generalizing m pos with
  | zero => rw [if_neg (by omega)]; rfl
  | succ k ih =>
    simp only [Memory.writeBits]
    rw [ih, Memory.read_write]
    by_cases h1 : pos + 1 ≤ b ∧ b < pos + 1 + k
    · rw [if_pos h1, if_pos (by omega), show k + 1 - 1 - (b - pos) = k - 1 - (b - (pos + 1)) by omega]
    · rw [if_neg h1]
      by_cases h2 : b = pos
      · subst h2
        rw [if_pos rfl, if_pos (by omega)]
        simp
      · rw [if_neg h2, if_neg (by omega)]

/-- Appending one element to a memory that holds exactly `n`. -/
theorem Memory.fills_write {m : Memory w} {n : Nat} (h : Memory.fills m n) (v : BitVec w) :
    Memory.fills (Memory.write m n v) (n + 1) := by
  intro a
  rw [Memory.read_write]
  split
  · rename_i h1; subst h1; simp
  · rw [h a]; apply decide_eq_decide.2; omega

/-- Appending a field to a stream that holds exactly `n` bits. -/
theorem Memory.fills_writeBits {m : Memory 1} {n : Nat} (h : Memory.fills m n) (k : Nat) (v : Word) :
    Memory.fills (Memory.writeBits m n k v) (n + k) := by
  intro a
  rw [Memory.read_writeBits]
  split
  · rename_i h1; simp [h1.2]
  · rw [h a]; apply decide_eq_decide.2; omega

theorem Memory.fills_nil : Memory.fills ([] : Memory w) 0 := by
  intro a; simp

/-- A tally depends only on the elements it counts. -/
theorem Memory.tally_congr {m m' : Memory w} {n : Nat} (h : ∀ a, a < n → m.read a = m'.read a) (x : BitVec w) :
    Memory.tally m n x = Memory.tally m' n x := by
  induction n with
  | zero => rfl
  | succ k ih =>
    rw [Memory.tally, Memory.tally, ih fun a ha => h a (by omega), h k (by omega)]

/-- The tally after an append. -/
theorem Memory.tally_write (m : Memory w) (n : Nat) (v x : BitVec w) :
    Memory.tally (Memory.write m n v) (n + 1) x = Memory.tally m n x + (if v = x then 1 else 0) := by
  rw [Memory.tally, Memory.read_write_self,
    Memory.tally_congr fun a (ha : a < n) => Memory.read_write_other m (Nat.ne_of_lt ha) v]
  simp

/-- A field read from bits that are all given by one memory depends only on the field's bits. -/
theorem readField_congr {f g : Nat → BitVec 1} {pos n : Nat} (h : ∀ j, j < n → f (pos + j) = g (pos + j)) :
    readField f pos n = readField g pos n := by
  induction n with
  | zero => rfl
  | succ k ih =>
    rw [readField, readField, ih fun j hj => h j (by omega), h k (by omega)]

end Sys2Proof.Machine
end

