-- ==== Sys2Proof/Laws/State.lean ====
section
/-! SUPPORT. One lemma for each field of each record update, true by rfl, so that no proof unfolds an update. -/

namespace Sys2Proof.Machine

/-! ### `State.setCmp` -/

@[simp] theorem State.setCmp_cmps (s : State) (c : Cmp) :
    (s.setCmp c).cmps = s.cmps.set s.unit c := rfl

@[simp] theorem State.setCmp_decs (s : State) (c : Cmp) :
    (s.setCmp c).decs = s.decs := rfl

@[simp] theorem State.setCmp_unit (s : State) (c : Cmp) :
    (s.setCmp c).unit = s.unit := rfl

@[simp] theorem State.setCmp_inbox (s : State) (c : Cmp) :
    (s.setCmp c).inbox = s.inbox := rfl

@[simp] theorem State.setCmp_hostData (s : State) (c : Cmp) :
    (s.setCmp c).hostData = s.hostData := rfl

/-! ### `State.setDec` -/

@[simp] theorem State.setDec_cmps (s : State) (d : Dec) :
    (s.setDec d).cmps = s.cmps := rfl

@[simp] theorem State.setDec_decs (s : State) (d : Dec) :
    (s.setDec d).decs = s.decs.set s.unit d := rfl

@[simp] theorem State.setDec_unit (s : State) (d : Dec) :
    (s.setDec d).unit = s.unit := rfl

@[simp] theorem State.setDec_inbox (s : State) (d : Dec) :
    (s.setDec d).inbox = s.inbox := rfl

@[simp] theorem State.setDec_hostData (s : State) (d : Dec) :
    (s.setDec d).hostData = s.hostData := rfl

/-! ### `accept` -/

@[simp] theorem accept_cmps (s : State) (a : HostAction) (r : List HostAction) :
    (accept s a r).cmps = s.cmps := rfl

@[simp] theorem accept_decs (s : State) (a : HostAction) (r : List HostAction) :
    (accept s a r).decs = s.decs := rfl

@[simp] theorem accept_unit (s : State) (a : HostAction) (r : List HostAction) :
    (accept s a r).unit = actionUnit a := rfl

@[simp] theorem accept_inbox (s : State) (a : HostAction) (r : List HostAction) :
    (accept s a r).inbox = r := rfl

@[simp] theorem accept_hostData (s : State) (a : HostAction) (r : List HostAction) :
    (accept s a r).hostData = s.hostData := rfl

/-! ### `Cmp.bsWrite` -/

@[simp] theorem Cmp.bsWrite_ring (c : Cmp) (v : Word) (n : Nat) :
    (c.bsWrite v n).ring = c.ring := rfl

@[simp] theorem Cmp.bsWrite_size (c : Cmp) (v : Word) (n : Nat) :
    (c.bsWrite v n).size = c.size := rfl

@[simp] theorem Cmp.bsWrite_first (c : Cmp) (v : Word) (n : Nat) :
    (c.bsWrite v n).first = c.first := rfl

@[simp] theorem Cmp.bsWrite_prevLz (c : Cmp) (v : Word) (n : Nat) :
    (c.bsWrite v n).prevLz = c.prevLz := rfl

@[simp] theorem Cmp.bsWrite_flushed (c : Cmp) (v : Word) (n : Nat) :
    (c.bsWrite v n).flushed = c.flushed := rfl

@[simp] theorem Cmp.bsWrite_fault (c : Cmp) (v : Word) (n : Nat) :
    (c.bsWrite v n).fault = c.fault := rfl

@[simp] theorem Cmp.bsWrite_cause (c : Cmp) (v : Word) (n : Nat) :
    (c.bsWrite v n).cause = c.cause := rfl

@[simp] theorem Cmp.bsWrite_measure (c : Cmp) (v : Word) (n : Nat) :
    (c.bsWrite v n).measure = c.measure := rfl

@[simp] theorem Cmp.bsWrite_config (c : Cmp) (v : Word) (n : Nat) :
    (c.bsWrite v n).config = c.config := rfl

@[simp] theorem Cmp.bsWrite_fb (c : Cmp) (v : Word) (n : Nat) :
    (c.bsWrite v n).fb = c.fb := rfl

@[simp] theorem Cmp.bsWrite_fbCount (c : Cmp) (v : Word) (n : Nat) :
    (c.bsWrite v n).fbCount = c.fbCount := rfl

@[simp] theorem Cmp.bsWrite_lzb (c : Cmp) (v : Word) (n : Nat) :
    (c.bsWrite v n).lzb = c.lzb := rfl

@[simp] theorem Cmp.bsWrite_lzbCount (c : Cmp) (v : Word) (n : Nat) :
    (c.bsWrite v n).lzbCount = c.lzbCount := rfl

@[simp] theorem Cmp.bsWrite_pdb (c : Cmp) (v : Word) (n : Nat) :
    (c.bsWrite v n).pdb = c.pdb := rfl

@[simp] theorem Cmp.bsWrite_pdbCount (c : Cmp) (v : Word) (n : Nat) :
    (c.bsWrite v n).pdbCount = c.pdbCount := rfl

@[simp] theorem Cmp.bsWrite_bs (c : Cmp) (v : Word) (n : Nat) :
    (c.bsWrite v n).bs = if c.measure then c.bs else Memory.writeBits c.bs c.bsWpos n v := rfl

@[simp] theorem Cmp.bsWrite_bsWpos (c : Cmp) (v : Word) (n : Nat) :
    (c.bsWrite v n).bsWpos = c.bsWpos + n := rfl

@[simp] theorem Cmp.bsWrite_params (c : Cmp) (v : Word) (n : Nat) :
    (c.bsWrite v n).params = c.params := rfl

@[simp] theorem Cmp.bsWrite_src (c : Cmp) (v : Word) (n : Nat) :
    (c.bsWrite v n).src = c.src := rfl

/-! ### `Cmp.fbAppend` -/

@[simp] theorem Cmp.fbAppend_ring (c : Cmp) (x : BitVec 2) :
    (c.fbAppend x).ring = c.ring := rfl

@[simp] theorem Cmp.fbAppend_size (c : Cmp) (x : BitVec 2) :
    (c.fbAppend x).size = c.size := rfl

@[simp] theorem Cmp.fbAppend_first (c : Cmp) (x : BitVec 2) :
    (c.fbAppend x).first = c.first := rfl

@[simp] theorem Cmp.fbAppend_prevLz (c : Cmp) (x : BitVec 2) :
    (c.fbAppend x).prevLz = c.prevLz := rfl

@[simp] theorem Cmp.fbAppend_flushed (c : Cmp) (x : BitVec 2) :
    (c.fbAppend x).flushed = c.flushed := rfl

@[simp] theorem Cmp.fbAppend_fault (c : Cmp) (x : BitVec 2) :
    (c.fbAppend x).fault = c.fault := rfl

@[simp] theorem Cmp.fbAppend_cause (c : Cmp) (x : BitVec 2) :
    (c.fbAppend x).cause = c.cause := rfl

@[simp] theorem Cmp.fbAppend_measure (c : Cmp) (x : BitVec 2) :
    (c.fbAppend x).measure = c.measure := rfl

@[simp] theorem Cmp.fbAppend_config (c : Cmp) (x : BitVec 2) :
    (c.fbAppend x).config = c.config := rfl

@[simp] theorem Cmp.fbAppend_fb (c : Cmp) (x : BitVec 2) :
    (c.fbAppend x).fb = if c.measure then c.fb else Memory.write c.fb c.fbCount x := rfl

@[simp] theorem Cmp.fbAppend_fbCount (c : Cmp) (x : BitVec 2) :
    (c.fbAppend x).fbCount = c.fbCount + 1 := rfl

@[simp] theorem Cmp.fbAppend_lzb (c : Cmp) (x : BitVec 2) :
    (c.fbAppend x).lzb = c.lzb := rfl

@[simp] theorem Cmp.fbAppend_lzbCount (c : Cmp) (x : BitVec 2) :
    (c.fbAppend x).lzbCount = c.lzbCount := rfl

@[simp] theorem Cmp.fbAppend_pdb (c : Cmp) (x : BitVec 2) :
    (c.fbAppend x).pdb = c.pdb := rfl

@[simp] theorem Cmp.fbAppend_pdbCount (c : Cmp) (x : BitVec 2) :
    (c.fbAppend x).pdbCount = c.pdbCount := rfl

@[simp] theorem Cmp.fbAppend_bs (c : Cmp) (x : BitVec 2) :
    (c.fbAppend x).bs = c.bs := rfl

@[simp] theorem Cmp.fbAppend_bsWpos (c : Cmp) (x : BitVec 2) :
    (c.fbAppend x).bsWpos = c.bsWpos := rfl

@[simp] theorem Cmp.fbAppend_params (c : Cmp) (x : BitVec 2) :
    (c.fbAppend x).params = c.params := rfl

@[simp] theorem Cmp.fbAppend_src (c : Cmp) (x : BitVec 2) :
    (c.fbAppend x).src = c.src := rfl

/-! ### `Cmp.lzbAppend` -/

@[simp] theorem Cmp.lzbAppend_ring (c : Cmp) (x : BitVec 3) :
    (c.lzbAppend x).ring = c.ring := rfl

@[simp] theorem Cmp.lzbAppend_size (c : Cmp) (x : BitVec 3) :
    (c.lzbAppend x).size = c.size := rfl

@[simp] theorem Cmp.lzbAppend_first (c : Cmp) (x : BitVec 3) :
    (c.lzbAppend x).first = c.first := rfl

@[simp] theorem Cmp.lzbAppend_prevLz (c : Cmp) (x : BitVec 3) :
    (c.lzbAppend x).prevLz = c.prevLz := rfl

@[simp] theorem Cmp.lzbAppend_flushed (c : Cmp) (x : BitVec 3) :
    (c.lzbAppend x).flushed = c.flushed := rfl

@[simp] theorem Cmp.lzbAppend_fault (c : Cmp) (x : BitVec 3) :
    (c.lzbAppend x).fault = c.fault := rfl

@[simp] theorem Cmp.lzbAppend_cause (c : Cmp) (x : BitVec 3) :
    (c.lzbAppend x).cause = c.cause := rfl

@[simp] theorem Cmp.lzbAppend_measure (c : Cmp) (x : BitVec 3) :
    (c.lzbAppend x).measure = c.measure := rfl

@[simp] theorem Cmp.lzbAppend_config (c : Cmp) (x : BitVec 3) :
    (c.lzbAppend x).config = c.config := rfl

@[simp] theorem Cmp.lzbAppend_fb (c : Cmp) (x : BitVec 3) :
    (c.lzbAppend x).fb = c.fb := rfl

@[simp] theorem Cmp.lzbAppend_fbCount (c : Cmp) (x : BitVec 3) :
    (c.lzbAppend x).fbCount = c.fbCount := rfl

@[simp] theorem Cmp.lzbAppend_lzb (c : Cmp) (x : BitVec 3) :
    (c.lzbAppend x).lzb = if c.measure then c.lzb else Memory.write c.lzb c.lzbCount x := rfl

@[simp] theorem Cmp.lzbAppend_lzbCount (c : Cmp) (x : BitVec 3) :
    (c.lzbAppend x).lzbCount = c.lzbCount + 1 := rfl

@[simp] theorem Cmp.lzbAppend_pdb (c : Cmp) (x : BitVec 3) :
    (c.lzbAppend x).pdb = c.pdb := rfl

@[simp] theorem Cmp.lzbAppend_pdbCount (c : Cmp) (x : BitVec 3) :
    (c.lzbAppend x).pdbCount = c.pdbCount := rfl

@[simp] theorem Cmp.lzbAppend_bs (c : Cmp) (x : BitVec 3) :
    (c.lzbAppend x).bs = c.bs := rfl

@[simp] theorem Cmp.lzbAppend_bsWpos (c : Cmp) (x : BitVec 3) :
    (c.lzbAppend x).bsWpos = c.bsWpos := rfl

@[simp] theorem Cmp.lzbAppend_params (c : Cmp) (x : BitVec 3) :
    (c.lzbAppend x).params = c.params := rfl

@[simp] theorem Cmp.lzbAppend_src (c : Cmp) (x : BitVec 3) :
    (c.lzbAppend x).src = c.src := rfl

/-! ### `Cmp.pdbAppend` -/

@[simp] theorem Cmp.pdbAppend_ring (c : Cmp) (x : BitVec 16) :
    (c.pdbAppend x).ring = c.ring := rfl

@[simp] theorem Cmp.pdbAppend_size (c : Cmp) (x : BitVec 16) :
    (c.pdbAppend x).size = c.size := rfl

@[simp] theorem Cmp.pdbAppend_first (c : Cmp) (x : BitVec 16) :
    (c.pdbAppend x).first = c.first := rfl

@[simp] theorem Cmp.pdbAppend_prevLz (c : Cmp) (x : BitVec 16) :
    (c.pdbAppend x).prevLz = c.prevLz := rfl

@[simp] theorem Cmp.pdbAppend_flushed (c : Cmp) (x : BitVec 16) :
    (c.pdbAppend x).flushed = c.flushed := rfl

@[simp] theorem Cmp.pdbAppend_fault (c : Cmp) (x : BitVec 16) :
    (c.pdbAppend x).fault = c.fault := rfl

@[simp] theorem Cmp.pdbAppend_cause (c : Cmp) (x : BitVec 16) :
    (c.pdbAppend x).cause = c.cause := rfl

@[simp] theorem Cmp.pdbAppend_measure (c : Cmp) (x : BitVec 16) :
    (c.pdbAppend x).measure = c.measure := rfl

@[simp] theorem Cmp.pdbAppend_config (c : Cmp) (x : BitVec 16) :
    (c.pdbAppend x).config = c.config := rfl

@[simp] theorem Cmp.pdbAppend_fb (c : Cmp) (x : BitVec 16) :
    (c.pdbAppend x).fb = c.fb := rfl

@[simp] theorem Cmp.pdbAppend_fbCount (c : Cmp) (x : BitVec 16) :
    (c.pdbAppend x).fbCount = c.fbCount := rfl

@[simp] theorem Cmp.pdbAppend_lzb (c : Cmp) (x : BitVec 16) :
    (c.pdbAppend x).lzb = c.lzb := rfl

@[simp] theorem Cmp.pdbAppend_lzbCount (c : Cmp) (x : BitVec 16) :
    (c.pdbAppend x).lzbCount = c.lzbCount := rfl

@[simp] theorem Cmp.pdbAppend_pdb (c : Cmp) (x : BitVec 16) :
    (c.pdbAppend x).pdb = if c.measure then c.pdb else Memory.write c.pdb c.pdbCount x := rfl

@[simp] theorem Cmp.pdbAppend_pdbCount (c : Cmp) (x : BitVec 16) :
    (c.pdbAppend x).pdbCount = c.pdbCount + 1 := rfl

@[simp] theorem Cmp.pdbAppend_bs (c : Cmp) (x : BitVec 16) :
    (c.pdbAppend x).bs = c.bs := rfl

@[simp] theorem Cmp.pdbAppend_bsWpos (c : Cmp) (x : BitVec 16) :
    (c.pdbAppend x).bsWpos = c.bsWpos := rfl

@[simp] theorem Cmp.pdbAppend_params (c : Cmp) (x : BitVec 16) :
    (c.pdbAppend x).params = c.params := rfl

@[simp] theorem Cmp.pdbAppend_src (c : Cmp) (x : BitVec 16) :
    (c.pdbAppend x).src = c.src := rfl

/-! ### `Cmp.raise` -/

@[simp] theorem Cmp.raise_ring (c : Cmp) (why : Cause) :
    (c.raise why).ring = Ring.unspecified c.src.next := rfl

@[simp] theorem Cmp.raise_size (c : Cmp) (why : Cause) :
    (c.raise why).size = Config.unspecifiedNat c.src.next .size := rfl

@[simp] theorem Cmp.raise_first (c : Cmp) (why : Cause) :
    (c.raise why).first = freeBit c.src.next .first := rfl

@[simp] theorem Cmp.raise_prevLz (c : Cmp) (why : Cause) :
    (c.raise why).prevLz = freeOption 3 c.src.next .prevLzValid .prevLz := rfl

@[simp] theorem Cmp.raise_flushed (c : Cmp) (why : Cause) :
    (c.raise why).flushed = freeBit c.src.next .flushed := rfl

@[simp] theorem Cmp.raise_fault (c : Cmp) (why : Cause) :
    (c.raise why).fault = true := rfl

@[simp] theorem Cmp.raise_cause (c : Cmp) (why : Cause) :
    (c.raise why).cause = causeCode why := rfl

@[simp] theorem Cmp.raise_measure (c : Cmp) (why : Cause) :
    (c.raise why).measure = freeBit c.src.next .measure := rfl

@[simp] theorem Cmp.raise_config (c : Cmp) (why : Cause) :
    (c.raise why).config = c.config := by cases c; rfl

@[simp] theorem Cmp.raise_fb (c : Cmp) (why : Cause) :
    (c.raise why).fb = [] := rfl

@[simp] theorem Cmp.raise_fbCount (c : Cmp) (why : Cause) :
    (c.raise why).fbCount = Config.unspecifiedNat c.src.next .fbCount := rfl

@[simp] theorem Cmp.raise_lzb (c : Cmp) (why : Cause) :
    (c.raise why).lzb = [] := rfl

@[simp] theorem Cmp.raise_lzbCount (c : Cmp) (why : Cause) :
    (c.raise why).lzbCount = Config.unspecifiedNat c.src.next .lzbCount := rfl

@[simp] theorem Cmp.raise_pdb (c : Cmp) (why : Cause) :
    (c.raise why).pdb = [] := rfl

@[simp] theorem Cmp.raise_pdbCount (c : Cmp) (why : Cause) :
    (c.raise why).pdbCount = Config.unspecifiedNat c.src.next .pdbCount := rfl

@[simp] theorem Cmp.raise_bs (c : Cmp) (why : Cause) :
    (c.raise why).bs = [] := rfl

@[simp] theorem Cmp.raise_bsWpos (c : Cmp) (why : Cause) :
    (c.raise why).bsWpos = Config.unspecifiedNat c.src.next .bsWpos := rfl

@[simp] theorem Cmp.raise_params (c : Cmp) (why : Cause) :
    (c.raise why).params = c.params := by cases c; rfl

@[simp] theorem Cmp.raise_src (c : Cmp) (why : Cause) :
    (c.raise why).src = c.src.next := rfl

/-! ### `Cmp.init` -/

@[simp] theorem Cmp.init_ring (c : Cmp) :
    (c.init).ring = Ring.unspecified c.src.next := rfl

@[simp] theorem Cmp.init_size (c : Cmp) :
    (c.init).size = 0 := rfl

@[simp] theorem Cmp.init_first (c : Cmp) :
    (c.init).first = true := rfl

@[simp] theorem Cmp.init_prevLz (c : Cmp) :
    (c.init).prevLz = none := rfl

@[simp] theorem Cmp.init_flushed (c : Cmp) :
    (c.init).flushed = false := rfl

@[simp] theorem Cmp.init_fault (c : Cmp) :
    (c.init).fault = false := rfl

@[simp] theorem Cmp.init_cause (c : Cmp) :
    (c.init).cause = 0 := rfl

@[simp] theorem Cmp.init_measure (c : Cmp) :
    (c.init).measure = c.config.getLsbD 0 := rfl

@[simp] theorem Cmp.init_config (c : Cmp) :
    (c.init).config = c.config := by cases c; rfl

@[simp] theorem Cmp.init_fb (c : Cmp) :
    (c.init).fb = [] := rfl

@[simp] theorem Cmp.init_fbCount (c : Cmp) :
    (c.init).fbCount = 0 := rfl

@[simp] theorem Cmp.init_lzb (c : Cmp) :
    (c.init).lzb = [] := rfl

@[simp] theorem Cmp.init_lzbCount (c : Cmp) :
    (c.init).lzbCount = 0 := rfl

@[simp] theorem Cmp.init_pdb (c : Cmp) :
    (c.init).pdb = [] := rfl

@[simp] theorem Cmp.init_pdbCount (c : Cmp) :
    (c.init).pdbCount = 0 := rfl

@[simp] theorem Cmp.init_bs (c : Cmp) :
    (c.init).bs = [] := rfl

@[simp] theorem Cmp.init_bsWpos (c : Cmp) :
    (c.init).bsWpos = 0 := rfl

@[simp] theorem Cmp.init_params (c : Cmp) :
    (c.init).params = c.params := by cases c; rfl

@[simp] theorem Cmp.init_src (c : Cmp) :
    (c.init).src = c.src.next := rfl

/-! ### `Cmp.writeConfig` -/

@[simp] theorem Cmp.writeConfig_ring (c : Cmp) (v : Word) :
    (c.writeConfig v).ring = c.ring := rfl

@[simp] theorem Cmp.writeConfig_size (c : Cmp) (v : Word) :
    (c.writeConfig v).size = c.size := rfl

@[simp] theorem Cmp.writeConfig_first (c : Cmp) (v : Word) :
    (c.writeConfig v).first = c.first := rfl

@[simp] theorem Cmp.writeConfig_prevLz (c : Cmp) (v : Word) :
    (c.writeConfig v).prevLz = c.prevLz := rfl

@[simp] theorem Cmp.writeConfig_flushed (c : Cmp) (v : Word) :
    (c.writeConfig v).flushed = c.flushed := rfl

@[simp] theorem Cmp.writeConfig_fault (c : Cmp) (v : Word) :
    (c.writeConfig v).fault = c.fault := rfl

@[simp] theorem Cmp.writeConfig_cause (c : Cmp) (v : Word) :
    (c.writeConfig v).cause = c.cause := rfl

@[simp] theorem Cmp.writeConfig_measure (c : Cmp) (v : Word) :
    (c.writeConfig v).measure = c.measure := rfl

@[simp] theorem Cmp.writeConfig_config (c : Cmp) (v : Word) :
    (c.writeConfig v).config = v.setWidth 8 &&& 1 := rfl

@[simp] theorem Cmp.writeConfig_fb (c : Cmp) (v : Word) :
    (c.writeConfig v).fb = c.fb := rfl

@[simp] theorem Cmp.writeConfig_fbCount (c : Cmp) (v : Word) :
    (c.writeConfig v).fbCount = c.fbCount := rfl

@[simp] theorem Cmp.writeConfig_lzb (c : Cmp) (v : Word) :
    (c.writeConfig v).lzb = c.lzb := rfl

@[simp] theorem Cmp.writeConfig_lzbCount (c : Cmp) (v : Word) :
    (c.writeConfig v).lzbCount = c.lzbCount := rfl

@[simp] theorem Cmp.writeConfig_pdb (c : Cmp) (v : Word) :
    (c.writeConfig v).pdb = c.pdb := rfl

@[simp] theorem Cmp.writeConfig_pdbCount (c : Cmp) (v : Word) :
    (c.writeConfig v).pdbCount = c.pdbCount := rfl

@[simp] theorem Cmp.writeConfig_bs (c : Cmp) (v : Word) :
    (c.writeConfig v).bs = c.bs := rfl

@[simp] theorem Cmp.writeConfig_bsWpos (c : Cmp) (v : Word) :
    (c.writeConfig v).bsWpos = c.bsWpos := rfl

@[simp] theorem Cmp.writeConfig_params (c : Cmp) (v : Word) :
    (c.writeConfig v).params = c.params := rfl

@[simp] theorem Cmp.writeConfig_src (c : Cmp) (v : Word) :
    (c.writeConfig v).src = c.src := rfl

/-! ### `Dec.raise` -/

@[simp] theorem Dec.raise_ring (d : Dec) (why : Cause) :
    (d.raise why).ring = Ring.unspecified d.src.next := rfl

@[simp] theorem Dec.raise_size (d : Dec) (why : Cause) :
    (d.raise why).size = Config.unspecifiedNat d.src.next .size := rfl

@[simp] theorem Dec.raise_first (d : Dec) (why : Cause) :
    (d.raise why).first = freeBit d.src.next .first := rfl

@[simp] theorem Dec.raise_fault (d : Dec) (why : Cause) :
    (d.raise why).fault = true := rfl

@[simp] theorem Dec.raise_cause (d : Dec) (why : Cause) :
    (d.raise why).cause = causeCode why := rfl

@[simp] theorem Dec.raise_refValue (d : Dec) (why : Cause) :
    (d.raise why).refValue = Config.unspecified 64 d.src.next .refValue 0 := rfl

@[simp] theorem Dec.raise_curLz (d : Dec) (why : Cause) :
    (d.raise why).curLz = (freeOption 3 d.src.next .curLzValid .curLz).map bucket := rfl

@[simp] theorem Dec.raise_curTz (d : Dec) (why : Cause) :
    (d.raise why).curTz = (freeOption 6 d.src.next .curTzValid .curTz).map BitVec.toNat := rfl

@[simp] theorem Dec.raise_lzCursor (d : Dec) (why : Cause) :
    (d.raise why).lzCursor = Config.unspecifiedNat d.src.next .lzCursor := rfl

@[simp] theorem Dec.raise_pdCursor (d : Dec) (why : Cause) :
    (d.raise why).pdCursor = Config.unspecifiedNat d.src.next .pdCursor := rfl

@[simp] theorem Dec.raise_bs (d : Dec) (why : Cause) :
    (d.raise why).bs = d.bs := by cases d; rfl

@[simp] theorem Dec.raise_bsLen (d : Dec) (why : Cause) :
    (d.raise why).bsLen = d.bsLen := by cases d; rfl

@[simp] theorem Dec.raise_bsRpos (d : Dec) (why : Cause) :
    (d.raise why).bsRpos = Config.unspecifiedNat d.src.next .bsRpos := rfl

@[simp] theorem Dec.raise_lza (d : Dec) (why : Cause) :
    (d.raise why).lza = d.lza := by cases d; rfl

@[simp] theorem Dec.raise_lzLen (d : Dec) (why : Cause) :
    (d.raise why).lzLen = d.lzLen := by cases d; rfl

@[simp] theorem Dec.raise_pda (d : Dec) (why : Cause) :
    (d.raise why).pda = d.pda := by cases d; rfl

@[simp] theorem Dec.raise_pdLen (d : Dec) (why : Cause) :
    (d.raise why).pdLen = d.pdLen := by cases d; rfl

@[simp] theorem Dec.raise_result (d : Dec) (why : Cause) :
    (d.raise why).result = Config.unspecified 64 d.src.next .result 0 := rfl

@[simp] theorem Dec.raise_resultValid (d : Dec) (why : Cause) :
    (d.raise why).resultValid = false := rfl

@[simp] theorem Dec.raise_params (d : Dec) (why : Cause) :
    (d.raise why).params = d.params := by cases d; rfl

@[simp] theorem Dec.raise_src (d : Dec) (why : Cause) :
    (d.raise why).src = d.src.next := rfl

@[simp] theorem Dec.raise_memSrc (d : Dec) (why : Cause) :
    (d.raise why).memSrc = d.memSrc := by cases d; rfl

/-! ### `Dec.init` -/

@[simp] theorem Dec.init_ring (d : Dec) :
    (d.init).ring = Ring.unspecified d.src.next := rfl

@[simp] theorem Dec.init_size (d : Dec) :
    (d.init).size = 0 := rfl

@[simp] theorem Dec.init_first (d : Dec) :
    (d.init).first = true := rfl

@[simp] theorem Dec.init_fault (d : Dec) :
    (d.init).fault = false := rfl

@[simp] theorem Dec.init_cause (d : Dec) :
    (d.init).cause = 0 := rfl

@[simp] theorem Dec.init_refValue (d : Dec) :
    (d.init).refValue = Config.unspecified 64 d.src.next .refValue 0 := rfl

@[simp] theorem Dec.init_curLz (d : Dec) :
    (d.init).curLz = none := rfl

@[simp] theorem Dec.init_curTz (d : Dec) :
    (d.init).curTz = none := rfl

@[simp] theorem Dec.init_lzCursor (d : Dec) :
    (d.init).lzCursor = 0 := rfl

@[simp] theorem Dec.init_pdCursor (d : Dec) :
    (d.init).pdCursor = 0 := rfl

@[simp] theorem Dec.init_bs (d : Dec) :
    (d.init).bs = d.bs := by cases d; rfl

@[simp] theorem Dec.init_bsLen (d : Dec) :
    (d.init).bsLen = d.bsLen := by cases d; rfl

@[simp] theorem Dec.init_bsRpos (d : Dec) :
    (d.init).bsRpos = 0 := rfl

@[simp] theorem Dec.init_lza (d : Dec) :
    (d.init).lza = d.lza := by cases d; rfl

@[simp] theorem Dec.init_lzLen (d : Dec) :
    (d.init).lzLen = d.lzLen := by cases d; rfl

@[simp] theorem Dec.init_pda (d : Dec) :
    (d.init).pda = d.pda := by cases d; rfl

@[simp] theorem Dec.init_pdLen (d : Dec) :
    (d.init).pdLen = d.pdLen := by cases d; rfl

@[simp] theorem Dec.init_result (d : Dec) :
    (d.init).result = Config.unspecified 64 d.src.next .result 0 := rfl

@[simp] theorem Dec.init_resultValid (d : Dec) :
    (d.init).resultValid = false := rfl

@[simp] theorem Dec.init_params (d : Dec) :
    (d.init).params = d.params := by cases d; rfl

@[simp] theorem Dec.init_src (d : Dec) :
    (d.init).src = d.src.next := rfl

@[simp] theorem Dec.init_memSrc (d : Dec) :
    (d.init).memSrc = d.memSrc := by cases d; rfl

end Sys2Proof.Machine
end

