-- ==== Sys2Proof/Laws/Ops.lean ====
section
/-! SUPPORT. For each shared operation, once, everything it can do. Proofs cite these and do not unfold the operation. -/

namespace Sys2Proof.Machine

/-! ### The ring -/

/-- A slot read after a slot written (40_ring.md R121, R125): the slots are taken mod 128. -/
theorem Ring.get_put (r : Ring) (i j : Nat) (v : Word) :
    Ring.get (Ring.put r i v) j = if i % 128 = j % 128 then v else Ring.get r j := by
  simp only [Ring.get, Ring.put, Vector.getElem_set]

@[simp] theorem Ring.get_put_self (r : Ring) (i : Nat) (v : Word) : Ring.get (Ring.put r i v) i = v := by
  rw [Ring.get_put, if_pos rfl]

/-- A slot number matters mod 128 only. -/
theorem Ring.get_congr (r : Ring) {i j : Nat} (h : i % 128 = j % 128) : Ring.get r i = Ring.get r j := by
  simp only [Ring.get, h]

/-- `Insert` (R121) as one record update. -/
theorem Cmp.insert_eq (c : Cmp) (v : Word) :
    c.insert v =
      { c with
        size := if c.first then c.size else c.size + 1
        ring := Ring.put c.ring (if c.first then 0 else c.size + 1) v } := by
  unfold Cmp.insert
  split <;> rename_i h <;> simp [h]

theorem Dec.insert_eq (d : Dec) (v : Word) :
    d.insert v =
      { d with
        size := if d.first then d.size else d.size + 1
        ring := Ring.put d.ring (if d.first then 0 else d.size + 1) v } := by
  unfold Dec.insert
  split <;> rename_i h <;> simp [h]

/-! ### A command and its unit -/

/-- What a command on a compressor unit can do: the unit exists and is replaced, or the machine stops. -/
theorem onCmp_next {f : Cmp → Cmp} {s t : State} (h : onCmp f s = .next t) :
    ∃ c, s.cmps[s.unit]? = some c ∧ t = s.setCmp (f c) := by
  unfold onCmp at h
  split at h
  · cases h
  · rename_i c hc
    exact ⟨c, hc, by injection h with h; exact h.symm⟩

theorem onCmp_of {f : Cmp → Cmp} {s : State} {c : Cmp} (h : s.cmps[s.unit]? = some c) :
    onCmp f s = .next (s.setCmp (f c)) := by
  simp only [onCmp, h]

/-- What a command on a decompressor unit can do. -/
theorem onDec_next {f : Dec → Dec} {s t : State} (h : onDec f s = .next t) :
    ∃ d, s.decs[s.unit]? = some d ∧ t = s.setDec (f d) := by
  unfold onDec at h
  split at h
  · cases h
  · rename_i d hd
    exact ⟨d, hd, by injection h with h; exact h.symm⟩

theorem onDec_of {f : Dec → Dec} {s : State} {d : Dec} (h : s.decs[s.unit]? = some d) :
    onDec f s = .next (s.setDec (f d)) := by
  simp only [onDec, h]

/-- Replacing a unit by itself changes nothing. -/
theorem State.setCmp_self {s : State} {c : Cmp} (h : s.cmps[s.unit]? = some c) : s.setCmp c = s := by
  obtain ⟨hlt, hc⟩ := List.getElem?_eq_some_iff.1 h
  cases s
  simp only [State.setCmp, State.mk.injEq, and_true]
  subst hc
  exact List.set_getElem_self hlt

theorem State.setDec_self {s : State} {d : Dec} (h : s.decs[s.unit]? = some d) : s.setDec d = s := by
  obtain ⟨hlt, hd⟩ := List.getElem?_eq_some_iff.1 h
  cases s
  simp only [State.setDec, State.mk.injEq, and_true, true_and]
  subst hd
  exact List.set_getElem_self hlt

theorem Cmp.unlessFaulted_of_fault {f : Cmp → Cmp} {c : Cmp} (h : c.fault = true) : Cmp.unlessFaulted f c = c := by
  simp only [Cmp.unlessFaulted, h, if_true]

theorem Cmp.unlessFaulted_of_run {f : Cmp → Cmp} {c : Cmp} (h : c.fault = false) : Cmp.unlessFaulted f c = f c := by
  simp [Cmp.unlessFaulted, h]

theorem Dec.unlessFaulted_of_fault {f : Dec → Dec} {d : Dec} (h : d.fault = true) : Dec.unlessFaulted f d = d := by
  simp only [Dec.unlessFaulted, h, if_true]

theorem Dec.unlessFaulted_of_run {f : Dec → Dec} {d : Dec} (h : d.fault = false) : Dec.unlessFaulted f d = f d := by
  simp [Dec.unlessFaulted, h]

/-! ### The compressor unit -/

/-- The elements an optional append leaves. -/
def Memory.appendOpt {w : Nat} (measure : Bool) (m : Memory w) (n : Nat) (e : Option (BitVec w)) : Memory w :=
  match e with
  | none => m
  | some x => if measure then m else Memory.write m n x

/-- The count an optional append leaves. -/
def countOpt {w : Nat} (n : Nat) (e : Option (BitVec w)) : Nat :=
  match e with
  | none => n
  | some _ => n + 1

/-- Everything a `STORE` that completes writes, as one record update (42_compressor.md R173, R178 to R182). -/
theorem Cmp.commit_eq (c : Cmp) (v : Word) (e : Emission) :
    c.commit v e =
      { c with
        ring := Ring.put c.ring (if c.first then 0 else c.size + 1) v
        size := if c.first then c.size else c.size + 1
        first := false
        prevLz := e.prevLz
        fb := Memory.appendOpt c.measure c.fb c.fbCount e.flag
        fbCount := countOpt c.fbCount e.flag
        lzb := Memory.appendOpt c.measure c.lzb c.lzbCount e.sel
        lzbCount := countOpt c.lzbCount e.sel
        pdb := Memory.appendOpt c.measure c.pdb c.pdbCount e.packed
        pdbCount := countOpt c.pdbCount e.packed
        bs := if c.measure then c.bs else Memory.writeBits c.bs c.bsWpos e.width e.field
        bsWpos := c.bsWpos + e.width } := by
  obtain ⟨flag, field, width, sel, packed, prevLz⟩ := e
  cases hm : c.measure <;> cases flag <;> cases sel <;> cases packed <;>
    simp [Cmp.commit, Cmp.appendIf, Cmp.insert_eq, Memory.appendOpt, countOpt, Cmp.bsWrite, Cmp.fbAppend, Cmp.lzbAppend,
      Cmp.pdbAppend, hm]

/-- Everything a `STORE` can do to a unit that is not FAULTED (R172). -/
theorem Cmp.store_cases (v : Word) (c : Cmp) :
    (c.flushed = true ∧ c.store v = c.raise (.illegalCommand .store)) ∨
    (c.flushed = false ∧ ∃ which, c.overflow (c.emission v) = some which ∧ c.store v = c.raise (.bufferOverflow which)) ∨
    (c.flushed = false ∧ c.overflow (c.emission v) = none ∧ c.store v = c.commit v (c.emission v)) := by
  unfold Cmp.store
  split
  · rename_i h; exact .inl ⟨h, rfl⟩
  · rename_i h
    have hf : c.flushed = false := by simpa using h
    split
    · rename_i which hw; exact .inr (.inl ⟨hf, which, hw, rfl⟩)
    · rename_i hw; exact .inr (.inr ⟨hf, hw, rfl⟩)

/-- The records a `STORE` can emit (R173, R176, R178 to R181). -/
theorem Cmp.emission_cases (v : Word) (c : Cmp) :
    (c.first = true ∧ c.emission v = c.emitFirst v) ∨
    (c.first = false ∧ c.storePath v = .ident ∧ c.emission v = emitIdent (c.reference v).1) ∨
    (c.first = false ∧ c.storePath v = .trail ∧
      c.emission v = emitTrail c.params.layout (c.reference v).1 (c.xorResult v)) ∨
    (c.first = false ∧ c.storePath v = .lzeq ∧ c.emission v = emitLzeq c.prevLz (c.xorResult v)) ∨
    (c.first = false ∧ c.storePath v = .lzload ∧ c.emission v = emitLzload (c.xorResult v)) := by
  unfold Cmp.emission
  split
  · rename_i h; exact .inl ⟨h, rfl⟩
  · rename_i h
    have hf : c.first = false := by simpa using h
    cases hp : c.storePath v <;> simp [hf]

/-- The branch selector, by its conditions (R176). -/
theorem choosePath_cases (x : Word) (exceed : Bool) (p : Option (BitVec 3)) :
    (choosePath x exceed p = .ident ∧ x = 0) ∨
    (choosePath x exceed p = .trail ∧ x ≠ 0 ∧ exceed = true) ∨
    (choosePath x exceed p = .lzeq ∧ x ≠ 0 ∧ exceed = false ∧ p = some (bucketSel (clz64 x))) ∨
    (choosePath x exceed p = .lzload ∧ x ≠ 0 ∧ exceed = false ∧ p ≠ some (bucketSel (clz64 x))) := by
  unfold choosePath
  by_cases hx : x = 0
  · exact .inl ⟨if_pos hx, hx⟩
  · rw [if_neg hx]
    cases exceed
    · by_cases hp : p = some (bucketSel (clz64 x))
      · exact .inr (.inr (.inl ⟨by simp [hp], hx, rfl, hp⟩))
      · exact .inr (.inr (.inr ⟨by simp [hp], hx, rfl, hp⟩))
    · exact .inr (.inl ⟨rfl, hx, rfl⟩)

/-- `BSFlush` as one record update (41_buffers_and_tables.md R152). -/
theorem Cmp.bsFlush_eq (c : Cmp) :
    c.bsFlush =
      { c with
        bs := if c.measure then c.bs else Memory.writeBits c.bs c.bsWpos (padBits c.bsWpos) 0
        bsWpos := c.bsWpos + padBits c.bsWpos } := by
  unfold Cmp.bsFlush
  split
  · rfl
  · rename_i h
    have h0 : padBits c.bsWpos = 0 := by omega
    simp [h0, Memory.writeBits]

/-- Everything a `FLUSH` can do to a unit that is not FAULTED (R186). -/
theorem Cmp.flush_cases (c : Cmp) :
    (c.flushed = true ∧ c.flush = c.raise (.illegalCommand .flush)) ∨
    (c.flushed = false ∧ c.measure = false ∧ exceeds c.params.bsCapBits (c.bsWpos + padBits c.bsWpos) = true ∧
      c.flush = c.raise (.bufferOverflow .bs)) ∨
    (c.flushed = false ∧ (c.measure = true ∨ exceeds c.params.bsCapBits (c.bsWpos + padBits c.bsWpos) = false) ∧
      c.flush = { c.bsFlush with flushed := true }) := by
  unfold Cmp.flush
  cases hf : c.flushed
  · cases hm : c.measure <;> cases he : exceeds c.params.bsCapBits (c.bsWpos + padBits c.bsWpos) <;> simp
  · simp

/-- When a `STORE` overflows, some region that its record needs lacks room (R172). -/
theorem Cmp.overflow_none {c : Cmp} {e : Emission} (h : c.overflow e = none) :
    c.measure = true ∨
      (exceeds c.params.bsCapBits (c.bsWpos + e.width) = false ∧ lacksRoom c.params.fbCap c.fbCount e.flag = false ∧
        lacksRoom c.params.lzbCap c.lzbCount e.sel = false ∧ lacksRoom c.params.pdbCap c.pdbCount e.packed = false) := by
  unfold Cmp.overflow at h
  by_cases hm : c.measure = true
  · exact .inl hm
  · rw [if_neg hm] at h
    refine .inr ?_
    cases h1 : exceeds c.params.bsCapBits (c.bsWpos + e.width) <;> simp [h1] at h
    cases h2 : lacksRoom c.params.fbCap c.fbCount e.flag <;> simp [h2] at h
    cases h3 : lacksRoom c.params.lzbCap c.lzbCount e.sel <;> simp [h3] at h
    cases h4 : lacksRoom c.params.pdbCap c.pdbCount e.packed <;> simp [h4] at h
    exact ⟨rfl, rfl, rfl, rfl⟩

/-! ### The decompressor unit -/

/-- What `BSRead` can do (41_buffers_and_tables.md R151). -/
theorem Dec.bsRead_ok {d d1 : Dec} {n : Nat} {x : Word} (h : d.bsRead n = .ok (x, d1)) :
    d.bsRpos + n ≤ d.bsLen ∧ x = readField d.bsBit d.bsRpos n ∧ d1 = { d with bsRpos := d.bsRpos + n } := by
  unfold Dec.bsRead at h
  split at h
  · cases h
  · injection h with h; injection h with h1 h2
    exact ⟨by omega, h1.symm, h2.symm⟩

theorem Dec.bsRead_error {d : Dec} {n : Nat} {why : Cause} (h : d.bsRead n = .error why) :
    d.bsLen < d.bsRpos + n ∧ why = .bitStreamExhausted d.bsRpos := by
  unfold Dec.bsRead at h
  split at h
  · injection h with h; exact ⟨by assumption, h.symm⟩
  · cases h

theorem Dec.bsRead_of_le {d : Dec} {n : Nat} (h : d.bsRpos + n ≤ d.bsLen) :
    d.bsRead n = .ok (readField d.bsBit d.bsRpos n, { d with bsRpos := d.bsRpos + n }) := by
  unfold Dec.bsRead; rw [if_neg (by omega)]

theorem Dec.bsRead_of_lt {d : Dec} {n : Nat} (h : d.bsLen < d.bsRpos + n) :
    d.bsRead n = .error (.bitStreamExhausted d.bsRpos) := by
  unfold Dec.bsRead; rw [if_pos h]

/-- What `LZANext` can do (R154). -/
theorem Dec.lzaNext_ok {d d1 : Dec} {x : BitVec 3} (h : d.lzaNext = .ok (x, d1)) :
    d.lzCursor < d.lzLen ∧ x = d.lzaElem d.lzCursor ∧ d1 = { d with lzCursor := d.lzCursor + 1 } := by
  unfold Dec.lzaNext at h
  split at h
  · cases h
  · injection h with h; injection h with h1 h2
    exact ⟨by omega, h1.symm, h2.symm⟩

/-- What `PDANext` can do (R154). -/
theorem Dec.pdaNext_ok {d d1 : Dec} {x : BitVec 16} (h : d.pdaNext = .ok (x, d1)) :
    d.pdCursor < d.pdLen ∧ x = d.pdaElem d.pdCursor ∧ d1 = { d with pdCursor := d.pdCursor + 1 } := by
  unfold Dec.pdaNext at h
  split at h
  · cases h
  · injection h with h; injection h with h1 h2
    exact ⟨by omega, h1.symm, h2.symm⟩

/-- What `Value` can do (40_ring.md R125). -/
theorem Dec.value_ok {d : Dec} {slot : Nat} {x : Word} (h : d.value slot = .ok x) :
    slotValid d.first d.size (slot % 128) = true ∧ x = Ring.get d.ring slot := by
  unfold Dec.value at h
  split at h
  · injection h with h; exact ⟨by assumption, h.symm⟩
  · cases h

/-- Everything a `LOAD` can do to a unit that is not FAULTED (43_decompressor.md R202). -/
theorem Dec.loadWith_cases (coded : Dec → LoadResult) (d : Dec) :
    (∃ why, (if d.first then Dec.readFirst { d with resultValid := false } else coded { d with resultValid := false })
        = .error why ∧ Dec.loadWith coded d = d.raise why) ∨
    (∃ r d1, (if d.first then Dec.readFirst { d with resultValid := false } else coded { d with resultValid := false })
        = .ok (r, d1) ∧ Dec.loadWith coded d = d1.finish r) := by
  unfold Dec.loadWith
  generalize (if d.first then Dec.readFirst { d with resultValid := false } else coded { d with resultValid := false })
    = out
  match out with
  | .error why => exact .inl ⟨why, rfl, rfl⟩
  | .ok (r, d1) => exact .inr ⟨r, d1, rfl, rfl⟩

/-- What a path of `LOAD` may change before the epilogue: the cursors and the zero counters. -/
structure Dec.SameBut (d d1 : Dec) : Prop where
  ring : d1.ring = d.ring
  size : d1.size = d.size
  first : d1.first = d.first
  fault : d1.fault = d.fault
  cause : d1.cause = d.cause
  refValue : d1.refValue = d.refValue
  bs : d1.bs = d.bs
  bsLen : d1.bsLen = d.bsLen
  lza : d1.lza = d.lza
  lzLen : d1.lzLen = d.lzLen
  pda : d1.pda = d.pda
  pdLen : d1.pdLen = d.pdLen
  params : d1.params = d.params
  src : d1.src = d.src
  memSrc : d1.memSrc = d.memSrc
  bsRpos : d.bsRpos ≤ d1.bsRpos
  lzCursor : d.lzCursor ≤ d1.lzCursor
  pdCursor : d.pdCursor ≤ d1.pdCursor

theorem Dec.SameBut.refl (d : Dec) : d.SameBut d :=
  ⟨rfl, rfl, rfl, rfl, rfl, rfl, rfl, rfl, rfl, rfl, rfl, rfl, rfl, rfl, rfl, Nat.le_refl _, Nat.le_refl _, Nat.le_refl _⟩

theorem Dec.SameBut.trans {d d1 d2 : Dec} (h : d.SameBut d1) (h1 : d1.SameBut d2) : d.SameBut d2 :=
  ⟨h1.ring.trans h.ring, h1.size.trans h.size, h1.first.trans h.first, h1.fault.trans h.fault, h1.cause.trans h.cause,
    h1.refValue.trans h.refValue, h1.bs.trans h.bs, h1.bsLen.trans h.bsLen, h1.lza.trans h.lza, h1.lzLen.trans h.lzLen,
    h1.pda.trans h.pda, h1.pdLen.trans h.pdLen, h1.params.trans h.params, h1.src.trans h.src, h1.memSrc.trans h.memSrc,
    h.bsRpos.trans h1.bsRpos, h.lzCursor.trans h1.lzCursor, h.pdCursor.trans h1.pdCursor⟩

theorem Dec.bsRead_same {d d1 : Dec} {n : Nat} {x : Word} (h : d.bsRead n = .ok (x, d1)) : d.SameBut d1 := by
  obtain ⟨-, -, rfl⟩ := Dec.bsRead_ok h
  exact ⟨rfl, rfl, rfl, rfl, rfl, rfl, rfl, rfl, rfl, rfl, rfl, rfl, rfl, rfl, rfl, Nat.le_add_right _ _, Nat.le_refl _,
    Nat.le_refl _⟩

/-- What FIRST does when it succeeds (43_decompressor.md R204). -/
theorem Dec.readFirst_ok {d d1 : Dec} {r : Word} (h : d.readFirst = .ok (r, d1)) :
    d.bsRpos + 64 ≤ d.bsLen ∧ r = readField d.bsBit d.bsRpos 64 ∧ d1 = { d with bsRpos := d.bsRpos + 64 } :=
  Dec.bsRead_ok h

/-- What VALUE_IDENTICAL does when it succeeds (R205). -/
theorem Dec.readIdent_ok {d d1 : Dec} {r : Word} (h : d.readIdent = .ok (r, d1)) :
    d.bsRpos + 7 ≤ d.bsLen ∧
    slotValid d.first d.size ((readField d.bsBit d.bsRpos 7).toNat % 128) = true ∧
    r = Ring.get d.ring (readField d.bsBit d.bsRpos 7).toNat ∧
    d1 = { d with bsRpos := d.bsRpos + 7 } := by
  unfold Dec.readIdent at h
  cases hb : d.bsRead 7 with
  | error why => simp only [hb] at h; cases h
  | ok p =>
    obtain ⟨i, d2⟩ := p
    obtain ⟨hl, rfl, rfl⟩ := Dec.bsRead_ok hb
    simp only [hb] at h
    cases hv : Dec.value { d with bsRpos := d.bsRpos + 7 } (readField d.bsBit d.bsRpos 7).toNat with
    | error why => simp only [hv] at h; cases h
    | ok x =>
      obtain ⟨hs, rfl⟩ := Dec.value_ok hv
      simp only [hv] at h
      injection h with h; injection h with h1 h2
      exact ⟨hl, hs, h1.symm, h2.symm⟩

/-- What TRAILING_EXCEEDS_THRESHOLD does when it succeeds (R206): `i`, `sel`, `sig` are the record's fields. -/
theorem Dec.readTrail_ok {d d1 : Dec} {r : Word} (h : d.readTrail = .ok (r, d1)) :
    ∃ i sel sig, unpackRecord d.params.layout (d.pdaElem d.pdCursor) = (i, sel, sig) ∧
      d.pdCursor < d.pdLen ∧ recordValid sel sig = true ∧ d.bsRpos + sig.toNat ≤ d.bsLen ∧
      slotValid d.first d.size (i.toNat % 128) = true ∧
      r = (readField d.bsBit d.bsRpos sig.toNat <<< (64 - sig.toNat - bucket sel)) ^^^ Ring.get d.ring i.toNat ∧
      d1 = { d with
        pdCursor := d.pdCursor + 1
        bsRpos := d.bsRpos + sig.toNat
        curLz := some (bucket sel)
        curTz := some (64 - sig.toNat - bucket sel) } := by
  unfold Dec.readTrail at h
  cases hp : d.pdaNext with
  | error why => simp only [hp] at h; cases h
  | ok p =>
    obtain ⟨rec, d2⟩ := p
    obtain ⟨hl, rfl, rfl⟩ := Dec.pdaNext_ok hp
    simp only [hp] at h
    obtain ⟨⟨i, sel, sig⟩, hu⟩ : ∃ u, unpackRecord d.params.layout (d.pdaElem d.pdCursor) = u := ⟨_, rfl⟩
    simp only [hu] at h
    refine ⟨i, sel, sig, hu, hl, ?_⟩
    by_cases hv : recordValid sel sig = true
    · rw [if_pos hv] at h
      unfold Dec.readTrailField at h
      cases hb : Dec.bsRead { d with pdCursor := d.pdCursor + 1 } sig.toNat with
      | error why => simp only [hb] at h; cases h
      | ok q =>
        obtain ⟨x, d3⟩ := q
        obtain ⟨hbl, rfl, rfl⟩ := Dec.bsRead_ok hb
        simp only [hb] at h
        cases hval : Dec.value
            { ({ d with pdCursor := d.pdCursor + 1 } : Dec) with bsRpos := d.bsRpos + sig.toNat } i.toNat with
        | error why => simp only [hval] at h; cases h
        | ok y =>
          obtain ⟨hs, rfl⟩ := Dec.value_ok hval
          simp only [hval] at h
          injection h with h; injection h with h1 h2
          exact ⟨hv, hbl, hs, h1.symm, h2.symm⟩
    · rw [if_neg hv] at h; cases h

/-- What the field of a leading-zero path does when it succeeds (R207, R208). -/
theorem Dec.readLz_ok {d d1 : Dec} {lz : Nat} {r : Word} (h : d.readLz lz = .ok (r, d1)) :
    d.bsRpos + (64 - lz) ≤ d.bsLen ∧ r = readField d.bsBit d.bsRpos (64 - lz) ^^^ d.refValue ∧
      d1 = { d with bsRpos := d.bsRpos + (64 - lz) } := by
  unfold Dec.readLz at h
  cases hb : d.bsRead (64 - lz) with
  | error why => simp only [hb] at h; cases h
  | ok p =>
    obtain ⟨x, d2⟩ := p
    obtain ⟨hl, rfl, rfl⟩ := Dec.bsRead_ok hb
    simp only [hb] at h
    injection h with h; injection h with h1 h2
    exact ⟨hl, h1.symm, h2.symm⟩

/-- What LEADING_ZERO_EQUALITY does when it succeeds (R207). -/
theorem Dec.readLzeq_ok {d d1 : Dec} {r : Word} (h : d.readLzeq = .ok (r, d1)) :
    ∃ lz, d.curLz = some lz ∧ d.bsRpos + (64 - lz) ≤ d.bsLen ∧
      r = readField d.bsBit d.bsRpos (64 - lz) ^^^ d.refValue ∧ d1 = { d with bsRpos := d.bsRpos + (64 - lz) } := by
  unfold Dec.readLzeq at h
  split at h
  · cases h
  · rename_i lz hlz
    exact ⟨lz, hlz, Dec.readLz_ok h⟩

/-- What LEADING_ZERO_LOAD does when it succeeds (R208). -/
theorem Dec.readLzload_ok {d d1 : Dec} {r : Word} (h : d.readLzload = .ok (r, d1)) :
    d.lzCursor < d.lzLen ∧
      d.bsRpos + (64 - bucket (d.lzaElem d.lzCursor)) ≤ d.bsLen ∧
      r = readField d.bsBit d.bsRpos (64 - bucket (d.lzaElem d.lzCursor)) ^^^ d.refValue ∧
      d1 = { d with
        lzCursor := d.lzCursor + 1
        curLz := some (bucket (d.lzaElem d.lzCursor))
        bsRpos := d.bsRpos + (64 - bucket (d.lzaElem d.lzCursor)) } := by
  unfold Dec.readLzload at h
  cases hz : d.lzaNext with
  | error why => simp only [hz] at h; cases h
  | ok p =>
    obtain ⟨sel, d2⟩ := p
    obtain ⟨hl, rfl, rfl⟩ := Dec.lzaNext_ok hz
    simp only [hz] at h
    obtain ⟨h1, h2, h3⟩ := Dec.readLz_ok h
    exact ⟨hl, h1, h2, h3⟩

/-- What a coded path of `LOAD` does when it succeeds, for any flag (R203). -/
theorem Dec.readCoded_ok {d d1 : Dec} {flag : BitVec 8} {r : Word} (h : d.readCoded flag = .ok (r, d1)) :
    (flag = 0 ∧ d.readIdent = .ok (r, d1)) ∨ (flag = 1 ∧ d.readTrail = .ok (r, d1)) ∨
    (flag = 2 ∧ d.readLzeq = .ok (r, d1)) ∨ (flag = 3 ∧ d.readLzload = .ok (r, d1)) := by
  unfold Dec.readCoded at h
  split at h
  · rename_i hf; exact .inl ⟨hf, h⟩
  split at h
  · rename_i hf; exact .inr (.inl ⟨hf, h⟩)
  split at h
  · rename_i hf; exact .inr (.inr (.inl ⟨hf, h⟩))
  split at h
  · rename_i hf; exact .inr (.inr (.inr ⟨hf, h⟩))
  · cases h

/-- A path keeps the rest of the unit, whichever it is. -/
theorem Dec.readIdent_same {d d1 : Dec} {r : Word} (h : d.readIdent = .ok (r, d1)) : d.SameBut d1 := by
  obtain ⟨-, -, -, rfl⟩ := Dec.readIdent_ok h
  exact ⟨rfl, rfl, rfl, rfl, rfl, rfl, rfl, rfl, rfl, rfl, rfl, rfl, rfl, rfl, rfl, Nat.le_add_right _ _, Nat.le_refl _,
    Nat.le_refl _⟩

theorem Dec.readTrail_same {d d1 : Dec} {r : Word} (h : d.readTrail = .ok (r, d1)) : d.SameBut d1 := by
  obtain ⟨i, sel, sig, -, -, -, -, -, -, rfl⟩ := Dec.readTrail_ok h
  exact ⟨rfl, rfl, rfl, rfl, rfl, rfl, rfl, rfl, rfl, rfl, rfl, rfl, rfl, rfl, rfl, Nat.le_add_right _ _, Nat.le_refl _,
    Nat.le_add_right _ _⟩

theorem Dec.readLzeq_same {d d1 : Dec} {r : Word} (h : d.readLzeq = .ok (r, d1)) : d.SameBut d1 := by
  obtain ⟨lz, -, -, -, rfl⟩ := Dec.readLzeq_ok h
  exact ⟨rfl, rfl, rfl, rfl, rfl, rfl, rfl, rfl, rfl, rfl, rfl, rfl, rfl, rfl, rfl, Nat.le_add_right _ _, Nat.le_refl _,
    Nat.le_refl _⟩

theorem Dec.readLzload_same {d d1 : Dec} {r : Word} (h : d.readLzload = .ok (r, d1)) : d.SameBut d1 := by
  obtain ⟨-, -, -, rfl⟩ := Dec.readLzload_ok h
  exact ⟨rfl, rfl, rfl, rfl, rfl, rfl, rfl, rfl, rfl, rfl, rfl, rfl, rfl, rfl, rfl, Nat.le_add_right _ _,
    Nat.le_add_right _ _, Nat.le_refl _⟩

theorem Dec.readCoded_same {d d1 : Dec} {flag : BitVec 8} {r : Word} (h : d.readCoded flag = .ok (r, d1)) :
    d.SameBut d1 := by
  rcases Dec.readCoded_ok h with ⟨-, h⟩ | ⟨-, h⟩ | ⟨-, h⟩ | ⟨-, h⟩
  exacts [Dec.readIdent_same h, Dec.readTrail_same h, Dec.readLzeq_same h, Dec.readLzload_same h]

/-- The epilogue (R209) as one record update. -/
theorem Dec.finish_eq (d : Dec) (r : Word) :
    d.finish r =
      { d with
        size := if d.first then d.size else d.size + 1
        ring := Ring.put d.ring (if d.first then 0 else d.size + 1) r
        refValue := r
        first := false
        result := r
        resultValid := true } := by
  simp only [Dec.finish, Dec.insert_eq]

/-! ### One step -/

/-- Everything a step can do: nothing with an empty inbox, an instruction, or a host access. -/
theorem step_cases (s : State) :
    (s.inbox = [] ∧ step s = .next s) ∨
    (∃ a rest i, s.inbox = a :: rest ∧ actionInstr s a = some i ∧ step s = exec i (accept s a rest)) ∨
    (∃ a rest, s.inbox = a :: rest ∧ actionInstr s a = none ∧ step s = hostAccess a (accept s a rest)) := by
  unfold step
  split
  · rename_i h; exact .inl ⟨h, rfl⟩
  · rename_i a rest h
    cases hi : actionInstr s a with
    | none => exact .inr (.inr ⟨a, rest, h, hi, rfl⟩)
    | some i => exact .inr (.inl ⟨a, rest, i, h, hi, rfl⟩)

/-- Everything an instruction can do when it gives a next state: the addressed compressor unit or the addressed
decompressor unit is replaced, and nothing else changes. -/
theorem exec_next {i : Instr} {s t : State} (h : exec i s = .next t) :
    (∃ c c1, s.cmps[s.unit]? = some c ∧ t = s.setCmp c1) ∨ (∃ d d1, s.decs[s.unit]? = some d ∧ t = s.setDec d1) := by
  cases i with
  | cinit | flush | cmdcReserved | store _ =>
    obtain ⟨c, hc, ht⟩ := onCmp_next h
    exact .inl ⟨c, _, hc, ht⟩
  | dinit | load _ | cmddReserved2 | cmddReserved3 | recIdent | recTrail | recLzeq | recLzload | recCorrupt _ =>
    obtain ⟨d, hd, ht⟩ := onDec_next h
    exact .inr ⟨d, _, hd, ht⟩
  | recFirst =>
    simp only [exec, execRecFirst] at h
    split at h
    · cases h
    · rename_i d hd
      split at h
      · injection h with h; exact .inr ⟨d, _, hd, h.symm⟩
      · cases h
  | pdrec _ => cases h

/-- Everything a host access can do when it gives a next state. -/
theorem hostAccess_next {a : HostAction} {s t : State} (h : hostAccess a s = .next t) :
    t = s ∨ (∃ v, t = { s with hostData := v }) ∨
    (∃ c v, s.cmps[s.unit]? = some c ∧ t = s.setCmp (c.writeConfig v)) ∨
    (∃ d reg v d1, s.decs[s.unit]? = some d ∧ d.writeReg reg v = some d1 ∧ t = s.setDec d1) ∨
    (∃ d sp addr v, s.decs[s.unit]? = some d ∧ t = s.setDec (d.writeSpace sp addr v)) ∨
    (a = .reset ∧ t = { s with cmps := s.cmps.map Cmp.hardReset, decs := s.decs.map Dec.hardReset }) := by
  cases a with
  | commandC _ _ | commandD _ _ | record _ _ | data _ _ => injection h with h; exact .inl h.symm
  | readReg k reg =>
    refine .inr (.inl ?_)
    simp only [hostAccess, hostReadReg] at h
    split at h
    · split at h
      · cases h
      · injection h with h; exact ⟨_, h.symm⟩
    · split at h
      · split at h
        · cases h
        · injection h with h; exact ⟨_, h.symm⟩
      · cases h
  | writeReg k reg v =>
    simp only [hostAccess, hostWriteReg] at h
    split at h
    · split at h
      · cases h
      · rename_i c hc
        split at h
        · cases h
        · rename_i c1 hw
          injection h with h
          unfold Cmp.writeReg at hw
          split at hw
          · injection hw with hw; subst hw
            exact .inr (.inr (.inl ⟨c, v, hc, h.symm⟩))
          · cases hw
    · split at h
      · split at h
        · cases h
        · rename_i d hd
          split at h
          · cases h
          · rename_i d1 hw
            injection h with h
            exact .inr (.inr (.inr (.inl ⟨d, reg, v, d1, hd, hw, h.symm⟩)))
      · cases h
  | readRegion k r addr =>
    refine .inr (.inl ?_)
    simp only [hostAccess, hostReadRegion] at h
    split at h
    · cases h
    · split at h
      · injection h with h; exact ⟨_, h.symm⟩
      · cases h
      · cases h
  | writeSpace k sp addr v =>
    obtain ⟨d, hd, ht⟩ := onDec_next h
    exact .inr (.inr (.inr (.inr (.inl ⟨d, sp, addr, v, hd, ht⟩))))
  | reset => injection h with h; exact .inr (.inr (.inr (.inr (.inr ⟨rfl, h.symm⟩))))

/-- What a register write does to a decompressor unit: one of the five RW registers (10_state.md R42). -/
theorem Dec.writeReg_some {d d1 : Dec} {reg : BitVec 8} {v : Word} (h : d.writeReg reg v = some d1) :
    d1 = { d with bsLen := v.toNat } ∨ d1 = { d with lzCursor := v.toNat } ∨ d1 = { d with lzLen := v.toNat } ∨
    d1 = { d with pdCursor := v.toNat } ∨ d1 = { d with pdLen := v.toNat } := by
  unfold Dec.writeReg at h
  split at h
  · injection h with h; exact .inl h.symm
  · injection h with h; exact .inr (.inl h.symm)
  · injection h with h; exact .inr (.inr (.inl h.symm))
  · injection h with h; exact .inr (.inr (.inr (.inl h.symm)))
  · injection h with h; exact .inr (.inr (.inr (.inr h.symm)))
  · cases h

end Sys2Proof.Machine
end

