-- ==== Sys2Proof/Laws/PerInstr.lean ====
section
/-! SUPPORT. A fact about every instruction as syntax, one lemma per constructor: the encoder writes a word of the
instruction's own format, in that format's whole bytes and within its width (30_encoding.md R91, R92, R94, R100). -/

namespace Sys2Proof.Laws.EncodeFits

/-- The encoding is as long as its format says, and none of its bits lies above the format's width. -/
def Statement (i : Instr) : Prop :=
  (encode i).length = (formatOf i).bytes ∧ encodeBits i < 2 ^ (formatOf i).width

/-- `natToBytes k` gives `k` bytes. -/
theorem natToBytes_length (k n : Nat) : (natToBytes k n).length = k := by
  induction k generalizing n with
  | zero => rfl
  | succ k ih => simp only [natToBytes, List.length_cons, ih]

/-- The first half of the statement holds of every instruction. -/
theorem encode_length (i : Instr) : (encode i).length = (formatOf i).bytes :=
  natToBytes_length _ _

theorem cinit : Statement .cinit := ⟨encode_length _, by decide⟩
theorem store (value : Word) : Statement (.store value) :=
  ⟨encode_length _, by have := value.isLt; simp only [encodeBits, formatOf, Format.width]; omega⟩
theorem flush : Statement .flush := ⟨encode_length _, by decide⟩
theorem cmdcReserved : Statement .cmdcReserved := ⟨encode_length _, by decide⟩
theorem dinit : Statement .dinit := ⟨encode_length _, by decide⟩
theorem load (flag : BitVec 8) : Statement (.load flag) :=
  ⟨encode_length _, by have := flag.isLt; simp only [encodeBits, formatOf, Format.width]; omega⟩
theorem cmddReserved2 : Statement .cmddReserved2 := ⟨encode_length _, by decide⟩
theorem cmddReserved3 : Statement .cmddReserved3 := ⟨encode_length _, by decide⟩
theorem recFirst : Statement .recFirst := ⟨encode_length _, by decide⟩
theorem recIdent : Statement .recIdent := ⟨encode_length _, by decide⟩
theorem recTrail : Statement .recTrail := ⟨encode_length _, by decide⟩
theorem recLzeq : Statement .recLzeq := ⟨encode_length _, by decide⟩
theorem recLzload : Statement .recLzload := ⟨encode_length _, by decide⟩
theorem recCorrupt (flag : BitVec 8) : Statement (.recCorrupt flag) := ⟨encode_length _, flag.isLt⟩
theorem pdrec (rec : BitVec 16) : Statement (.pdrec rec) := ⟨encode_length _, rec.isLt⟩

end Sys2Proof.Laws.EncodeFits
end

