-- ==== Sys2Proof/Tests/Slice0.lean ====
section
/-! SUPPORT. Tests of single operations against the spec's own numbers (95_test_vectors.md and the examples in the rules),
and, for every obligation that has hypotheses, a concrete state that meets them (`witness_…`). -/

namespace Sys2Proof.Tests

set_option Elab.async false

open Sys2Proof Sys2Proof.Machine

/-! ### Small states -/

/-- pi, the value `A` of 95_test_vectors.md. -/
def valA : Word := 0x400921FB54442D18

/-- A FRESH compressor unit with the given build parameters. -/
def freshWith (p : CmpParams) : Cmp := Cmp.initial p 0

/-- A FRESH compressor unit with the defaults. -/
def fresh : Cmp := freshWith CmpParams.default

/-- A compressor unit that has stored `A`. -/
def afterA : Cmp := fresh.store valA

/-- The same unit with other parameters or in measurement mode. -/
def afterAWith (p : CmpParams) : Cmp := { afterA with params := p }

/-- A compressor unit that has stored `A` and `A XOR 1` (V-R4): `s.prev_lz = 7`. -/
def afterTwo : Cmp := afterA.store (valA ^^^ 1)

/-- The defaults with one capacity each. -/
def bsCap (n : Nat) : CmpParams := { CmpParams.default with bsCapBits := some n }
def fbCap (n : Nat) : CmpParams := { CmpParams.default with fbCap := some n }
def lzbCap (n : Nat) : CmpParams := { CmpParams.default with lzbCap := some n }
def pdbCap (n : Nat) : CmpParams := { CmpParams.default with pdbCap := some n }

/-- A FAULTED compressor unit. -/
def faultedC : Cmp := { fresh with fault := true, cause := 7 }

/-- A FRESH decompressor unit whose Bit Stream holds the low `n` bits of a value. -/
def loaded (n : Nat) (v : Word) : Dec :=
  { Dec.initial DecParams.default 0 with bs := Memory.writeBits [] 0 n v, bsLen := n }

/-- An ACTIVE decompressor unit that has decoded `A`, with a further field of `n` bits, one Leading-Zero entry and one
packed record before it. -/
def decA (n : Nat) (v : Word) (sel : BitVec 3) (rec : BitVec 16) : Dec :=
  { Dec.initial DecParams.default 0 with
    ring := Ring.put (Dec.initial DecParams.default 0).ring 0 valA, first := false, refValue := valA, result := valA
    resultValid := true, bsRpos := 64, bs := Memory.writeBits [] 64 n v, bsLen := 64 + n
    lza := [(0, sel)], lzLen := 1, pda := [(0, rec)], pdLen := 1 }

/-- A FAULTED decompressor unit. -/
def faultedD : Dec := { Dec.initial DecParams.default 0 with fault := true, cause := 1 }

/-- A block with these units alone. -/
def block (c : Cmp) (d : Dec) : State := { State.reset with cmps := [c], decs := [d] }

/-- What the addressed units look like after an instruction. -/
def cmpAfter (i : Instr) (c : Cmp) : Option Cmp :=
  match exec i (block c (loaded 0 0)) with
  | .next t => t.cmps[0]?
  | _ => none

def decAfter (i : Instr) (d : Dec) : Option Dec :=
  match exec i (block fresh d) with
  | .next t => t.decs[0]?
  | _ => none

/-! ### Well-formedness: the one check -/

theorem test_wf_refuses_the_branch_tags : Instr.wf (.recCorrupt 0) = false ∧ Instr.wf (.recCorrupt 1) = false ∧
    Instr.wf (.recCorrupt 2) = false ∧ Instr.wf (.recCorrupt 3) = false := by decide
theorem test_wf_accepts_the_other_flags : Instr.wf (.recCorrupt 4) = true ∧ Instr.wf (.recCorrupt 255) = true := by decide

/-! ### Decoding: a word written out from its encoding for every constructor (30_encoding.md R91 to R101, R109) -/

theorem test_decode_cinit : decodeBytes .cmdc [0x11, 0, 0, 0, 0, 0, 0, 0x80, 0b00] = .ok .cinit := by decide
theorem test_decode_store :
    decodeBytes .cmdc [0x18, 0x2D, 0x44, 0x54, 0xFB, 0x21, 0x09, 0x40, 0b01] = .ok (.store 0x400921FB54442D18) := by
  decide
theorem test_decode_flush : decodeBytes .cmdc [0xFF, 0, 0, 0, 0, 0, 0, 0, 0b10] = .ok .flush := by decide
theorem test_decode_cmdcReserved : decodeBytes .cmdc [0, 0, 0, 0, 0, 0, 0, 0, 0b11] = .ok .cmdcReserved := by decide
theorem test_decode_dinit : decodeBytes .cmdd [0xFF, 0b00] = .ok .dinit := by decide
theorem test_decode_load : decodeBytes .cmdd [0x04, 0b01] = .ok (.load 4) := by decide
theorem test_decode_cmddReserved2 : decodeBytes .cmdd [0, 0b10] = .ok .cmddReserved2 := by decide
theorem test_decode_cmddReserved3 : decodeBytes .cmdd [0, 0b11] = .ok .cmddReserved3 := by decide
theorem test_decode_recFirst : decodeBytes (.record true) [0b11] = .ok .recFirst := by decide
theorem test_decode_recIdent : decodeBytes (.record false) [0b00] = .ok .recIdent := by decide
theorem test_decode_recTrail : decodeBytes (.record false) [0b01] = .ok .recTrail := by decide
theorem test_decode_recLzeq : decodeBytes (.record false) [0b10] = .ok .recLzeq := by decide
theorem test_decode_recLzload : decodeBytes (.record false) [0b11] = .ok .recLzload := by decide
theorem test_decode_recCorrupt : decodeBytes (.record false) [0x80] = .ok (.recCorrupt 0x80) := by decide
theorem test_decode_pdrec : decodeBytes .pd16 [0x20, 0x07] = .ok (.pdrec 0x0720) := by decide
theorem test_decode_refuses : decodeBytes .cmdd [0] = .error .wrongLength ∧
    decodeBytes .cmdc [0, 0, 0, 0, 0, 0, 0, 0, 4] = .error .excessBits := by decide

/-- The host's numbering of a table word: bit 0 is the least significant bit (R109: `CMDC` mask `3 << 64`). -/
theorem test_table_words : decodeTableWord 72 (2 ^ 64 + 5) = some (.store 5) ∧ decodeTableWord 16 0x103 = some (.load 3) ∧
    decodeTableWord 8 3 = some .recLzload ∧ decodeTableWord 16 0x0720 = some (.pdrec 0x0720) := by decide

/-- A table word is the next step's instruction. -/
theorem test_fetch_store : step (State.reset.withFetchWord 72 (2 ^ 64 + 5)) = exec (.store 5) State.reset := by rfl
theorem test_fetch_flush : step (State.reset.withFetchWord 72 (2 * 2 ^ 64)) = exec .flush State.reset := by rfl

/-! ### Primitives (V-K, V-R) -/

/-- V-K1. -/
theorem test_pack : packRecord .msb0 131 4 32 = 0x0720 ∧ packRecord .lsb0 131 4 32 = 0x8203 ∧
    packRecord .msb0 255 0 50 = 0xFE32 ∧ packRecord .lsb0 133 3 22 = 0x5985 := by decide
theorem test_unpack : unpackRecord .msb0 0x01D4 = (0, 7, 20) ∧ unpackRecord .lsb0 0x8203 = (3, 4, 32) := by decide
/-- V-K2. -/
theorem test_zero_counts : clz64 0x7FF0000000000000 = 1 ∧ ctz64 0x7FF0000000000000 = 52 ∧ clz64 0x500000 = 41 ∧
    ctz64 0x500000 = 20 ∧ clz64 0 = 64 ∧ ctz64 0 = 64 := by decide +kernel
theorem test_bucketSel : [7, 8, 11, 12, 15, 16, 17, 18, 19, 20, 21, 22, 23, 24, 63].map bucketSel
    = [0, 1, 1, 2, 2, 3, 3, 4, 4, 5, 5, 6, 6, 7, 7] := by decide
/-- V-K3. -/
theorem test_key : keyOf (.high 14) 0x3FF0000000000000 = 0x0FFC ∧ keyOf (.high 14) 0xC05EDD2F1A9FBE77 = 0x3017 := by
  decide +kernel
/-- V-K4. -/
theorem test_bit_stream : ((fresh.bsWrite 5 3).bsWrite 1 2).bsFlush.bsImage = [0xA8] := by decide +kernel
theorem test_bit_stream_read :
    Dec.bsReadAll (loaded 5 0b10101) [3, 2] = .ok ([5, 1], { loaded 5 0b10101 with bsRpos := 5 }) ∧
    (match Dec.bsReadAll (loaded 5 0b10101) [3, 2, 1] with
      | .error e => decide (e = .bitStreamExhausted 5) | .ok _ => false) = true := by
  constructor <;> rfl
/-- V-R2. -/
theorem test_value_validity : (match (decA 0 0 0 0).value 1 with | .error _ => true | .ok _ => false) = true ∧
    (match (decA 0 0 0 0).value 0 with | .error _ => false | .ok v => decide (v = valA)) = true := by decide +kernel

/-! ### The compressor unit (V-C) -/

/-- V-C1. -/
theorem test_store_first : (cmpAfter (.store valA) fresh).map (fun c =>
    (c.bsImage, c.size, c.first, c.fbCount, Ring.get c.ring 0))
    = some ([0x40, 0x09, 0x21, 0xFB, 0x54, 0x44, 0x2D, 0x18], 0, false, 0, valA) := by decide +kernel
/-- V-C4: `t = 14` is above the threshold. -/
theorem test_store_trail :
    (cmpAfter (.store (valA ^^^ 0x4000)) afterA).map (fun c => c.bsFlush.bsImage)
      = some [0x40, 0x09, 0x21, 0xFB, 0x54, 0x44, 0x2D, 0x18, 0, 0, 0, 0x40] ∧
    (cmpAfter (.store (valA ^^^ 0x4000)) afterA).map (fun c => (c.bsWpos, c.fb, c.pdb))
      = some (90, [(0, 1)], [(0, 0x01DA)]) := by decide +kernel
/-- V-R4 and V-C3: the flags 3, 2 of a pair of near neighbours, and the threshold at `t = 13`. -/
theorem test_store_lzeq :
    (cmpAfter (.store (valA ^^^ 0x100000)) afterTwo).map (fun c => c.bsImage)
      = some [0x40, 0x09, 0x21, 0xFB, 0x54, 0x44, 0x2D, 0x18, 0, 0, 0, 0, 1, 0, 0, 0x10, 0, 1] ∧
    (cmpAfter (.store (valA ^^^ 0x100000)) afterTwo).map (fun c => (c.fb, c.lzb, c.prevLz))
      = some ([(0, 3), (1, 2)], [(0, 7)], some 7) := by decide +kernel
theorem test_store_lzload :
    (cmpAfter (.store (valA ^^^ 0x2000)) afterA).map (fun c => (c.bsWpos, c.lzb, c.prevLz))
      = some (104, [(0, 7)], some 7) := by decide +kernel
/-- R178's example. -/
theorem test_store_identical : (cmpAfter (.store valA) afterA).map (fun c => (c.bsWpos, c.fb, c.size, Ring.get c.ring 1))
    = some (71, [(0, 0)], 1, valA) := by decide +kernel
/-- V-C10: `BS_CAP_BITS = 70` does not hold a second value of 7 bits, 71 does. -/
theorem test_store_overflow : (cmpAfter (.store valA) (afterAWith (bsCap 70))).map (fun c => (c.fault, c.cause))
    = some (true, 8) ∧ (cmpAfter (.store valA) (afterAWith (bsCap 71))).map Cmp.fault = some false := by decide +kernel
/-- V-C2. -/
theorem test_flush_fresh : (cmpAfter .flush fresh).map (fun c => (c.bsWpos, cmpStatus c)) = some (0, 0x03) := by
  decide +kernel
/-- V-C11. -/
theorem test_flush_twice : (cmpAfter .flush fresh.flush).map (fun c => (c.fault, c.cause)) = some (true, 7) := by
  decide +kernel
theorem test_reserved_c : (cmpAfter .cmdcReserved fresh).map Cmp.cause = some 7 ∧
    cmpAfter .cmdcReserved faultedC = some faultedC := by decide +kernel
theorem test_cinit_recovers : (cmpAfter .cinit faultedC).map (fun c => (cmpStatus c, c.cause)) = some (0x01, 0) := by
  decide +kernel

/-! ### The decompressor unit (V-D, V-F) -/

/-- V-D1. -/
theorem test_load_first : (decAfter (.load 255) (loaded 64 0x3FF0000000000000)).map (fun d =>
    (d.result, d.bsRpos, d.size, decStatus d)) = some (0x3FF0000000000000, 64, 0, 0x10) := by decide +kernel
/-- V-F1: a flag of 4. -/
theorem test_load_corrupt : (decAfter (.load 4) (decA 7 0 0 0)).map (fun d => (d.fault, d.cause, d.resultValid))
    = some (true, 1, false) := by decide +kernel
/-- R205: index 0 repeats the value, index 1 is out of range. -/
theorem test_rec_ident : (decAfter .recIdent (decA 7 0 0 0)).map (fun d => (d.result, d.size)) = some (valA, 1) ∧
    (decAfter .recIdent (decA 7 1 0 0)).map Dec.cause = some 2 := by decide +kernel
/-- R231's codes 3 to 5: no bits left; each side array at its end; a record with `sig = 0`. -/
theorem test_load_fault_codes : (decAfter (.load 0) (decA 6 0 0 0)).map Dec.cause = some 3 ∧
    (decAfter (.load 1) { decA 20 0 0 0x01D4 with pdCursor := 1 }).map Dec.cause = some 4 ∧
    (decAfter (.load 3) { decA 64 0 0 0 with lzCursor := 1 }).map Dec.cause = some 4 ∧
    (decAfter (.load 1) (decA 20 0 0 0x01C0)).map Dec.cause = some 5 := by decide +kernel
/-- V-D3. -/
theorem test_rec_trail : (decAfter .recTrail (decA 20 0x00005 0 0x01D4)).map (fun d =>
    (d.result, d.curLz, d.curTz, d.pdCursor, d.bsRpos)) = some (0x400921FB54142D18, some 24, some 20, 1, 84) := by
  decide +kernel
/-- R207's example, and the counter unset. -/
theorem test_rec_lzeq :
    (decAfter .recLzeq { decA 40 0x0F0F 0 0 with curLz := some 24, refValue := 0x400921FB54443F2C }).map Dec.result
      = some 0x400921FB54443023 ∧ (decAfter .recLzeq (decA 40 0 0 0)).map Dec.cause = some 6 := by decide +kernel
/-- R208's example. -/
theorem test_rec_lzload :
    (decAfter .recLzload { decA 64 0x7FF0000000000000 0 0 with refValue := 0x3FF0000000000000 }).map (fun d =>
      (d.result, d.curLz, d.lzCursor)) = some (0x4000000000000000, some 0, 1) := by decide +kernel
theorem test_rec_first : (decAfter .recFirst (loaded 64 valA)).map Dec.result = some valA := by decide +kernel
theorem test_rec_corrupt : (decAfter (.recCorrupt 4) (decA 0 0 0 0)).map Dec.cause = some 1 := by decide +kernel
theorem test_reserved_d : (decAfter .cmddReserved2 (decA 0 0 0 0)).map Dec.cause = some 7 ∧
    (decAfter .cmddReserved3 (decA 0 0 0 0)).map Dec.cause = some 7 := by decide +kernel
theorem test_dinit : (decAfter .dinit faultedD).map (fun d => (decStatus d, d.cause, d.bsRpos)) = some (0x01, 0, 0) := by
  decide +kernel
theorem test_pdrec : exec (.pdrec 0x01D4) State.reset = .refused .dataFormat := by rfl

/-! ### Witnesses: for every obligation with hypotheses, a state that meets them together, for each clause -/

theorem witness_CommandWordsOfDecompressor : AtDec State.reset (Dec.initial DecParams.default 0) ∧
    (Dec.initial DecParams.default 0).first = true := ⟨rfl, rfl⟩
theorem witness_DecodeOfEncode : Instr.wf (.recCorrupt 4) = true ∧ Instr.wf (.pdrec 0xFFFF) = true := by decide
theorem witness_DecodedInstructionsAreWellFormed : decodeBytes .cmdd [4, 1] = .ok (.load 4) := by decide
theorem witness_StepRunsDecodedInstruction :
    ({ State.reset with inbox := [.commandC 0 0] } : State).inbox = .commandC 0 0 :: [] ∧
    ({ State.reset with inbox := [.commandD 0 0] } : State).inbox = .commandD 0 0 :: [] ∧
    (State.reset.decs[0]? = some (Dec.initial DecParams.default 0) ∧
      ({ State.reset with inbox := [.record 0 1] } : State).inbox = .record 0 1 :: []) ∧
    ({ State.reset with inbox := [.data 0 0] } : State).inbox = .data 0 0 :: [] ∧
    (({ State.reset with inbox := [.reset] } : State).inbox = .reset :: [] ∧
      actionInstr { State.reset with inbox := [.reset] } .reset = none) :=
  ⟨rfl, rfl, ⟨rfl, rfl⟩, rfl, rfl, rfl⟩
theorem witness_IdleStepHoldsState : State.reset.inbox = [] := rfl
theorem witness_LoadRunsSelectedRecord : 4 ≤ (4 : BitVec 8).toNat ∧ 4 ≤ (255 : BitVec 8).toNat ∧
    AtDec State.reset (Dec.initial DecParams.default 0) :=
  ⟨by decide, by decide, rfl⟩
theorem witness_RecordsAreLoadsOfTheirFlag : 4 ≤ (4 : BitVec 8).toNat ∧
    (AtDec (block fresh (loaded 64 valA)) (loaded 64 valA) ∧ (loaded 64 valA).fault = false ∧
      (loaded 64 valA).first = true) ∧
    (AtDec (block fresh (decA 0 0 0 0)) (decA 0 0 0 0) ∧ (decA 0 0 0 0).fault = false ∧
      (decA 0 0 0 0).first = false) :=
  ⟨by decide, ⟨rfl, by decide +kernel⟩, rfl, by decide +kernel⟩
theorem witness_ZeroCounts : (1 : Word) ≠ 0 ∧ (0x8000000000000000 : Word) ≠ 0 := by decide
theorem witness_BucketSelectsLowerBound : (0 ≤ 63 ∧ bucket 0 ≤ 0) ∧ (63 ≤ 63 ∧ bucket 7 ≤ 63) ∧ 23 ≤ 24 ∧
    (1 : Word) ≠ 0 := by decide
theorem witness_SignificantBitsRange : ((0x4000 : Word) ≠ 0 ∧ 14 ≤ ctz64 0x4000) ∧
    ((0x8000000000000000 : Word) ≠ 0 ∧ 14 ≤ ctz64 0x8000000000000000) := by decide +kernel
theorem witness_PackedRecordRoundTrip : 0 < 256 ∧ 255 < 256 := by decide
theorem witness_KeyDependsOnHighBits : (1 ≤ 1 ∧ 1 ≤ 64 ∧ (5 : Word) >>> (64 - 1) = (7 : Word) >>> (64 - 1)) ∧
    (1 ≤ 64 ∧ 64 ≤ 64 ∧ (5 : Word) >>> (64 - 64) = (5 : Word) >>> (64 - 64)) := by decide
theorem witness_InsertWritesNewestSlot : 0 < 128 ∧ 127 < 128 := by decide
theorem witness_IndexOfFindsNewestLive : fresh.first = true ∧ afterTwo.first = false ∧
    afterTwo.indexOf (keyOf (.high 14) valA) = some 1 ∧ afterTwo.indexOf 0 = none := by decide +kernel
theorem witness_AppendsWriteAtTheCount : (1 ≤ 1 ∧ 1 ≤ 64) ∧ (1 ≤ 64 ∧ 64 ≤ 64) ∧ fresh.measure = false ∧
    ({ fresh with measure := true } : Cmp).measure = true := by decide
theorem witness_FieldsReadBackInOrder :
    (∀ f ∈ [((5 : Word), 3), (1, 2)], 1 ≤ f.2 ∧ f.2 ≤ 64) ∧ fresh.measure = false ∧ (loaded 5 0b10101).bsRpos = fresh.bsWpos ∧
    (∀ a x, Memory.read ([((5 : Word), 3), (1, 2)].foldl (fun c f => c.bsWrite f.1 f.2) fresh).bs a = some x →
      Memory.read (loaded 5 0b10101).bs a = some x) ∧
    ([((5 : Word), 3), (1, 2)].foldl (fun c f => c.bsWrite f.1 f.2) fresh).bsWpos ≤ (loaded 5 0b10101).bsLen :=
  ⟨by decide, by decide, by decide, fun _ _ h => h, by decide⟩
theorem witness_ByteImageIsMsbFirst : 1 ≤ 3 ∧ (byteImage 3 fun _ => (5 : BitVec 3))[8 / 8]? = some 0x80 := by decide
theorem witness_CinitStartsStream : AtCmp (block faultedC faultedD) faultedC ∧ faultedC.config = 0 :=
  ⟨rfl, rfl⟩
theorem witness_ReferenceSelection :
    (afterA.indexOf (keyOf afterA.params.key (valA ^^^ 0x4000)) = some 0 ∧
      13 < ctz64 ((valA ^^^ 0x4000) ^^^ Ring.get afterA.ring 0)) ∧
    (afterA.indexOf (keyOf afterA.params.key (valA ^^^ 0x2000)) = some 0 ∧
      ctz64 ((valA ^^^ 0x2000) ^^^ Ring.get afterA.ring 0) ≤ 13) ∧
    afterA.indexOf (keyOf afterA.params.key 0) = none ∧ (afterA.reference (valA ^^^ 0x4000)).2 = true := by
  decide +kernel
theorem witness_StoreFirstValue :
    (AtCmp (block fresh faultedD) fresh ∧ fresh.fault = false ∧ fresh.flushed = false ∧ fresh.first = true ∧
      exceeds fresh.params.bsCapBits (fresh.bsWpos + 64) = false) ∧
    exceeds (bsCap 64).bsCapBits ((freshWith (bsCap 64)).bsWpos + 64) = false ∧
    (AtCmp (block (freshWith (bsCap 63)) faultedD) (freshWith (bsCap 63)) ∧ (freshWith (bsCap 63)).fault = false ∧
      (freshWith (bsCap 63)).flushed = false ∧ (freshWith (bsCap 63)).first = true ∧
      (freshWith (bsCap 63)).measure = false ∧
      exceeds (freshWith (bsCap 63)).params.bsCapBits ((freshWith (bsCap 63)).bsWpos + 64) = true) :=
  ⟨⟨rfl, by decide +kernel⟩, by decide +kernel, rfl, by decide +kernel⟩
theorem witness_StoreIdenticalValue : AtCmp (block afterA faultedD) afterA ∧ afterA.fault = false ∧
    afterA.flushed = false ∧ afterA.first = false ∧ afterA.storePath valA = .ident ∧ afterA.roomFor 7 :=
  ⟨rfl, by decide +kernel⟩
theorem witness_StoreTrailingExceeds : AtCmp (block afterA faultedD) afterA ∧ afterA.fault = false ∧
    afterA.flushed = false ∧ afterA.first = false ∧ afterA.storePath (valA ^^^ 0x4000) = .trail ∧
    0x4000 = afterA.xorResult (valA ^^^ 0x4000) ∧ 7 = bucketSel (clz64 0x4000) ∧ 26 = 64 - bucket 7 - ctz64 0x4000 ∧
    afterA.roomFor 26 ∧ exceeds afterA.params.pdbCap (afterA.pdbCount + 1) = false :=
  ⟨rfl, by decide +kernel⟩
theorem witness_StoreLeadingZeroEquality : AtCmp (block afterTwo faultedD) afterTwo ∧ afterTwo.fault = false ∧
    afterTwo.flushed = false ∧ afterTwo.first = false ∧ afterTwo.storePath (valA ^^^ 0x100000) = .lzeq ∧
    0x100001 = afterTwo.xorResult (valA ^^^ 0x100000) ∧ 7 = bucketSel (clz64 0x100001) ∧
    afterTwo.roomFor (64 - bucket 7) :=
  ⟨rfl, by decide +kernel⟩
theorem witness_StoreLeadingZeroLoad : AtCmp (block afterA faultedD) afterA ∧ afterA.fault = false ∧
    afterA.flushed = false ∧ afterA.first = false ∧ afterA.storePath (valA ^^^ 0x2000) = .lzload ∧
    0x2000 = afterA.xorResult (valA ^^^ 0x2000) ∧ 7 = bucketSel (clz64 0x2000) ∧ afterA.roomFor (64 - bucket 7) ∧
    exceeds afterA.params.lzbCap (afterA.lzbCount + 1) = false :=
  ⟨rfl, by decide +kernel⟩
theorem witness_FieldWidthsByPath : fresh.first = true ∧ afterA.first = false ∧ afterTwo.first = false ∧
    afterA.storePath valA = .ident ∧ afterA.storePath (valA ^^^ 0x4000) = .trail ∧
    afterTwo.storePath (valA ^^^ 0x100000) = .lzeq ∧ afterA.storePath (valA ^^^ 0x2000) = .lzload := by decide +kernel
theorem witness_MeasurementModeCounts : ({ afterA with measure := true } : Cmp).measure = true ∧
    ({ afterA with measure := true } : Cmp).flushed = false := by decide +kernel
theorem witness_StorePrologue :
    (AtCmp (block faultedC faultedD) faultedC ∧ faultedC.fault = true) ∧
    (AtCmp (block fresh.flush faultedD) fresh.flush ∧ fresh.flush.fault = false ∧ fresh.flush.flushed = true) ∧
    (∀ c ∈ [afterAWith (bsCap 70), afterAWith (fbCap 0)], AtCmp (block c faultedD) c ∧ c.fault = false ∧
      c.flushed = false ∧ c.lacks (c.emission valA)) ∧
    (afterAWith (lzbCap 0)).lacks ((afterAWith (lzbCap 0)).emission (valA ^^^ 0x2000)) ∧
    (afterAWith (pdbCap 0)).lacks ((afterAWith (pdbCap 0)).emission (valA ^^^ 0x4000)) ∧
    (∀ c ∈ [afterAWith (bsCap 71), afterAWith (fbCap 1), { afterAWith (bsCap 0) with measure := true }],
      AtCmp (block c faultedD) c ∧ c.fault = false ∧ c.flushed = false ∧ ¬ c.lacks (c.emission valA)) :=
  ⟨⟨rfl, rfl⟩, ⟨rfl, by decide +kernel⟩, fun c hc => ⟨rfl, by revert c; decide +kernel⟩, by decide +kernel,
    by decide +kernel, fun c hc => ⟨rfl, by revert c; decide +kernel⟩⟩
theorem witness_FlushPadsToByte :
    (AtCmp (block faultedC faultedD) faultedC ∧ 0 = (8 - faultedC.bsWpos % 8) % 8 ∧ faultedC.fault = true) ∧
    (AtCmp (block fresh.flush faultedD) fresh.flush ∧ 0 = (8 - fresh.flush.bsWpos % 8) % 8 ∧
      fresh.flush.fault = false ∧ fresh.flush.flushed = true) ∧
    (∀ c ∈ [{ fresh with bsWpos := 135, params := bsCap 135 }], AtCmp (block c faultedD) c ∧
      1 = (8 - c.bsWpos % 8) % 8 ∧ c.fault = false ∧ c.flushed = false ∧ c.measure = false ∧
      exceeds c.params.bsCapBits (c.bsWpos + 1) = true) ∧
    (∀ c ∈ [{ fresh with bsWpos := 135, params := bsCap 136 }], AtCmp (block c faultedD) c ∧
      1 = (8 - c.bsWpos % 8) % 8 ∧ c.fault = false ∧ c.flushed = false ∧
      exceeds c.params.bsCapBits (c.bsWpos + 1) = false) :=
  ⟨⟨rfl, by decide +kernel⟩, ⟨rfl, by decide +kernel⟩, fun c hc => ⟨rfl, by revert c; decide +kernel⟩,
    fun c hc => ⟨rfl, by revert c; decide +kernel⟩⟩
theorem witness_ReservedCodesAreIllegal : AtCmp State.reset (Cmp.initial CmpParams.default 0) ∧
    AtDec State.reset (Dec.initial DecParams.default 0) ∧ (Cmp.initial CmpParams.default 0).fault = false ∧
    (Dec.initial DecParams.default 0).fault = false := ⟨rfl, rfl, rfl, rfl⟩
theorem witness_UnboundedCompressorNeverFaults : AtCmp (block afterA faultedD) afterA ∧ afterA.fault = false ∧
    afterA.flushed = false ∧ afterA.unbounded :=
  ⟨rfl, by decide +kernel, by decide +kernel, by decide +kernel, by decide +kernel, by decide +kernel, by decide +kernel⟩
theorem witness_IdenticalRunTakesIdent : AtCmp (block afterA faultedD) afterA ∧ afterA.fault = false ∧
    afterA.flushed = false ∧ afterA.first = false ∧ afterA.measure = false ∧ Ring.get afterA.ring afterA.size = valA :=
  ⟨rfl, by decide +kernel⟩
theorem witness_DinitStartsStream : AtDec (block faultedC faultedD) faultedD := rfl
theorem witness_LoadFirstRecord : AtDec (block fresh (loaded 64 valA)) (loaded 64 valA) ∧
    (loaded 64 valA).fault = false ∧ (loaded 64 valA).first = true ∧
    valA = readField (loaded 64 valA).bsBit (loaded 64 valA).bsRpos 64 ∧
    (loaded 64 valA).bsRpos + 64 ≤ (loaded 64 valA).bsLen ∧
    (∀ d ∈ [{ loaded 64 valA with bsLen := 63 }], d.fault = false ∧ d.first = true ∧ d.bsLen < d.bsRpos + 64) :=
  ⟨rfl, by decide +kernel⟩
theorem witness_LoadIdenticalRecord :
    (∀ d ∈ [decA 7 0 0 0, decA 7 1 0 0, { decA 7 0 0 0 with bsLen := 70 }],
      AtDec (block fresh d) d ∧ d.fault = false ∧ d.first = false) ∧
    ({ decA 7 0 0 0 with bsLen := 70 } : Dec).bsLen < 64 + 7 ∧
    (readField (decA 7 1 0 0).bsBit 64 7).toNat = 1 ∧ min (decA 7 1 0 0).size 127 < 1 ∧
    (readField (decA 7 0 0 0).bsBit 64 7).toNat = 0 ∧ (decA 7 0 0 0).bsRpos + 7 ≤ (decA 7 0 0 0).bsLen ∧
    0 ≤ min (decA 7 0 0 0).size 127 :=
  ⟨fun d hd => ⟨rfl, by revert d; decide +kernel⟩, by decide +kernel⟩
/-- Records under `MSB0`: index 0, selector 7, `sig` 20, 0, 41 (one too many for selector 7), 40; index 1, `sig` 20. -/
theorem witness_LoadTrailingRecord :
    (∀ d ∈ [decA 20 5 0 0x01D4, decA 20 5 0 0x01C0, decA 20 5 0 0x01E9, decA 19 5 0 0x01D4, decA 20 5 0 0x03D4,
        { decA 20 5 0 0x01D4 with pdLen := 0 }],
      AtDec (block fresh d) d ∧ d.fault = false ∧ d.first = false) ∧
    unpackRecord .msb0 ((decA 20 5 0 0x01D4).pdaElem 0) = (0, 7, 20) ∧
    unpackRecord .msb0 ((decA 20 5 0 0x01C0).pdaElem 0) = (0, 7, 0) ∧
    unpackRecord .msb0 ((decA 20 5 0 0x01E9).pdaElem 0) = (0, 7, 41) ∧ 64 < 41 + bucket 7 ∧ 40 + bucket 7 ≤ 64 ∧
    (decA 19 5 0 0x01D4).bsLen < 64 + 20 ∧ unpackRecord .msb0 ((decA 20 5 0 0x03D4).pdaElem 0) = (1, 7, 20) ∧
    min (decA 20 5 0 0x03D4).size 127 < 1 ∧ (decA 20 5 0 0x01D4).bsRpos + 20 ≤ (decA 20 5 0 0x01D4).bsLen :=
  ⟨fun d hd => ⟨rfl, by revert d; decide +kernel⟩, by decide +kernel⟩
theorem witness_LoadLeadingZeroEquality :
    (∀ d ∈ [decA 40 5 0 0, { decA 40 5 0 0 with curLz := some 24 }, { decA 39 5 0 0 with curLz := some 24 }],
      AtDec (block fresh d) d ∧ d.fault = false ∧ d.first = false) ∧
    (decA 40 5 0 0).curLz = none ∧ (decA 39 5 0 0).bsLen < 64 + (64 - 24) ∧ 64 + (64 - 24) ≤ (decA 40 5 0 0).bsLen :=
  ⟨fun d hd => ⟨rfl, by revert d; decide +kernel⟩, by decide +kernel⟩
theorem witness_LoadLeadingZeroLoad :
    (∀ d ∈ [decA 40 5 7 0, decA 39 5 7 0, { decA 40 5 7 0 with lzLen := 0 }],
      AtDec (block fresh d) d ∧ d.fault = false ∧ d.first = false ∧ 24 = bucket (d.lzaElem d.lzCursor)) ∧
    (decA 40 5 7 0).lzCursor < (decA 40 5 7 0).lzLen ∧ (decA 39 5 7 0).bsLen < 64 + (64 - 24) ∧
    64 + (64 - 24) ≤ (decA 40 5 7 0).bsLen :=
  ⟨fun d hd => ⟨rfl, by revert d; decide +kernel⟩, by decide +kernel⟩
theorem witness_CorruptFlagIsFatal :
    (AtDec (block fresh (decA 0 0 0 0)) (decA 0 0 0 0) ∧ (decA 0 0 0 0).fault = false ∧ 4 ≤ (4 : BitVec 8).toNat ∧
      (decA 0 0 0 0).first = false) ∧
    (AtDec (block fresh (loaded 64 valA)) (loaded 64 valA) ∧ (loaded 64 valA).fault = false ∧
      4 ≤ (255 : BitVec 8).toNat ∧ (loaded 64 valA).first = true) :=
  ⟨⟨rfl, by decide +kernel⟩, rfl, by decide +kernel⟩
theorem witness_FaultedUnitIgnoresCommands :
    (AtCmp (block faultedC faultedD) faultedC ∧ faultedC.fault = true ∧ formatOf (.store 0) = .cmdc ∧
      Instr.store 0 ≠ .cinit) ∧
    (AtDec (block faultedC faultedD) faultedD ∧ faultedD.fault = true ∧ formatOf (.load 0) = .cmdd ∧
      formatOf .recFirst = .record true ∧ formatOf .recIdent = .record false ∧ Instr.load 0 ≠ .dinit) :=
  ⟨⟨rfl, by decide +kernel⟩, rfl, by decide +kernel⟩
theorem witness_OnlyInitialisationLeavesFaulted :
    (∃ s t c1, step s = .next t ∧ s.cmps[0]? = some faultedC ∧ t.cmps[0]? = some c1 ∧ faultedC.fault = true ∧
      c1.fault = false) ∧
    (∃ s t d1, step s = .next t ∧ s.decs[0]? = some faultedD ∧ t.decs[0]? = some d1 ∧ faultedD.fault = true ∧
      d1.fault = true) :=
  ⟨⟨{ block faultedC faultedD with inbox := [.commandC 0 0] }, _, _, rfl, rfl, rfl, rfl, rfl⟩,
    ⟨{ block faultedC faultedD with inbox := [.commandD 0 0x100] }, _, _, rfl, rfl, rfl, rfl, rfl⟩⟩
theorem witness_CompressorRegisters : (AtCmp (block afterA faultedD) afterA ∧ afterA.fault = false) ∧
    (AtCmp (block faultedC faultedD) faultedC ∧ faultedC.fault = true) ∧
    (∃ t, (0x02 : BitVec 8).toNat < 0x08 ∧ hostAccess (.writeReg 0 0x02 1) (block fresh faultedD) = .next t) :=
  ⟨⟨rfl, by decide +kernel⟩, ⟨rfl, rfl⟩, _, by decide, rfl⟩
theorem witness_DecompressorRegisters :
    (AtDec (block fresh (decA 0 0 0 0)) (decA 0 0 0 0) ∧ (decA 0 0 0 0).fault = false ∧
      (decA 0 0 0 0).resultValid = true) ∧
    (AtDec (block fresh faultedD) faultedD ∧ faultedD.fault = true ∧ faultedD.resultValid = false) ∧
    (∃ t, 0x10 ≤ (0x15 : BitVec 8).toNat ∧ (0x15 : BitVec 8).toNat < 0x1A ∧
      hostAccess (.writeReg 0 0x15 1) (block fresh faultedD) = .next t) :=
  ⟨⟨rfl, by decide +kernel⟩, ⟨rfl, rfl, rfl⟩, _, by decide, by decide, rfl⟩
theorem witness_HostAccessFrames : AtDec (block fresh faultedD) faultedD ∧
    (∃ t, hostAccess (.readReg 0 0x03) (block fresh faultedD) = .next t) ∧
    (∃ t, hostAccess (.readRegion 0 .fb 0) (block afterTwo faultedD) = .next t) :=
  ⟨rfl, ⟨_, rfl⟩, ⟨_, rfl⟩⟩
theorem witness_BitStreamReadAfterFlush :
    (∀ c ∈ [afterA, afterA.flush, afterTwo, afterA.store (valA ^^^ 0x4000)], AtCmp (block c faultedD) c ∧
      c.fault = false ∧ c.measure = false) ∧
    afterA.flushed = false ∧ (afterA.flush.flushed = true ∧ 63 < afterA.flush.bsWpos ∧
      Memory.read afterA.flush.bs 0 = some 0 ∧ Memory.read afterA.flush.bs 63 = some 0) ∧
    (0 < afterTwo.fbCount ∧ Memory.read afterTwo.fb 0 = some 3) ∧
    (0 < afterTwo.lzbCount ∧ Memory.read afterTwo.lzb 0 = some 7) ∧
    (0 < (afterA.store (valA ^^^ 0x4000)).pdbCount ∧
      Memory.read (afterA.store (valA ^^^ 0x4000)).pdb 0 = some 0x01DA) :=
  ⟨fun c hc => ⟨rfl, by revert c; decide +kernel⟩, by decide +kernel⟩
theorem witness_HardwareResetFreshensUnits : (block faultedC faultedD).cmps[0]? = some faultedC ∧
    (block faultedC faultedD).decs[0]? = some faultedD := ⟨rfl, rfl⟩
theorem witness_ResetValues : Cmp.initial CmpParams.default 0 ∈ State.reset.cmps ∧
    Dec.initial DecParams.default 0 ∈ State.reset.decs ∧ (∃ b : Cmp, faultedC.init = b.init) ∧
    (∃ b : Dec, faultedD.init = b.init) := ⟨by simp [State.reset], by simp [State.reset], ⟨_, rfl⟩, ⟨_, rfl⟩⟩
theorem witness_UnitsAreIndependent :
    (∃ t, exec (.store valA) (block fresh faultedD) = .next t) ∧ 1 ≠ (block fresh faultedD).unit ∧
    (∃ s' : State, s'.cmps = [fresh, faultedC] ∧ s'.unit = (block fresh faultedD).unit ∧
      s'.cmps[0]? = (block fresh faultedD).cmps[0]? ∧ s'.decs[0]? = (block fresh faultedD).decs[0]?) :=
  ⟨⟨_, rfl⟩, by decide, { block fresh faultedD with cmps := [fresh, faultedC] }, rfl, rfl, rfl, rfl⟩
theorem witness_ParametersNeverChange :
    ∃ t, step { block fresh faultedD with inbox := [.commandC 0 ((1 : BitVec 2) ++ valA)] } = .next t := ⟨_, rfl⟩

/-- A block of two FAULTED units meets the invariant. -/
theorem faulted_block_inv : (block faultedC faultedD).Inv where
  cmps := by
    intro c hc
    rw [show (block faultedC faultedD).cmps = [faultedC] from rfl, List.mem_singleton] at hc
    subst hc
    exact ⟨⟨.nil, .nil, .nil, .nil, rfl, nofun, fun _ => .inl rfl⟩, nofun, nofun⟩
  decs := by
    intro d hd
    rw [show (block faultedC faultedD).decs = [faultedD] from rfl, List.mem_singleton] at hd
    subst hd
    exact ⟨⟨.nil, .nil, .nil, nofun, nofun, nofun, fun _ => (by decide), fun _ => rfl⟩, nofun⟩
theorem witness_StepKeepsInvariant : ∃ s t, State.Inv s ∧ step s = .next t ∧ t.cmps.map Cmp.fault = [false] :=
  ⟨{ block faultedC faultedD with inbox := [.commandC 0 0] }, _, ⟨faulted_block_inv.cmps, faulted_block_inv.decs⟩, rfl, rfl⟩
theorem witness_CompressorStateAfterStores : AtCmp State.reset (Cmp.initial CmpParams.default 0) ∧
    (∃ t c1, execAll (.cinit :: [].map Instr.store) State.reset = .next t ∧ AtCmp t c1 ∧ c1.fault = false ∧
      c1.measure = false) ∧
    (∃ t c1, execAll (.cinit :: [valA].map Instr.store) State.reset = .next t ∧ AtCmp t c1 ∧ c1.fault = false ∧
      c1.measure = false) :=
  ⟨rfl, ⟨_, _, rfl, rfl, rfl, rfl⟩, _, _, rfl, rfl, rfl, rfl⟩
/-- The same with two values, the second a repeat: one flag. -/
theorem witness_CompressorStateAfterTwoStores : ∃ t c1, AtCmp State.reset (Cmp.initial CmpParams.default 0) ∧
    execAll (.cinit :: [valA, valA].map Instr.store) State.reset = .next t ∧ AtCmp t c1 ∧ c1.fault = false ∧
    c1.measure = false ∧ c1.fbCount = 1 ∧ Memory.read c1.fb 0 = some 0 :=
  ⟨_, _, rfl, rfl, rfl, by decide +kernel, by decide +kernel, by decide +kernel, by decide +kernel⟩
theorem witness_DecompressorStateAfterLoads : ∃ t d1, AtDec (block fresh (loaded 64 valA)) (loaded 64 valA) ∧
    execAll (.dinit :: [0].map Instr.load) (block fresh (loaded 64 valA)) = .next t ∧ AtDec t d1 ∧ d1.fault = false :=
  ⟨_, _, rfl, rfl, rfl, rfl⟩

/-- The compressor unit after `A, A`, and a decompressor unit that holds its stream and has decoded the first value. -/
def afterAA : Cmp := afterA.store valA
def midStream : Dec :=
  { decA 0 0 0 0 with bs := afterAA.bs, bsLen := afterAA.bsWpos, lzLen := 0, pdLen := 0, lza := [], pda := [] }
theorem midStream_inStep : InStep afterA midStream where
  cmpRuns := by decide +kernel
  decRuns := by decide +kernel
  first := by decide +kernel
  size := by decide +kernel
  fresh := by decide +kernel
  slots := by
    intro _ i hi
    have h0 : i = 0 := by have : afterA.size = 0 := by decide +kernel
                          omega
    subst h0; decide +kernel
  reference := by decide +kernel
  bound := by
    intro sel h
    have : afterA.prevLz = none := by decide +kernel
    rw [this] at h; cases h
  bitCursor := by decide +kernel
  selCursor := by decide +kernel
  recordCursor := by decide +kernel
theorem witness_StoreAndLoadStayInStep : AtCmp (block afterA midStream) afterA ∧ AtDec (block afterA midStream) midStream ∧
    InStep afterA midStream ∧ afterA.flushed = false ∧ afterA.measure = false ∧
    exec (.store valA) (block afterA midStream) = .next ((block afterA midStream).setCmp afterAA) ∧
    afterAA.fault = false ∧ Carries midStream afterAA ∧ afterA.first = false ∧ (0 : BitVec 8).toNat < 4 ∧
    Memory.read afterAA.fb afterA.fbCount = some ((0 : BitVec 8).setWidth 2) :=
  ⟨rfl, rfl, midStream_inStep, by decide +kernel, by decide +kernel, by
      rw [show exec (.store valA) (block afterA midStream)
          = onCmp (Cmp.unlessFaulted (Cmp.store valA)) (block afterA midStream) from rfl,
        onCmp_of (c := afterA) rfl, Cmp.unlessFaulted_of_run (by decide +kernel)]
      rfl, by decide +kernel,
    { bits := fun _ _ h => h
      sels := fun _ _ h => by rw [show afterAA.lzb = [] by decide +kernel] at h; cases h
      records := fun _ _ h => by rw [show afterAA.pdb = [] by decide +kernel] at h; cases h
      bitLength := by decide +kernel
      selLength := by decide +kernel
      recordLength := by decide +kernel
      layout := by decide +kernel },
    by decide +kernel, by decide +kernel, by decide +kernel⟩
theorem witness_RoundTrip : AtCmp State.reset (Cmp.initial CmpParams.default 0) ∧
    AtDec State.reset (Dec.initial DecParams.default 0) ∧
    (Cmp.initial CmpParams.default 0).config.getLsbD 0 = false ∧ (Cmp.initial CmpParams.default 0).unbounded ∧
    (Dec.initial DecParams.default 0).params.layout = (Cmp.initial CmpParams.default 0).params.layout ∧
    [valA, 0][1]? = some 0 := ⟨rfl, rfl, rfl, ⟨rfl, rfl, rfl, rfl⟩, rfl, rfl⟩

end Sys2Proof.Tests
end

/-! ## Reset and initialisation values (10_state.md R47, O52)

R47 calls hardware reset an implicit `CINIT` or `DINIT`. The power-on units of the model agree with that up to the elements
the spec leaves unspecified (`Cmp.initial_eq_hardReset`, `Dec.initial_eq_hardReset`), so the values of both are read off
`Cmp.init` and `Dec.init`. -/

section
namespace Sys2Proof.Machine

/-- Every ring slot of a FRESH unit is invalid (10_state.md R21). -/
@[simp] theorem slotValid_first (size i : Nat) : slotValid true size i = false := rfl

@[simp] theorem Cmp.initial_measure (p : CmpParams) (k : Nat) : (Cmp.initial p k).measure = false := rfl
@[simp] theorem Cmp.initial_config (p : CmpParams) (k : Nat) : (Cmp.initial p k).config = 0 := rfl
@[simp] theorem Dec.initial_bsLen (p : DecParams) (k : Nat) : (Dec.initial p k).bsLen = 0 := rfl
@[simp] theorem Dec.initial_lzLen (p : DecParams) (k : Nat) : (Dec.initial p k).lzLen = 0 := rfl
@[simp] theorem Dec.initial_pdLen (p : DecParams) (k : Nat) : (Dec.initial p k).pdLen = 0 := rfl

/-- A hardware reset of a power-on compressor unit changes only the ring, whose contents R47 leaves unspecified, and the
source of free values. -/
theorem Cmp.initial_eq_hardReset (p : CmpParams) (k : Nat) :
    Cmp.initial p k =
      { (Cmp.initial p k).hardReset with ring := (Cmp.initial p k).ring, src := (Cmp.initial p k).src } := by
  simp [Cmp.initial, Cmp.hardReset, Cmp.init]

/-- A hardware reset of a power-on decompressor unit changes only the ring, `s.ref_value` and `s.result`, which R47 leaves
unspecified, and the sources of free values. -/
theorem Dec.initial_eq_hardReset (p : DecParams) (k : Nat) :
    Dec.initial p k =
      { (Dec.initial p k).hardReset with
        ring := (Dec.initial p k).ring
        refValue := (Dec.initial p k).refValue
        result := (Dec.initial p k).result
        src := (Dec.initial p k).src
        memSrc := (Dec.initial p k).memSrc } := rfl

theorem mem_reset_cmps {c : Cmp} : c ∈ State.reset.cmps ↔ c = Cmp.initial CmpParams.default 0 :=
  List.mem_singleton

theorem mem_reset_decs {d : Dec} : d ∈ State.reset.decs ↔ d = Dec.initial DecParams.default 0 :=
  List.mem_singleton

/-- A compressor unit of the reset state or after `CINIT` is an initialised unit, but for its ring and its source of free
values. -/
theorem Cmp.eq_init_of_reset_or_init {c : Cmp} (h : c ∈ State.reset.cmps ∨ ∃ b : Cmp, c = b.init) :
    ∃ (b : Cmp) (ring : Ring) (src : Config.Source), c = { b.init with ring := ring, src := src } := by
  obtain hreset | ⟨b, rfl⟩ := h
  · rw [mem_reset_cmps.mp hreset]
    exact ⟨_, _, _, Cmp.initial_eq_hardReset _ _⟩
  · exact ⟨b, b.init.ring, b.init.src, rfl⟩

/-- A decompressor unit of the reset state or after `DINIT` is an initialised unit, but for its ring, `s.ref_value`,
`s.result` and its sources of free values. -/
theorem Dec.eq_init_of_reset_or_init {d : Dec} (h : d ∈ State.reset.decs ∨ ∃ b : Dec, d = b.init) :
    ∃ (b : Dec) (ring : Ring) (refValue result : Word) (src memSrc : Config.Source),
      d = { b.init with ring := ring, refValue := refValue, result := result, src := src, memSrc := memSrc } := by
  obtain hreset | ⟨b, rfl⟩ := h
  · rw [mem_reset_decs.mp hreset]
    exact ⟨_, _, _, _, _, _, Dec.initial_eq_hardReset _ _⟩
  · exact ⟨b, b.init.ring, b.init.refValue, b.init.result, b.init.src, b.init.memSrc, rfl⟩

theorem reset_cmps_config {c : Cmp} (h : c ∈ State.reset.cmps) : c.measure = false ∧ c.config = 0 := by
  rw [mem_reset_cmps.mp h]
  exact ⟨Cmp.initial_measure _ _, Cmp.initial_config _ _⟩

theorem reset_decs_lengths {d : Dec} (h : d ∈ State.reset.decs) : d.bsLen = 0 ∧ d.lzLen = 0 ∧ d.pdLen = 0 := by
  rw [mem_reset_decs.mp h]
  exact ⟨Dec.initial_bsLen _ _, Dec.initial_lzLen _ _, Dec.initial_pdLen _ _⟩

/-- Settles O52: the units of the reset state and those after `CINIT` or `DINIT` are initialised units up to what R47 leaves
unspecified, so each value is the one `Cmp.init` or `Dec.init` gives. -/
theorem resetValues : Obligations.ResetValues := by
  unfold Obligations.ResetValues
  refine ⟨fun c hc => ?cmpValues, fun c => reset_cmps_config, fun b => ⟨b.init_measure, b.init_config⟩,
    fun d hd => ?decValues, fun d => reset_decs_lengths,
    fun b => ⟨b.init_bsLen, b.init_lzLen, b.init_pdLen, b.init_bs, b.init_lza, b.init_pda⟩⟩
  case cmpValues =>
    obtain ⟨b, ring, src, rfl⟩ := Cmp.eq_init_of_reset_or_init hc
    simp
  case decValues =>
    obtain ⟨b, ring, refValue, result, src, memSrc, rfl⟩ := Dec.eq_init_of_reset_or_init hd
    simp

end Sys2Proof.Machine
end

/-! ## Byte images (20_memory.md R64, O21)

An image is read one bit at a time: `byteImage` gives byte `j` as `imageByte`, `imageByte` its bits as `imageBit`, and
`imageBit` the bit of the element it falls in. -/

section
namespace Sys2Proof.Machine

variable {w : Nat} (n : Nat) (elem : Nat → BitVec w)

@[simp] theorem byteImage_length : (byteImage n elem).length = (w * n + 7) / 8 := by
  simp [byteImage]

/-- A byte of an image, wherever there is one, is `imageByte` of its position. -/
theorem eq_imageByte_of_getElem?_byteImage {j : Nat} {b : Byte} (h : (byteImage n elem)[j]? = some b) :
    b = imageByte n elem j := by
  obtain ⟨hj, rfl⟩ := List.getElem?_eq_some_iff.mp h
  simp [byteImage]

/-- The eight stream bits of byte `j` fill it from its most significant bit down. -/
theorem imageByte_getLsbD (j : Nat) {i : Nat} (hi : i < 8) :
    (imageByte n elem j).getLsbD (7 - i) = imageBit n elem (8 * j + i) := by
  simp only [imageByte, BitVec.getLsbD_append]
  interval_cases i <;> simp

/-- An element's most significant bit is the first of its bits in the image. -/
theorem imageBit_eq_getLsbD (hw : 1 ≤ w) (k : Nat) :
    imageBit n elem k = (decide (k < w * n) && (elem (k / w)).getLsbD (w - 1 - k % w)) := by
  have hk : k % w < w := Nat.mod_lt k hw
  simp [imageBit, BitVec.getMsbD, hk]

/-- Settles O21: bit `7 - k mod 8` of byte `k div 8` is image bit `8 * (k div 8) + k mod 8`, which is bit `k`. -/
theorem byteImageIsMsbFirst : Obligations.ByteImageIsMsbFirst := by
  unfold Obligations.ByteImageIsMsbFirst
  intro w n elem hw
  refine ⟨byteImage_length n elem, fun k b hb => ?_⟩
  calc b.getLsbD (7 - k % 8)
      = (imageByte n elem (k / 8)).getLsbD (7 - k % 8) := by rw [eq_imageByte_of_getElem?_byteImage n elem hb]
    _ = imageBit n elem (8 * (k / 8) + k % 8) := imageByte_getLsbD n elem _ (Nat.mod_lt k (by decide))
    _ = imageBit n elem k := by rw [Nat.div_add_mod]
    _ = (decide (k < w * n) && (elem (k / w)).getLsbD (w - 1 - k % w)) := imageBit_eq_getLsbD n elem hw k

end Sys2Proof.Machine
end


/-! ## Command words (30_encoding.md R91 to R93, O1, O2, O34)

A command word is its `op` field over its operand field, so reading the two fields back from `op ++ operand` gives each
decoder as a function of the fields. The reserved codes are rows of that function; what they do is `raise` of an
`IllegalCommand`. -/

section
namespace Sys2Proof.Machine

/-! ### The decoders on the fields of a word -/

/-- `CMDC` as a function of its fields (R91). -/
theorem decodeCmdc_append (op : BitVec 2) (value : Word) :
    decodeCmdc (op ++ value) =
      if op = 0 then .cinit else if op = 1 then .store value else if op = 2 then .flush else .cmdcReserved := by
  have hop : (op ++ value).extractLsb' 64 2 = op := BitVec.extractLsb'_append_eq_left
  have hvalue : (op ++ value).extractLsb' 0 64 = value := BitVec.extractLsb'_append_eq_right
  rw [decodeCmdc, hop, hvalue]

/-- `CMDD` as a function of its fields (R92). -/
theorem decodeCmdd_append (op : BitVec 2) (flag : BitVec 8) :
    decodeCmdd (op ++ flag) =
      if op = 0 then .dinit else if op = 1 then .load flag else if op = 2 then .cmddReserved2 else .cmddReserved3 := by
  have hop : (op ++ flag).extractLsb' 8 2 = op := BitVec.extractLsb'_append_eq_left
  have hflag : (op ++ flag).extractLsb' 0 8 = flag := BitVec.extractLsb'_append_eq_right
  rw [decodeCmdd, hop, hflag]

/-! ### What the commands do to the unit they reach -/

/-- In a FRESH unit the path asked for does not matter: the record is the FIRST one (R202). -/
theorem Dec.loadWith_of_first {d : Dec} (h : d.first = true) (coded coded' : Dec → LoadResult) :
    Dec.loadWith coded d = Dec.loadWith coded' d := by
  simp only [Dec.loadWith, h, if_true]

/-- The unit that a `LOAD` leaves, whether or not the unit is FAULTED. -/
theorem exec_load_of {s : State} {d : Dec} (h : AtDec s d) (flag : BitVec 8) :
    exec (.load flag) s = .next (s.setDec (Dec.unlessFaulted (Dec.loadWith fun u => u.readCoded flag) d)) :=
  onDec_of h

/-- A FRESH unit answers every `LOAD` alike, FAULTED or not. -/
theorem exec_load_of_first {s : State} {d : Dec} (h : AtDec s d) (hfirst : d.first = true) (flag flag' : BitVec 8) :
    exec (.load flag) s = exec (.load flag') s := by
  rw [exec_load_of h, exec_load_of h, Dec.unlessFaulted, Dec.unlessFaulted,
    Dec.loadWith_of_first hfirst (fun u => u.readCoded flag) fun u => u.readCoded flag']

/-- A reserved code in a compressor unit that is not FAULTED is an `IllegalCommand` (R93, R238). -/
theorem exec_cmdcReserved_of_run {s : State} {c : Cmp} (h : AtCmp s c) (hrun : c.fault = false) :
    exec .cmdcReserved s = .next (s.setCmp (c.raise (.illegalCommand .reserved))) := by
  rw [← Cmp.unlessFaulted_of_run (f := fun u => u.raise (.illegalCommand .reserved)) hrun]
  exact onCmp_of h

/-- `CMDD.op = 10` in a decompressor unit that is not FAULTED is an `IllegalCommand` (R93, R238). -/
theorem exec_cmddReserved2_of_run {s : State} {d : Dec} (h : AtDec s d) (hrun : d.fault = false) :
    exec .cmddReserved2 s = .next (s.setDec (d.raise (.illegalCommand .reserved))) := by
  rw [← Dec.unlessFaulted_of_run (f := fun u => u.raise (.illegalCommand .reserved)) hrun]
  exact onDec_of h

/-- The two reserved codes of a decompressor unit are one command. -/
theorem exec_cmddReserved3_eq (s : State) : exec .cmddReserved3 s = exec .cmddReserved2 s := rfl

@[simp] theorem causeCode_illegalCommand (which : CommandName) : causeCode (.illegalCommand which) = 7 := rfl

/-! ### The statements -/

/-- Settles O1: the decoder reads back both fields of the word. -/
theorem commandWordsOfCompressor : Obligations.CommandWordsOfCompressor :=
  decodeCmdc_append

/-- Settles O2: the fields of the word, and a FRESH unit's `LOAD`, which reads the FIRST record. -/
theorem commandWordsOfDecompressor : Obligations.CommandWordsOfDecompressor :=
  ⟨decodeCmdd_append, fun _ _ flag flag' hat hfirst => exec_load_of_first hat hfirst flag flag'⟩

/-- Settles O34: the reserved codes are the last rows of the decoders, and each raises `IllegalCommand`. -/
theorem reservedCodesAreIllegal : Obligations.ReservedCodesAreIllegal := by
  unfold Obligations.ReservedCodesAreIllegal
  refine ⟨fun value => ?cmdc, fun flag => ⟨?cmdd2, ?cmdd3⟩, fun s c hat hrun => ?cmp, fun s d hat hrun => ?dec⟩
  case cmdc => simp [decodeCmdc_append]
  case cmdd2 => simp [decodeCmdd_append]
  case cmdd3 => simp [decodeCmdd_append]
  case cmp => exact ⟨exec_cmdcReserved_of_run hat hrun, c.raise_fault _, by simp⟩
  case dec =>
    have hexec := exec_cmddReserved2_of_run hat hrun
    exact ⟨hexec, (exec_cmddReserved3_eq s).trans hexec, d.raise_fault _, by simp⟩

end Sys2Proof.Machine
end

/-! ## The Reference Ring (40_ring.md R121 to R125, O15 to O18)

`IndexOf` searches by age, the number of insertions since an entry was written, so it is first described in ages
(`Cmp.indexOf_eq_some_iff_age`, `Cmp.indexOf_eq_none_iff_age`); age `j` is insertion index `s.size - j`, and the live ages,
0 to `min(s.size, 127)`, are the live indices read from the newest down. -/

section
namespace Sys2Proof.Machine

/-! ### Keys (R122) -/

/-- The number a key function works on is the value shifted down to its high-order bits. -/
theorem highBits_eq_toNat_ushiftRight (bits : Nat) (v : Word) : highBits bits v = (v >>> (64 - bits)).toNat := by
  rw [highBits, BitVec.toNat_ushiftRight, Nat.shiftRight_eq_div_pow]

@[simp] theorem keyOf_high (bits : Nat) (v : Word) : keyOf (.high bits) v = highBits bits v := rfl

@[simp] theorem keyOf_table (bits : Nat) (entries : List Nat) (v : Word) :
    keyOf (.table bits entries) v = entries.getD (highBits bits v) 0 := rfl

@[simp] theorem CmpParams.default_key : CmpParams.default.key = .high 14 := rfl

/-- The high-order 14 bits are the field `v[63:50]`: nothing lies above bit 63, so the field's width cuts nothing off. -/
theorem highBits_14_eq_extractLsb' (v : Word) : highBits 14 v = (v.extractLsb' 50 14).toNat := by
  have hfits : v.toNat / 2 ^ 50 < 2 ^ 14 := Nat.div_lt_of_lt_mul v.isLt
  rw [highBits, BitVec.extractLsb'_toNat, Nat.shiftRight_eq_div_pow, Nat.mod_eq_of_lt hfits]

/-! ### `Insert` (R121) -/

/-- The ring after `Insert`, slot by slot: the slot written is 0 for the first value and the new count mod 128 after it. -/
theorem Ring.get_put_inserted (r : Ring) (first : Bool) (size : Nat) (v : Word) {i : Nat} (hi : i < 128) :
    Ring.get (Ring.put r (if first then 0 else size + 1) v) i =
      if i = (if first = true then 0 else (size + 1) % 128) then v else Ring.get r i := by
  rw [Ring.get_put, Nat.mod_eq_of_lt hi]
  cases first <;> simp [eq_comm]

/-! ### `IndexOf` (R123) -/

/-- No entry of a FRESH unit is live. -/
@[simp] theorem Cmp.indexOf_of_first {c : Cmp} (h : c.first = true) (k : Nat) : c.indexOf k = none := by
  simp [Cmp.indexOf, h]

/-- A match is the entry of the least live age that has the key. -/
theorem Cmp.indexOf_eq_some_iff_age {c : Cmp} (h : c.first = false) (k i : Nat) :
    c.indexOf k = some i ↔
      ∃ j, j ≤ min c.size 127 ∧ c.size - j = i ∧ keyOf c.params.key (Ring.get c.ring (c.size - j)) = k ∧
        ∀ j', j' < j → keyOf c.params.key (Ring.get c.ring (c.size - j')) ≠ k := by
  simp only [Cmp.indexOf, h, Bool.false_eq_true, if_false, Option.map_eq_some_iff, List.find?_range_eq_some,
    List.mem_range, Nat.lt_succ_iff, beq_iff_eq, Bool.not_eq_true', beq_eq_false_iff_ne]
  exact exists_congr fun j => by tauto

/-- There is no match exactly when no live age has the key. -/
theorem Cmp.indexOf_eq_none_iff_age {c : Cmp} (h : c.first = false) (k : Nat) :
    c.indexOf k = none ↔ ∀ j, j ≤ min c.size 127 → keyOf c.params.key (Ring.get c.ring (c.size - j)) ≠ k := by
  simp only [Cmp.indexOf, h, Bool.false_eq_true, if_false, Option.map_eq_none_iff, List.find?_range_eq_none,
    Nat.lt_succ_iff, Bool.not_eq_true', beq_eq_false_iff_ne, ne_eq]

/-- The indices newer than that of age `j` are those of the lesser ages. -/
theorem forall_age_lt_iff {size j : Nat} (hj : j ≤ size) (P : Nat → Prop) :
    (∀ j', j' < j → P (size - j')) ↔ ∀ i, size - j < i → i ≤ size → P i := by
  constructor
  · intro hage i hlt hle
    simpa [Nat.sub_sub_self hle] using hage (size - i) (by omega)
  · intro hindex j' hj'
    exact hindex (size - j') (by omega) (Nat.sub_le _ _)

/-- The indices of the live ages are the live insertion indices. -/
theorem forall_live_age_iff (size : Nat) (P : Nat → Prop) :
    (∀ j, j ≤ min size 127 → P (size - j)) ↔ ∀ i, size - 127 ≤ i → i ≤ size → P i := by
  constructor
  · intro hage i hlive hle
    simpa [Nat.sub_sub_self hle] using hage (size - i) (by omega)
  · intro hindex j hj
    exact hindex (size - j) (by omega) (Nat.sub_le _ _)

/-- `IndexOf` in insertion indices: the match is live and has the key, and no newer entry has it. -/
theorem Cmp.indexOf_eq_some_iff {c : Cmp} (h : c.first = false) (k i : Nat) :
    c.indexOf k = some i ↔
      i ≤ c.size ∧ c.size - 127 ≤ i ∧ keyOf c.params.key (Ring.get c.ring i) = k ∧
        ∀ j, i < j → j ≤ c.size → keyOf c.params.key (Ring.get c.ring j) ≠ k := by
  rw [Cmp.indexOf_eq_some_iff_age h]
  constructor
  · rintro ⟨j, hj, rfl, hkey, hnewer⟩
    have hage : j ≤ c.size := hj.trans (min_le_left _ _)
    exact ⟨Nat.sub_le _ _, by omega, hkey, (forall_age_lt_iff hage _).mp hnewer⟩
  · rintro ⟨hle, hlive, hkey, hnewer⟩
    have hage : c.size - (c.size - i) = i := Nat.sub_sub_self hle
    refine ⟨c.size - i, by omega, hage, by rwa [hage], ?_⟩
    exact (forall_age_lt_iff (Nat.sub_le _ _) _).mpr (by rwa [hage])

theorem Cmp.indexOf_eq_none_iff {c : Cmp} (h : c.first = false) (k : Nat) :
    c.indexOf k = none ↔
      ∀ j, c.size - 127 ≤ j → j ≤ c.size → keyOf c.params.key (Ring.get c.ring j) ≠ k := by
  rw [Cmp.indexOf_eq_none_iff_age h]
  exact forall_live_age_iff c.size fun i => keyOf c.params.key (Ring.get c.ring i) ≠ k

/-! ### `Value` (R125) -/

/-- The test of R125 for an invalid slot is the negation of R21's for a valid one. -/
theorem slotValid_eq_false_iff (first : Bool) (size i : Nat) :
    slotValid first size i = false ↔ first = true ∨ min size 127 < i := by
  cases first with
  | true => simp
  | false =>
    rw [slotValid, Bool.not_false, Bool.true_and, decide_eq_false_iff_not, not_le]
    exact (or_iff_right Bool.false_ne_true).symm

/-- A slot read is taken mod 128. -/
@[simp] theorem Ring.get_mod (r : Ring) (i : Nat) : Ring.get r (i % 128) = Ring.get r i :=
  Ring.get_congr r (Nat.mod_mod i 128)

theorem Dec.value_of_valid {d : Dec} {slot : Nat} (h : slotValid d.first d.size (slot % 128) = true) :
    d.value slot = .ok (Ring.get d.ring slot) := by
  simp [Dec.value, h]

theorem Dec.value_of_invalid {d : Dec} {slot : Nat} (h : slotValid d.first d.size (slot % 128) = false) :
    d.value slot = .error (.ringIndexOutOfRange (slot % 128)) := by
  simp [Dec.value, h]

/-! ### The statements -/

/-- Settles O15: both forms of key function are functions of `highBits`, which is the value shifted right. -/
theorem keyDependsOnHighBits : Obligations.KeyDependsOnHighBits := by
  unfold Obligations.KeyDependsOnHighBits
  refine ⟨fun bits entries v w _ _ hshift => ?agree, fun v => ?default⟩
  case agree =>
    have hbits : highBits bits v = highBits bits w := by
      rw [highBits_eq_toNat_ushiftRight, highBits_eq_toNat_ushiftRight, hshift]
    simp [hbits]
  case default => rw [CmpParams.default_key, keyOf_high, highBits_14_eq_extractLsb']

/-- Settles O16: in both units `Insert` is one write of the ring and one update of the count. -/
theorem insertWritesNewestSlot : Obligations.InsertWritesNewestSlot := by
  unfold Obligations.InsertWritesNewestSlot
  refine ⟨fun c v => ?cmp, fun d v => ?dec⟩
  case cmp =>
    rw [Cmp.insert_eq]
    exact ⟨rfl, fun i hi => Ring.get_put_inserted c.ring c.first c.size v hi⟩
  case dec =>
    rw [Dec.insert_eq]
    exact ⟨rfl, fun i hi => Ring.get_put_inserted d.ring d.first d.size v hi⟩

/-- Settles O17: the search by age, said in insertion indices. -/
theorem indexOfFindsNewestLive : Obligations.IndexOfFindsNewestLive :=
  fun _ k => ⟨fun h => Cmp.indexOf_of_first h k, fun h => Cmp.indexOf_eq_some_iff h k,
    fun h => Cmp.indexOf_eq_none_iff h k⟩

/-- Settles O18: the two outcomes of `Value` are those of the validity test on the slot mod 128. -/
theorem valueReadsValidSlots : Obligations.ValueReadsValidSlots := by
  unfold Obligations.ValueReadsValidSlots
  intro d slot
  cases hvalid : slotValid d.first d.size (slot % 128) with
  | false => rw [if_pos ((slotValid_eq_false_iff _ _ _).mp hvalid), Dec.value_of_invalid hvalid]
  | true =>
    have hno : ¬(d.first = true ∨ min d.size 127 < slot % 128) := by
      rw [← slotValid_eq_false_iff, hvalid]; decide
    rw [if_neg hno, Dec.value_of_valid hvalid, Ring.get_mod]

end Sys2Proof.Machine
end

/-! ## Bit counts and buckets (41_buffers_and_tables.md R140 to R144, O11, O12)

Each count is the first position of a search over the 64 bits, from the top or from the bottom, and a non-zero value has
a position where the search succeeds. `BUCKET` and `BucketSel` are adjoint (`bucket_le_iff`), which says in one line that
`BucketSel` is the largest selector whose bound does not exceed the count, and that it is monotone. -/

section
namespace Sys2Proof.Machine

/-- A search upwards from 0 that can succeed stops at the first position with the property. -/
theorem find?_range_getD_spec {n : Nat} {p : Nat → Bool} (h : ∃ i, i < n ∧ p i = true) :
    ((List.range n).find? p).getD n < n ∧ p (((List.range n).find? p).getD n) = true ∧
      ∀ j, j < ((List.range n).find? p).getD n → p j = false := by
  cases hfind : (List.range n).find? p with
  | none =>
    obtain ⟨i, hi, hpi⟩ := h
    simpa [hpi] using List.find?_range_eq_none.mp hfind i hi
  | some k =>
    obtain ⟨hpk, hk, hbefore⟩ := List.find?_range_eq_some.mp hfind
    exact ⟨List.mem_range.mp hk, hpk, by simpa using hbefore⟩

theorem exists_getLsbD_of_ne_zero {v : Word} (h : v ≠ 0) : ∃ i, i < 64 ∧ v.getLsbD i = true := by
  have hset : ∃ i, v.getLsbD i = true := by simpa [BitVec.zero_iff_eq_false] using h
  obtain ⟨i, hi⟩ := hset
  exact ⟨i, BitVec.lt_of_getLsbD hi, hi⟩

@[simp] theorem ctz64_zero : ctz64 0 = 64 := rfl

@[simp] theorem clz64_zero : clz64 0 = 64 := rfl

/-- R141: the lowest set bit is bit `ctz64 v`. -/
theorem ctz64_spec {v : Word} (h : v ≠ 0) :
    ctz64 v < 64 ∧ v.getLsbD (ctz64 v) = true ∧ ∀ i, i < ctz64 v → v.getLsbD i = false :=
  find?_range_getD_spec (exists_getLsbD_of_ne_zero h)

/-- R140: the highest set bit is bit `63 - clz64 v`; the search runs over the distance from bit 63. -/
theorem clz64_spec {v : Word} (h : v ≠ 0) :
    clz64 v < 64 ∧ v.getLsbD (63 - clz64 v) = true ∧ ∀ i, 63 - clz64 v < i → v.getLsbD i = false := by
  obtain ⟨i, hi, hset⟩ := exists_getLsbD_of_ne_zero h
  have hfound : ∃ j, j < 64 ∧ v.getLsbD (63 - j) = true :=
    ⟨63 - i, by omega, by rwa [Nat.sub_sub_self (by omega)]⟩
  obtain ⟨hlt, hbit, hbefore⟩ := find?_range_getD_spec hfound
  refine ⟨hlt, hbit, fun i hi => ?above⟩
  case above =>
    by_cases hin : i < 64
    · have habove := hbefore (63 - i) (show 63 - i < clz64 v by omega)
      rwa [Nat.sub_sub_self (by omega)] at habove
    · exact BitVec.getLsbD_of_ge v i (by omega)

/-- A non-zero value is below the power of two just above its highest set bit. -/
theorem toNat_lt_two_pow_sub_clz64 {v : Word} (h : v ≠ 0) : v.toNat < 2 ^ (64 - clz64 v) := by
  obtain ⟨hlt, _, habove⟩ := clz64_spec h
  exact Nat.lt_pow_two_of_testBit _ fun i hi => habove i (by omega)

theorem bucket_mono : ∀ sel sel' : BitVec 3, sel.toNat ≤ sel'.toNat → bucket sel ≤ bucket sel' := by decide

/-- A selector that another exceeds has a next level, which does not exceed the other's. -/
theorem bucket_succ_le : ∀ sel sel' : BitVec 3, sel.toNat < sel'.toNat →
    sel ≠ 7 ∧ bucket (sel + 1) ≤ bucket sel' := by decide

/-- R143's table row by row: `c` lies at or above its own bound and below the next one, where there is a next one. -/
theorem bucketSel_row (c : Nat) :
    bucket (bucketSel c) ≤ c ∧ (bucketSel c ≠ 7 → c < bucket (bucketSel c + 1)) := by
  unfold bucketSel
  split_ifs <;> simp [bucket] <;> omega

theorem bucket_bucketSel_le (c : Nat) : bucket (bucketSel c) ≤ c := (bucketSel_row c).1

/-- R143: a bound does not exceed `c` exactly when its selector is at most `BucketSel(c)`. -/
theorem bucket_le_iff (sel : BitVec 3) (c : Nat) : bucket sel ≤ c ↔ sel.toNat ≤ (bucketSel c).toNat := by
  constructor
  · intro hbound
    by_contra hlarger
    obtain ⟨hnext, hle⟩ := bucket_succ_le (bucketSel c) sel (by omega)
    have hbelow : c < bucket (bucketSel c + 1) := (bucketSel_row c).2 hnext
    omega
  · intro hsel
    exact (bucket_mono sel _ hsel).trans (bucket_bucketSel_le c)

theorem bucketSel_mono {c c' : Nat} (h : c ≤ c') : (bucketSel c).toNat ≤ (bucketSel c').toNat :=
  (bucket_le_iff _ c').mp ((bucket_bucketSel_le c).trans h)

/-- R144: the bits of a non-zero value above its bucket bound are all zero. -/
theorem toNat_lt_two_pow_sub_bucket {v : Word} (h : v ≠ 0) :
    v.toNat < 2 ^ (64 - bucket (bucketSel (clz64 v))) :=
  (toNat_lt_two_pow_sub_clz64 h).trans_le
    (Nat.pow_le_pow_right Nat.two_pos (Nat.sub_le_sub_left (bucket_bucketSel_le _) 64))

/-! ### The statements -/

/-- Settles O11: each count is where its search over the bits stops. -/
theorem zeroCounts : Obligations.ZeroCounts := by
  unfold Obligations.ZeroCounts
  refine ⟨clz64_zero, ctz64_zero, fun v hv => ?_⟩
  obtain ⟨hclz, hhighest, habove⟩ := clz64_spec hv
  obtain ⟨hctz, hlowest, hbelow⟩ := ctz64_spec hv
  exact ⟨⟨Nat.le_of_lt_succ hclz, hhighest, habove⟩, Nat.le_of_lt_succ hctz, hlowest, hbelow⟩

/-- Settles O12: the levels as the table lists them, and the rest from `bucket_le_iff`. -/
theorem bucketSelectsLowerBound : Obligations.BucketSelectsLowerBound :=
  ⟨by decide, fun c _ => ⟨bucket_bucketSel_le c, fun sel => (bucket_le_iff sel c).mp⟩, fun _ _ => bucketSel_mono,
    fun _ hx => ⟨bucket_bucketSel_le _, toNat_lt_two_pow_sub_bucket hx⟩⟩

end Sys2Proof.Machine
end

/-! ## The packed record (41_buffers_and_tables.md R146 to R148, O14)

In both layouts the record is three fields laid end to end, so packing and unpacking are inverse for fields of any
widths. -/

section
namespace Sys2Proof.Machine

/-- The three fields of a concatenation read back. -/
theorem extractLsb'_append₃ {p q r : Nat} (a : BitVec p) (b : BitVec q) (c : BitVec r) :
    (a ++ b ++ c).extractLsb' (q + r) p = a ∧ (a ++ b ++ c).extractLsb' r q = b ∧ (a ++ b ++ c).extractLsb' 0 r = c := by
  refine ⟨?high, ?middle, BitVec.extractLsb'_append_eq_right⟩
  case high =>
    rw [BitVec.extractLsb'_append_eq_of_le (Nat.le_add_left r q), Nat.add_sub_cancel, BitVec.extractLsb'_append_eq_left]
  case middle =>
    rw [BitVec.extractLsb'_append_eq_of_le le_rfl, Nat.sub_self, BitVec.extractLsb'_append_eq_right]

/-- A word is the concatenation of the three fields read from it. -/
theorem append_extractLsb'₃ {p q r : Nat} (x : BitVec (p + q + r)) :
    x.extractLsb' (q + r) p ++ x.extractLsb' r q ++ x.extractLsb' 0 r = x := by
  rw [BitVec.extractLsb'_append_extractLsb'_eq_extractLsb' (Nat.add_comm q r), BitVec.extractLsb'_append_extractLsb']

/-- Unpacking gives back the selector, the significant-bit count and the low seven bits of the index. -/
theorem unpackRecord_packRecord (layout : Layout) (i : Nat) (sel : BitVec 3) (sig : BitVec 6) :
    unpackRecord layout (packRecord layout i sel sig) = (BitVec.ofNat 7 i, sel, sig) := by
  cases layout with
  | msb0 =>
    obtain ⟨hindex, hsel, hsig⟩ := extractLsb'_append₃ (BitVec.ofNat 7 i) sel sig
    exact Prod.ext hindex (Prod.ext hsel hsig)
  | lsb0 =>
    obtain ⟨hsig, hsel, hindex⟩ := extractLsb'_append₃ sig sel (BitVec.ofNat 7 i)
    exact Prod.ext hindex (Prod.ext hsel hsig)

/-- Packing the parts of a record gives the record. -/
theorem packRecord_unpackRecord (layout : Layout) (rec : BitVec 16) :
    packRecord layout (unpackRecord layout rec).1.toNat (unpackRecord layout rec).2.1 (unpackRecord layout rec).2.2
      = rec := by
  cases layout with
  | msb0 =>
    simp only [packRecord, unpackRecord, BitVec.ofNat_toNat, BitVec.setWidth_eq]
    exact append_extractLsb'₃ (p := 7) (q := 3) (r := 6) rec
  | lsb0 =>
    simp only [packRecord, unpackRecord, BitVec.ofNat_toNat, BitVec.setWidth_eq]
    exact append_extractLsb'₃ (p := 6) (q := 3) (r := 7) rec

/-- The seven-bit index is the index mod 128: the bias of 128 is lost (30_encoding.md R102). -/
theorem ofNat_seven_mod (i : Nat) : BitVec.ofNat 7 (i % 128) = BitVec.ofNat 7 i :=
  BitVec.eq_of_toNat_eq (by simp)

/-- Settles O14: both round trips, the index reduced to its seven bits. -/
theorem packedRecordRoundTrip : Obligations.PackedRecordRoundTrip := by
  unfold Obligations.PackedRecordRoundTrip
  intro layout
  refine ⟨fun i sel sig _ => ?unpackPack, packRecord_unpackRecord layout⟩
  case unpackPack => rw [unpackRecord_packRecord, ofNat_seven_mod]

end Sys2Proof.Machine
end

/-! ## The output primitives and the fields of the Bit Stream (41_buffers_and_tables.md R149 to R153, O19, O20)

A field is described bit by bit, on the writing side by `Memory.read_writeBits` and on the reading side by
`readField_getLsbD`. Fields written in a row do not touch what stands before them (`Cmp.bsWriteAll_read_of_lt`), so each is
still there when the reader comes to it. -/

section
namespace Sys2Proof.Machine

/-! ### What an append leaves in its region (R149, R150) -/

/-- A side buffer after an append at `n`: the new element there and every other as before, or, in measurement mode, the
buffer untouched (10_state.md R40). -/
theorem Memory.append_spec {w : Nat} (measure : Bool) (m : Memory w) (n : Nat) (x : BitVec w) :
    (measure = true → (if measure then m else Memory.write m n x) = m) ∧
    (measure = false → ∀ a,
      Memory.read (if measure then m else Memory.write m n x) a = if a = n then some x else Memory.read m a) := by
  cases measure with
  | true => simp
  | false => simpa using fun a => Memory.read_write m n a x

/-- Outside measurement mode stream bit `j` of a field is `v[n-1-j]`. -/
theorem Cmp.bsWrite_read_field {c : Cmp} (hm : c.measure = false) (v : Word) {n j : Nat} (hj : j < n) :
    Memory.read (c.bsWrite v n).bs (c.bsWpos + j) = some (BitVec.ofBool (v.getLsbD (n - 1 - j))) := by
  rw [Cmp.bsWrite_bs, hm, if_neg Bool.false_ne_true, Memory.read_writeBits, if_pos (by omega), Nat.add_sub_cancel_left]

/-- Every stream bit outside a field reads as before it was written. -/
theorem Cmp.bsWrite_read_other {c : Cmp} (hm : c.measure = false) (v : Word) {n a : Nat}
    (ha : a < c.bsWpos ∨ c.bsWpos + n ≤ a) : Memory.read (c.bsWrite v n).bs a = Memory.read c.bs a := by
  rw [Cmp.bsWrite_bs, hm, if_neg Bool.false_ne_true, Memory.read_writeBits, if_neg (by omega)]

/-- Settles O19: each append is one update of its region and its count. -/
theorem appendsWriteAtTheCount : Obligations.AppendsWriteAtTheCount :=
  ⟨fun c v n _ _ => ⟨(c.bsWrite v n).bs, rfl, fun hm => by rw [Cmp.bsWrite_bs, if_pos hm],
      fun hm => ⟨fun _ => Cmp.bsWrite_read_field hm v, fun _ => Cmp.bsWrite_read_other hm v⟩⟩,
    fun c flag => ⟨(c.fbAppend flag).fb, rfl, Memory.append_spec c.measure c.fb c.fbCount flag⟩,
    fun c sel => ⟨(c.lzbAppend sel).lzb, rfl, Memory.append_spec c.measure c.lzb c.lzbCount sel⟩,
    fun c rec => ⟨(c.pdbAppend rec).pdb, rfl, Memory.append_spec c.measure c.pdb c.pdbCount rec⟩⟩

/-! ### Reading one field (R151) -/

/-- Bit `i` of a field is the stream bit `i` places before the field's last; the field is zero-extended. -/
theorem readField_getLsbD (bit : Nat → BitVec 1) (pos n i : Nat) :
    (readField bit pos n).getLsbD i =
      (decide (i < 64) && decide (i < n) && (bit (pos + (n - 1 - i))).getLsbD 0) := by
  induction n generalizing i with
  | zero => simp [readField]
  | succ k ih =>
    cases i with
    | zero => simp [readField]
    | succ i =>
      have hplace : k - 1 - i = k - (i + 1) := by omega
      simp only [readField, BitVec.getLsbD_or, BitVec.getLsbD_shiftLeft, BitVec.getLsbD_setWidth, ih]
      by_cases hi : i + 1 < 64
      · simp [hi, Nat.lt_of_succ_lt hi, hplace]
      · simp [hi]

/-- A field whose stream bits are those of `v`, most significant first, reads as the low bits of `v`. -/
theorem readField_of_bits {bit : Nat → BitVec 1} {pos n : Nat} {v : Word}
    (h : ∀ j, j < n → bit (pos + j) = BitVec.ofBool (v.getLsbD (n - 1 - j))) :
    readField bit pos n = BitVec.ofNat 64 (v.toNat % 2 ^ n) := by
  apply BitVec.eq_of_getLsbD_eq
  intro i hi
  rw [readField_getLsbD, BitVec.getLsbD_ofNat, Nat.testBit_mod_two_pow, BitVec.testBit_toNat, Bool.and_assoc]
  by_cases hin : i < n
  · rw [h _ (by omega), Nat.sub_sub_self (by omega)]
    simp
  · simp [hin]

/-! ### Fields in a row (R153) -/

/-- Fields written one after the other. -/
def Cmp.bsWriteAll (c : Cmp) (fields : List (Word × Nat)) : Cmp :=
  fields.foldl (fun c f => c.bsWrite f.1 f.2) c

@[simp] theorem Cmp.bsWriteAll_nil (c : Cmp) : c.bsWriteAll [] = c := rfl

@[simp] theorem Cmp.bsWriteAll_cons (c : Cmp) (f : Word × Nat) (fields : List (Word × Nat)) :
    c.bsWriteAll (f :: fields) = (c.bsWrite f.1 f.2).bsWriteAll fields := rfl

theorem Cmp.bsWpos_le_bsWriteAll (c : Cmp) (fields : List (Word × Nat)) :
    c.bsWpos ≤ (c.bsWriteAll fields).bsWpos := by
  induction fields generalizing c with
  | nil => exact le_rfl
  | cons f fields ih => exact (Nat.le_add_right c.bsWpos f.2).trans (ih (c.bsWrite f.1 f.2))

/-- Writing fields leaves the bits before the write position alone. -/
theorem Cmp.bsWriteAll_read_of_lt {c : Cmp} (hm : c.measure = false) (fields : List (Word × Nat)) {a : Nat}
    (ha : a < c.bsWpos) : Memory.read (c.bsWriteAll fields).bs a = Memory.read c.bs a := by
  induction fields generalizing c with
  | nil => rfl
  | cons f fields ih =>
    calc Memory.read ((c.bsWrite f.1 f.2).bsWriteAll fields).bs a
        = Memory.read (c.bsWrite f.1 f.2).bs a := ih hm (Nat.lt_add_right f.2 ha)
      _ = Memory.read c.bs a := Cmp.bsWrite_read_other hm f.1 (.inl ha)

/-- A stream bit that the host wrote is the bit it wrote. -/
theorem Dec.bsBit_of_read {d : Dec} {a : Nat} {x : BitVec 1} (h : Memory.read d.bs a = some x) : d.bsBit a = x := by
  simp [Dec.bsBit, h]

theorem Dec.bsReadAll_cons_ok {d d1 d2 : Dec} {n : Nat} {widths : List Nat} {x : Word} {xs : List Word}
    (h : d.bsRead n = .ok (x, d1)) (hrest : d1.bsReadAll widths = .ok (xs, d2)) :
    d.bsReadAll (n :: widths) = .ok (x :: xs, d2) := by
  simp only [Dec.bsReadAll, h, hrest]

/-- A unit that stands where a field was written, and holds its bits, reads the field cut to its width. -/
theorem Dec.bsRead_bsWrite {c : Cmp} {d : Dec} {v : Word} {n : Nat} (hm : c.measure = false)
    (hpos : d.bsRpos = c.bsWpos)
    (hbits : ∀ j, j < n →
      Memory.read d.bs (c.bsWpos + j) = Memory.read (c.bsWrite v n).bs (c.bsWpos + j))
    (hlen : c.bsWpos + n ≤ d.bsLen) :
    d.bsRead n = .ok (BitVec.ofNat 64 (v.toNat % 2 ^ n), { d with bsRpos := c.bsWpos + n }) := by
  have hfield : readField d.bsBit c.bsWpos n = BitVec.ofNat 64 (v.toNat % 2 ^ n) :=
    readField_of_bits fun j hj => Dec.bsBit_of_read ((hbits j hj).trans (Cmp.bsWrite_read_field hm v hj))
  rw [Dec.bsRead_of_le (by omega), hpos, hfield]

/-- The fields come back in the order they were written, whatever the widths. -/
theorem Dec.bsReadAll_bsWriteAll (fields : List (Word × Nat)) {c : Cmp} {d : Dec} (hm : c.measure = false)
    (hpos : d.bsRpos = c.bsWpos)
    (hbits : ∀ a x, Memory.read (c.bsWriteAll fields).bs a = some x → Memory.read d.bs a = some x)
    (hlen : (c.bsWriteAll fields).bsWpos ≤ d.bsLen) :
    d.bsReadAll (fields.map Prod.snd) =
      .ok (fields.map (fun f => BitVec.ofNat 64 (f.1.toNat % 2 ^ f.2)),
        { d with bsRpos := (c.bsWriteAll fields).bsWpos }) := by
  induction fields generalizing c d with
  | nil => rw [Cmp.bsWriteAll_nil, ← hpos]; rfl
  | cons f fields ih =>
    obtain ⟨v, n⟩ := f
    rw [Cmp.bsWriteAll_cons] at hbits hlen
    have hend : c.bsWpos + n ≤ ((c.bsWrite v n).bsWriteAll fields).bsWpos :=
      Cmp.bsWpos_le_bsWriteAll (c.bsWrite v n) fields
    have hfirst : d.bsRead n = .ok (BitVec.ofNat 64 (v.toNat % 2 ^ n), { d with bsRpos := c.bsWpos + n }) := by
      refine Dec.bsRead_bsWrite hm hpos (fun j hj => ?_) (hend.trans hlen)
      have hkept := Cmp.bsWriteAll_read_of_lt (c := c.bsWrite v n) hm fields (Nat.add_lt_add_left hj c.bsWpos)
      rw [Cmp.bsWrite_read_field hm v hj] at hkept ⊢
      exact hbits _ _ hkept
    exact Dec.bsReadAll_cons_ok hfirst
      (ih (c := c.bsWrite v n) (d := { d with bsRpos := c.bsWpos + n }) hm rfl hbits hlen)

/-- Settles O20: the statement's fold is `Cmp.bsWriteAll`; the widths' range is not needed. -/
theorem fieldsReadBackInOrder : Obligations.FieldsReadBackInOrder :=
  fun fields _ _ _ hm hpos hbits hlen => Dec.bsReadAll_bsWriteAll fields hm hpos hbits hlen

end Sys2Proof.Machine
end

/-! ## The compressor unit's paths (42_compressor.md R174 to R184, O23, O24, O30)

A `STORE` first determines its path and its record; these are the facts about that choice. The reference is a slot
number, the XOR result behind a passed threshold has more than 13 trailing zeros, and so the record of every path
holds all of the XOR result. -/

section
namespace Sys2Proof.Machine

/-! ### The reference and the XOR result (R174, R175, R177) -/

/-- A match above the threshold is the reference. -/
theorem Cmp.reference_of_above {c : Cmp} {v : Word} {m : Nat} (h : c.indexOf (keyOf c.params.key v) = some m)
    (habove : 13 < ctz64 (v ^^^ Ring.get c.ring m)) : c.reference v = (m % 128, true) := by
  simp [Cmp.reference, h, habove]

/-- A match at or below the threshold is passed over for the newest value. -/
theorem Cmp.reference_of_below {c : Cmp} {v : Word} {m : Nat} (h : c.indexOf (keyOf c.params.key v) = some m)
    (hbelow : ctz64 (v ^^^ Ring.get c.ring m) ≤ 13) : c.reference v = (c.size % 128, false) := by
  simp [Cmp.reference, h, hbelow]

/-- Without a match the newest value is the reference. -/
theorem Cmp.reference_of_none {c : Cmp} {v : Word} (h : c.indexOf (keyOf c.params.key v) = none) :
    c.reference v = (c.size % 128, false) := by
  simp [Cmp.reference, h]

/-- Everything reference selection can do: a match above the threshold, or the newest value with `exceed` clear. -/
theorem Cmp.reference_cases (c : Cmp) (v : Word) :
    (∃ m, c.indexOf (keyOf c.params.key v) = some m ∧ 13 < ctz64 (v ^^^ Ring.get c.ring m) ∧
      c.reference v = (m % 128, true)) ∨
    c.reference v = (c.size % 128, false) := by
  cases h : c.indexOf (keyOf c.params.key v) with
  | none => exact .inr (Cmp.reference_of_none h)
  | some m =>
    by_cases habove : 13 < ctz64 (v ^^^ Ring.get c.ring m)
    · exact .inl ⟨m, rfl, habove, Cmp.reference_of_above h habove⟩
    · exact .inr (Cmp.reference_of_below h (Nat.le_of_not_lt habove))

/-- With `exceed` set the XOR result is the one with the match, whose trailing zeros passed the threshold. -/
theorem Cmp.xorResult_of_exceed {c : Cmp} {v : Word} (h : (c.reference v).2 = true) :
    ∃ m, c.indexOf (keyOf c.params.key v) = some m ∧ c.xorResult v = v ^^^ Ring.get c.ring m ∧
      13 < ctz64 (v ^^^ Ring.get c.ring m) := by
  obtain ⟨m, hmatch, habove, href⟩ | href := c.reference_cases v
  · exact ⟨m, hmatch, by rw [Cmp.xorResult, href, Ring.get_mod], habove⟩
  · rw [href] at h; cases h

/-- With `exceed` clear the XOR result is the one with the newest value. -/
theorem Cmp.xorResult_of_not_exceed {c : Cmp} {v : Word} (h : (c.reference v).2 = false) :
    c.xorResult v = v ^^^ Ring.get c.ring c.size := by
  obtain ⟨m, _, _, href⟩ | href := c.reference_cases v
  · rw [href] at h; cases h
  · rw [Cmp.xorResult, href, Ring.get_mod]

/-- The reference is a slot that holds a value. -/
theorem Cmp.reference_le {c : Cmp} (hfirst : c.first = false) (v : Word) :
    (c.reference v).1 ≤ min c.size 127 := by
  obtain ⟨m, hmatch, _, href⟩ | href := c.reference_cases v
  · have hlive : m ≤ c.size := ((Cmp.indexOf_eq_some_iff hfirst _ _).mp hmatch).1
    have hmod : m % 128 ≤ m := Nat.mod_le m 128
    rw [href]
    omega
  · rw [href]
    omega

/-- Settles O23: the cases of reference selection, and the XOR result behind a set `exceed`. -/
theorem referenceSelection : Obligations.ReferenceSelection := by
  unfold Obligations.ReferenceSelection
  refine fun c v => ⟨fun m => Cmp.reference_of_above, fun m => Cmp.reference_of_below, Cmp.reference_of_none, rfl,
    fun hexceed => ?_⟩
  obtain ⟨m, hmatch, hxor, _⟩ := Cmp.xorResult_of_exceed hexceed
  exact ⟨m, hmatch, hxor⟩

/-! ### The branch selector (R176) -/

/-- Settles O24: in each case of the selector exactly one of the four conditions holds. -/
theorem branchSelector : Obligations.BranchSelector := by
  unfold Obligations.BranchSelector
  intro x exceed prev
  obtain ⟨hpath, hx⟩ | ⟨hpath, hx, hexceed⟩ | ⟨hpath, hx, hexceed, hprev⟩ | ⟨hpath, hx, hexceed, hprev⟩ :=
    choosePath_cases x exceed prev
  all_goals rw [hpath]
  · simp [hx]
  · simpa [hexceed] using hx
  · simpa [hexceed, hprev] using hx
  · simpa [hexceed, hprev] using hx

/-- IDENT is taken when the value equals the reference. -/
theorem Cmp.xorResult_of_ident {c : Cmp} {v : Word} (h : c.storePath v = .ident) : c.xorResult v = 0 := by
  obtain ⟨hident, -⟩ := branchSelector (c.xorResult v) (c.reference v).2 c.prevLz
  exact hident.mp h

/-- TRAIL is taken with a non-zero XOR result and `exceed` set. -/
theorem Cmp.storePath_trail {c : Cmp} {v : Word} (h : c.storePath v = .trail) :
    c.xorResult v ≠ 0 ∧ (c.reference v).2 = true := by
  obtain ⟨-, htrail, -⟩ := branchSelector (c.xorResult v) (c.reference v).2 c.prevLz
  exact htrail.mp h

/-- LZEQ is taken with a non-zero XOR result, `exceed` clear and the bucket in force. -/
theorem Cmp.storePath_lzeq {c : Cmp} {v : Word} (h : c.storePath v = .lzeq) :
    c.xorResult v ≠ 0 ∧ (c.reference v).2 = false ∧ c.prevLz = some (bucketSel (clz64 (c.xorResult v))) := by
  obtain ⟨-, -, hlzeq, -⟩ := branchSelector (c.xorResult v) (c.reference v).2 c.prevLz
  exact hlzeq.mp h

/-- LZLOAD is taken with a non-zero XOR result, `exceed` clear and another bucket. -/
theorem Cmp.storePath_lzload {c : Cmp} {v : Word} (h : c.storePath v = .lzload) :
    c.xorResult v ≠ 0 ∧ (c.reference v).2 = false := by
  obtain ⟨-, -, -, hlzload⟩ := branchSelector (c.xorResult v) (c.reference v).2 c.prevLz
  obtain ⟨hx, hexceed, -⟩ := hlzload.mp h
  exact ⟨hx, hexceed⟩

/-! ### The significant bits (R145, R179) -/

/-- A TRAIL path's XOR result has at least 14 trailing zeros. -/
theorem Cmp.ctz64_xorResult_of_trail {c : Cmp} {v : Word} (h : c.storePath v = .trail) :
    14 ≤ ctz64 (c.xorResult v) := by
  obtain ⟨m, _, hxor, habove⟩ := Cmp.xorResult_of_exceed (Cmp.storePath_trail h).2
  rwa [hxor]

/-- The highest set bit is not below the lowest. -/
theorem clz64_add_ctz64_le {x : Word} (h : x ≠ 0) : clz64 x + ctz64 x ≤ 63 := by
  obtain ⟨hclz, hhighest, _⟩ := clz64_spec h
  obtain ⟨_, _, hbelow⟩ := ctz64_spec h
  by_contra hover
  rw [hbelow (63 - clz64 x) (by omega)] at hhighest
  cases hhighest

/-- The bucket bound, the significant bits and the trailing zeros make up the 64 bits, with at least one significant
bit. -/
theorem trailSig_add {x : Word} (h : x ≠ 0) :
    1 ≤ trailSig x ∧ trailSig x + bucket (bucketSel (clz64 x)) + ctz64 x = 64 := by
  have hbits := clz64_add_ctz64_le h
  have hbound := bucket_bucketSel_le (clz64 x)
  unfold trailSig
  omega

/-- The significant bits hold all of a non-zero value but its trailing zeros. -/
theorem ushiftRight_ctz64_lt {x : Word} (h : x ≠ 0) : (x >>> ctz64 x).toNat < 2 ^ trailSig x := by
  obtain ⟨_, hsum⟩ := trailSig_add h
  have hexp : 64 - bucket (bucketSel (clz64 x)) = ctz64 x + trailSig x := by omega
  rw [BitVec.toNat_ushiftRight, Nat.shiftRight_eq_div_pow]
  apply Nat.div_lt_of_lt_mul
  rw [← pow_add, ← hexp]
  exact toNat_lt_two_pow_sub_bucket h

/-- Shifting the trailing zeros out and in again gives the value back. -/
theorem ushiftRight_shiftLeft_ctz64 {x : Word} (h : x ≠ 0) : (x >>> ctz64 x) <<< ctz64 x = x := by
  obtain ⟨_, _, hbelow⟩ := ctz64_spec h
  apply BitVec.eq_of_getLsbD_eq
  intro i hi
  by_cases hlow : i < ctz64 x
  · simp [hlow, hbelow i hlow]
  · simp [hlow, hi, Nat.add_sub_cancel' (Nat.le_of_not_lt hlow)]

/-! ### The record of each path (R173, R178 to R181, R184) -/

theorem Cmp.emission_of_first {c : Cmp} (h : c.first = true) (v : Word) : c.emission v = c.emitFirst v := by
  simp [Cmp.emission, h]

theorem Cmp.emission_of_ident {c : Cmp} {v : Word} (hfirst : c.first = false) (h : c.storePath v = .ident) :
    c.emission v = emitIdent (c.reference v).1 := by
  simp [Cmp.emission, hfirst, h]

theorem Cmp.emission_of_trail {c : Cmp} {v : Word} (hfirst : c.first = false) (h : c.storePath v = .trail) :
    c.emission v = emitTrail c.params.layout (c.reference v).1 (c.xorResult v) := by
  simp [Cmp.emission, hfirst, h]

theorem Cmp.emission_of_lzeq {c : Cmp} {v : Word} (hfirst : c.first = false) (h : c.storePath v = .lzeq) :
    c.emission v = emitLzeq c.prevLz (c.xorResult v) := by
  simp [Cmp.emission, hfirst, h]

theorem Cmp.emission_of_lzload {c : Cmp} {v : Word} (hfirst : c.first = false) (h : c.storePath v = .lzload) :
    c.emission v = emitLzload (c.xorResult v) := by
  simp [Cmp.emission, hfirst, h]

/-- Settles O30: the record of each path, field by field; TRAIL's width is 64 less the bound and the trailing zeros. -/
theorem fieldWidthsByPath : Obligations.FieldWidthsByPath := by
  unfold Obligations.FieldWidthsByPath
  refine fun c v => ⟨fun hfirst => ?first, fun hfirst =>
    ⟨fun hpath => ?ident, fun hpath => ?trail, fun hpath => ?lzeq, fun hpath => ?lzload⟩⟩
  case first => rw [Cmp.emission_of_first hfirst]; exact ⟨rfl, rfl, rfl, rfl⟩
  case ident => rw [Cmp.emission_of_ident hfirst hpath]; exact ⟨rfl, rfl, rfl, rfl⟩
  case trail =>
    obtain ⟨hlow, hsum⟩ := trailSig_add (Cmp.storePath_trail hpath).1
    have hctz := Cmp.ctz64_xorResult_of_trail hpath
    have hhigh : trailSig (c.xorResult v) ≤ 50 := by omega
    rw [Cmp.emission_of_trail hfirst hpath]
    exact ⟨hlow, hhigh, rfl, rfl, rfl⟩
  case lzeq => rw [Cmp.emission_of_lzeq hfirst hpath]; exact ⟨rfl, rfl, rfl, rfl⟩
  case lzload => rw [Cmp.emission_of_lzload hfirst hpath]; exact ⟨rfl, rfl, rfl, rfl⟩

end Sys2Proof.Machine
end

/-! ## The compressor unit's commands (42_compressor.md R171 to R186, O22, O25 to O29, O31 to O33)

`STORE` has four outcomes (`exec_store_of_fault`, `exec_store_of_flushed`, `exec_store_of_lacks`, `exec_store_of_room`);
the statements of the paths are the last of them with the record of the path put in. -/

section
namespace Sys2Proof.Machine

/-! ### The capacity check (R172) -/

/-- The check passes exactly when no region lacks room. -/
theorem Cmp.overflow_eq_none_iff (c : Cmp) (e : Emission) : c.overflow e = none ↔ ¬ c.lacks e := by
  simp only [Cmp.overflow, Cmp.lacks, lacksRoom, Bool.and_eq_true, Option.isSome_iff_ne_none]
  split_ifs <;> simp_all

/-- A record finds room where its field, its flag and its side entries do. -/
theorem Cmp.not_lacks_of_room {c : Cmp} {e : Emission} (hroom : c.roomFor e.width)
    (hsel : e.sel = none ∨ c.measure = true ∨ exceeds c.params.lzbCap (c.lzbCount + 1) = false)
    (hpacked : e.packed = none ∨ c.measure = true ∨ exceeds c.params.pdbCap (c.pdbCount + 1) = false) :
    ¬ c.lacks e := by
  rintro ⟨hm, hlack⟩
  simp only [Cmp.roomFor, hm, Bool.false_eq_true, false_or] at hroom hsel hpacked
  obtain ⟨hbs, hfb⟩ := hroom
  obtain hlack | ⟨_, hlack⟩ | ⟨hsome, hlack⟩ | ⟨hsome, hlack⟩ := hlack
  · simp [hbs] at hlack
  · simp [hfb] at hlack
  · simp [hsome, hlack] at hsel
  · simp [hsome, hlack] at hpacked

/-- No record lacks room in a unit of unbounded capacities. -/
theorem Cmp.not_lacks_of_unbounded {c : Cmp} (h : c.unbounded) (e : Emission) : ¬ c.lacks e := by
  obtain ⟨hbs, hfb, hlzb, hpdb⟩ := h
  simp [Cmp.lacks, exceeds, hbs, hfb, hlzb, hpdb]

theorem Cmp.exceeds_bsCapBits_of_unbounded {c : Cmp} (h : c.unbounded) (need : Nat) :
    exceeds c.params.bsCapBits need = false := by
  obtain ⟨hbs, -⟩ := h
  rw [hbs, exceeds]

/-- No record lacks room in measurement mode, where no capacity is checked. -/
theorem Cmp.not_lacks_of_measure {c : Cmp} (h : c.measure = true) (e : Emission) : ¬ c.lacks e := by
  simp [h]

/-! ### A committed record, field by field (R173, R178 to R182) -/

section
variable (c : Cmp) (v : Word) (e : Emission)

@[simp] theorem Cmp.commit_ring :
    (c.commit v e).ring = Ring.put c.ring (if c.first then 0 else c.size + 1) v := by
  rw [Cmp.commit_eq]

@[simp] theorem Cmp.commit_size : (c.commit v e).size = if c.first then c.size else c.size + 1 := by rw [Cmp.commit_eq]

@[simp] theorem Cmp.commit_first : (c.commit v e).first = false := by rw [Cmp.commit_eq]

@[simp] theorem Cmp.commit_prevLz : (c.commit v e).prevLz = e.prevLz := by rw [Cmp.commit_eq]

@[simp] theorem Cmp.commit_flushed : (c.commit v e).flushed = c.flushed := by rw [Cmp.commit_eq]

@[simp] theorem Cmp.commit_fault : (c.commit v e).fault = c.fault := by rw [Cmp.commit_eq]

@[simp] theorem Cmp.commit_measure : (c.commit v e).measure = c.measure := by rw [Cmp.commit_eq]

@[simp] theorem Cmp.commit_fb :
    (c.commit v e).fb = Memory.appendOpt c.measure c.fb c.fbCount e.flag := by
  rw [Cmp.commit_eq]

@[simp] theorem Cmp.commit_fbCount : (c.commit v e).fbCount = countOpt c.fbCount e.flag := by rw [Cmp.commit_eq]

@[simp] theorem Cmp.commit_lzb :
    (c.commit v e).lzb = Memory.appendOpt c.measure c.lzb c.lzbCount e.sel := by
  rw [Cmp.commit_eq]

@[simp] theorem Cmp.commit_lzbCount : (c.commit v e).lzbCount = countOpt c.lzbCount e.sel := by rw [Cmp.commit_eq]

@[simp] theorem Cmp.commit_pdb :
    (c.commit v e).pdb = Memory.appendOpt c.measure c.pdb c.pdbCount e.packed := by
  rw [Cmp.commit_eq]

@[simp] theorem Cmp.commit_pdbCount : (c.commit v e).pdbCount = countOpt c.pdbCount e.packed := by rw [Cmp.commit_eq]

@[simp] theorem Cmp.commit_bs :
    (c.commit v e).bs = if c.measure then c.bs else Memory.writeBits c.bs c.bsWpos e.width e.field := by
  rw [Cmp.commit_eq]

@[simp] theorem Cmp.commit_bsWpos : (c.commit v e).bsWpos = c.bsWpos + e.width := by rw [Cmp.commit_eq]

@[simp] theorem Cmp.commit_params : (c.commit v e).params = c.params := by rw [Cmp.commit_eq]

end

/-! ### The outcomes of `STORE` and `FLUSH` (R172, R186) -/

@[simp] theorem causeCode_bufferOverflow (which : CmpRegion) : causeCode (.bufferOverflow which) = 8 := rfl

/-- The unit that a `STORE` leaves, whether or not the unit is FAULTED. -/
theorem exec_store_of {s : State} {c : Cmp} (h : AtCmp s c) (v : Word) :
    exec (.store v) s = .next (s.setCmp (Cmp.unlessFaulted (Cmp.store v) c)) :=
  onCmp_of h

/-- The unit that a `FLUSH` leaves, whether or not the unit is FAULTED. -/
theorem exec_flush_of {s : State} {c : Cmp} (h : AtCmp s c) :
    exec .flush s = .next (s.setCmp (Cmp.unlessFaulted Cmp.flush c)) :=
  onCmp_of h

/-- `CINIT` initialises the unit in every condition (R171). -/
theorem exec_cinit_of {s : State} {c : Cmp} (h : AtCmp s c) : exec .cinit s = .next (s.setCmp c.init) :=
  onCmp_of h

theorem exec_store_of_fault {s : State} {c : Cmp} (h : AtCmp s c) (hfault : c.fault = true) (v : Word) :
    exec (.store v) s = .next s := by
  rw [exec_store_of h, Cmp.unlessFaulted_of_fault hfault, State.setCmp_self h]

theorem exec_flush_of_fault {s : State} {c : Cmp} (h : AtCmp s c) (hfault : c.fault = true) :
    exec .flush s = .next s := by
  rw [exec_flush_of h, Cmp.unlessFaulted_of_fault hfault, State.setCmp_self h]

theorem Cmp.store_of_flushed {c : Cmp} (h : c.flushed = true) (v : Word) :
    c.store v = c.raise (.illegalCommand .store) := by
  simp [Cmp.store, h]

theorem Cmp.store_of_overflow {c : Cmp} {v : Word} {which : CmpRegion} (hopen : c.flushed = false)
    (h : c.overflow (c.emission v) = some which) : c.store v = c.raise (.bufferOverflow which) := by
  simp [Cmp.store, hopen, h]

theorem Cmp.store_of_room {c : Cmp} {v : Word} (hopen : c.flushed = false) (h : ¬ c.lacks (c.emission v)) :
    c.store v = c.commit v (c.emission v) := by
  simp [Cmp.store, hopen, (c.overflow_eq_none_iff _).mpr h]

theorem Cmp.flush_of_flushed {c : Cmp} (h : c.flushed = true) : c.flush = c.raise (.illegalCommand .flush) := by
  simp [Cmp.flush, h]

theorem Cmp.flush_of_overflow {c : Cmp} (hopen : c.flushed = false) (hm : c.measure = false)
    (h : exceeds c.params.bsCapBits (c.bsWpos + padBits c.bsWpos) = true) :
    c.flush = c.raise (.bufferOverflow .bs) := by
  simp [Cmp.flush, hopen, hm, h]

/-- A `FLUSH` that completes, as one record update. -/
theorem Cmp.flush_of_room {c : Cmp} (hopen : c.flushed = false)
    (h : c.measure = true ∨ exceeds c.params.bsCapBits (c.bsWpos + padBits c.bsWpos) = false) :
    c.flush =
      { c with
        bs := if c.measure then c.bs else Memory.writeBits c.bs c.bsWpos (padBits c.bsWpos) 0
        bsWpos := c.bsWpos + padBits c.bsWpos
        flushed := true } := by
  have hroom : (!c.measure && exceeds c.params.bsCapBits (c.bsWpos + padBits c.bsWpos)) = false := by
    obtain h | h := h <;> simp [h]
  simp [Cmp.flush, hopen, hroom, Cmp.bsFlush_eq]

/-- A `STORE` to a FLUSHED unit is illegal. -/
theorem exec_store_of_flushed {s : State} {c : Cmp} (h : AtCmp s c) (hrun : c.fault = false)
    (hflushed : c.flushed = true)
    (v : Word) : exec (.store v) s = .next (s.setCmp (c.raise (.illegalCommand .store))) := by
  rw [exec_store_of h, Cmp.unlessFaulted_of_run hrun, Cmp.store_of_flushed hflushed]

/-- A `STORE` whose record finds room commits it. -/
theorem exec_store_of_room {s : State} {c : Cmp} {v : Word} (h : AtCmp s c) (hrun : c.fault = false)
    (hopen : c.flushed = false) (hroom : ¬ c.lacks (c.emission v)) :
    exec (.store v) s = .next (s.setCmp (c.commit v (c.emission v))) := by
  rw [exec_store_of h, Cmp.unlessFaulted_of_run hrun, Cmp.store_of_room hopen hroom]

/-- The same, with the record named and its needs listed. -/
theorem exec_store_of_record {s : State} {c : Cmp} {v : Word} {e : Emission} (h : AtCmp s c) (hrun : c.fault = false)
    (hopen : c.flushed = false) (hrecord : c.emission v = e) (hroom : c.roomFor e.width)
    (hsel : e.sel = none ∨ c.measure = true ∨ exceeds c.params.lzbCap (c.lzbCount + 1) = false)
    (hpacked : e.packed = none ∨ c.measure = true ∨ exceeds c.params.pdbCap (c.pdbCount + 1) = false) :
    exec (.store v) s = .next (s.setCmp (c.commit v e)) := by
  subst hrecord
  exact exec_store_of_room h hrun hopen (Cmp.not_lacks_of_room hroom hsel hpacked)

/-- A `STORE` whose record finds no room overflows, whichever region it is that lacks it. -/
theorem exec_store_of_lacks {s : State} {c : Cmp} {v : Word} (h : AtCmp s c) (hrun : c.fault = false)
    (hopen : c.flushed = false) (hlacks : c.lacks (c.emission v)) :
    ∃ which, exec (.store v) s = .next (s.setCmp (c.raise (.bufferOverflow which))) := by
  have hover : c.overflow (c.emission v) ≠ none := fun hnone => (c.overflow_eq_none_iff _).mp hnone hlacks
  obtain ⟨which, hwhich⟩ := Option.ne_none_iff_exists'.mp hover
  exact ⟨which, by rw [exec_store_of h, Cmp.unlessFaulted_of_run hrun, Cmp.store_of_overflow hopen hwhich]⟩

/-- Settles O32: the four outcomes of `STORE`. -/
theorem storePrologue : Obligations.StorePrologue := by
  unfold Obligations.StorePrologue
  refine fun s c v hat => ⟨fun hfault => exec_store_of_fault hat hfault v,
    fun hrun hflushed => ⟨exec_store_of_flushed hat hrun hflushed v, by simp⟩,
    fun hrun hopen hlacks => ?overflow,
    fun hrun hopen hroom => ⟨exec_store_of_room hat hrun hopen hroom, by simp [hrun]⟩⟩
  case overflow =>
    obtain ⟨which, hexec⟩ := exec_store_of_lacks hat hrun hopen hlacks
    exact ⟨which, hexec, by simp⟩

/-- The pad of R152 ends at a byte boundary. -/
theorem add_padBits_mod (wpos : Nat) : (wpos + padBits wpos) % 8 = 0 := by
  unfold padBits
  omega

/-- Settles O33: the outcomes of `FLUSH`; the statement's pad is `padBits`. -/
theorem flushPadsToByte : Obligations.FlushPadsToByte := by
  unfold Obligations.FlushPadsToByte
  rintro s c pad hat rfl
  refine ⟨exec_flush_of_fault hat, fun hrun hflushed => ?illegal, fun hrun hopen hm hover => ?overflow,
    fun hrun hopen hroom => ⟨add_padBits_mod c.bsWpos, ?pad⟩⟩
  all_goals rw [exec_flush_of hat, Cmp.unlessFaulted_of_run hrun]
  case illegal => rw [Cmp.flush_of_flushed hflushed]
  case overflow => rw [Cmp.flush_of_overflow hopen hm hover]
  case pad => rw [Cmp.flush_of_room hopen hroom]; rfl

/-! ### `CINIT` (R171) -/

/-- After `CINIT` with `C_CONFIG = 0`, `C_STATUS` shows `FIRST` alone. -/
theorem cmpStatus_init {c : Cmp} (h : c.config = 0) : cmpStatus c.init = 1 := by
  simp [cmpStatus, statusBit, h]

/-- Settles O22: `Cmp.init` is the update of the statement; its ring and source are the ones left undefined. -/
theorem cinitStartsStream : Obligations.CinitStartsStream := by
  unfold Obligations.CinitStartsStream
  exact fun s c hat => ⟨c.init.ring, c.init.src, exec_cinit_of hat, cmpStatus_init⟩

/-! ### The paths of `STORE` (R173, R178 to R181) -/

/-- Settles O25: the FIRST record, whose only need is 64 bits of the Bit Stream. -/
theorem storeFirstValue : Obligations.StoreFirstValue := by
  unfold Obligations.StoreFirstValue
  intro s c v hat hrun hopen hfirst
  have hrecord : c.emission v = c.emitFirst v := Cmp.emission_of_first hfirst v
  refine ⟨fun hroom => ?room, fun hm hover => ?overflow⟩
  case room =>
    have hfits : ¬ c.lacks (c.emission v) := by
      rw [hrecord]
      obtain hroom | hroom := hroom <;> simp [Cmp.emitFirst, hroom]
    rw [exec_store_of_room hat hrun hopen hfits, hrecord, Cmp.commit_eq]
    simp [hfirst, Cmp.emitFirst, Memory.appendOpt, countOpt]
  case overflow =>
    have hwhich : c.overflow (c.emission v) = some .bs := by
      rw [hrecord]
      simp [Cmp.overflow, Cmp.emitFirst, hm, hover]
    rw [exec_store_of hat, Cmp.unlessFaulted_of_run hrun, Cmp.store_of_overflow hopen hwhich]

/-- Settles O26: the IDENT record has no side entry. -/
theorem storeIdenticalValue : Obligations.StoreIdenticalValue := by
  unfold Obligations.StoreIdenticalValue
  intro s c v hat hrun hopen hfirst hpath hroom
  rw [exec_store_of_record hat hrun hopen (Cmp.emission_of_ident hfirst hpath) hroom (.inl rfl) (.inl rfl),
    Cmp.commit_eq]
  simp [hfirst, emitIdent, flagOf, Memory.appendOpt, countOpt]

/-- Settles O27: the TRAIL record has a packed record beside its field. -/
theorem storeTrailingExceeds : Obligations.StoreTrailingExceeds := by
  unfold Obligations.StoreTrailingExceeds
  rintro s c v x sel sig hat hrun hopen hfirst hpath rfl rfl rfl hroom hpdb
  rw [exec_store_of_record hat hrun hopen (Cmp.emission_of_trail hfirst hpath) hroom (.inl rfl) (.inr hpdb),
    Cmp.commit_eq]
  simp [hfirst, emitTrail, trailSig, flagOf, Memory.appendOpt, countOpt]

/-- Settles O28: the LZEQ record has no side entry and passes `s.prev_lz` through. -/
theorem storeLeadingZeroEquality : Obligations.StoreLeadingZeroEquality := by
  unfold Obligations.StoreLeadingZeroEquality
  rintro s c v x sel hat hrun hopen hfirst hpath rfl rfl hroom
  rw [exec_store_of_record hat hrun hopen (Cmp.emission_of_lzeq hfirst hpath) hroom (.inl rfl) (.inl rfl),
    Cmp.commit_eq]
  simp [hfirst, emitLzeq, flagOf, Memory.appendOpt, countOpt]

/-- Settles O29: the LZLOAD record has a selector beside its field. -/
theorem storeLeadingZeroLoad : Obligations.StoreLeadingZeroLoad := by
  unfold Obligations.StoreLeadingZeroLoad
  rintro s c v x sel hat hrun hopen hfirst hpath rfl rfl hroom hlzb
  rw [exec_store_of_record hat hrun hopen (Cmp.emission_of_lzload hfirst hpath) hroom (.inr hlzb) (.inl rfl),
    Cmp.commit_eq]
  simp [hfirst, emitLzload, flagOf, Memory.appendOpt, countOpt]

/-! ### Measurement mode (R185) -/

/-- An append leaves its region alone in measurement mode. -/
@[simp] theorem Memory.appendOpt_true {w : Nat} (m : Memory w) (n : Nat) (e : Option (BitVec w)) :
    Memory.appendOpt true m n e = m := by
  cases e <;> rfl

/-- A record depends on the key function and the layout, not on the mode or the capacities. -/
theorem Cmp.emission_congr_mode (c : Cmp) (measure : Bool) (bsCap fbCap lzbCap pdbCap : Option Nat) (v : Word) :
    Cmp.emission
      { c with
        measure := measure
        params := { c.params with bsCapBits := bsCap, fbCap := fbCap, lzbCap := lzbCap, pdbCap := pdbCap } } v
      = c.emission v := rfl

/-- Settles O31: both units have room and the same record, so they differ in what they write alone. -/
theorem measurementModeCounts : Obligations.MeasurementModeCounts := by
  unfold Obligations.MeasurementModeCounts
  intro c real v hm hreal hopen
  have hopenReal : real.flushed = false := by rw [hreal]; exact hopen
  have hcaps : real.unbounded := by rw [hreal]; exact ⟨rfl, rfl, rfl, rfl⟩
  have hrecord : real.emission v = c.emission v := by rw [hreal, Cmp.emission_congr_mode]
  constructor
  · rw [Cmp.store_of_room hopen (Cmp.not_lacks_of_measure hm _),
      Cmp.store_of_room hopenReal (Cmp.not_lacks_of_unbounded hcaps _), hrecord, Cmp.commit_eq, Cmp.commit_eq, hreal]
    simp [hm]
  · rw [Cmp.flush_of_room hopen (.inl hm),
      Cmp.flush_of_room hopenReal (.inr (Cmp.exceeds_bsCapBits_of_unbounded hcaps _)),
      hreal]
    simp [hm]

end Sys2Proof.Machine
end

/-! ## Runs of commands (20_memory.md R72; 30_encoding.md R108)

A run of one unit's commands is the fold of what each does to the unit. -/

section
namespace Sys2Proof.Machine

/-! ### Replacing the addressed unit -/

@[simp] theorem State.setCmp_setCmp (s : State) (c c' : Cmp) : (s.setCmp c).setCmp c' = s.setCmp c' := by
  simp [State.setCmp]

@[simp] theorem State.setDec_setDec (s : State) (d d' : Dec) : (s.setDec d).setDec d' = s.setDec d' := by
  simp [State.setDec]

theorem AtCmp.setCmp {s : State} {c : Cmp} (h : AtCmp s c) (c' : Cmp) : AtCmp (s.setCmp c') c' := by
  obtain ⟨hunit, _⟩ := List.getElem?_eq_some_iff.mp h
  simp [AtCmp, hunit]

theorem AtDec.setDec {s : State} {d : Dec} (h : AtDec s d) (d' : Dec) : AtDec (s.setDec d') d' := by
  obtain ⟨hunit, _⟩ := List.getElem?_eq_some_iff.mp h
  simp [AtDec, hunit]

/-! ### Commands in a row -/

theorem execAll_cons_of_next {i : Instr} {s t : State} (h : exec i s = .next t) (is : List Instr) :
    execAll (i :: is) s = execAll is t := by
  simp only [execAll, h]

theorem execAll_append_of_next {is : List Instr} {s t : State} (h : execAll is s = .next t) (js : List Instr) :
    execAll (is ++ js) s = execAll js t := by
  induction is generalizing s with
  | nil => cases h; rfl
  | cons i is ih =>
    cases hi : exec i s with
    | next u =>
      rw [execAll_cons_of_next hi] at h
      rw [List.cons_append, execAll_cons_of_next hi, ih h]
    | fault r => simp only [execAll, hi] at h; cases h
    | refused r => simp only [execAll, hi] at h; cases h

/-- What a run of `STORE`s leaves of the unit it reaches. -/
def Cmp.storeAll (c : Cmp) (vs : List Word) : Cmp :=
  vs.foldl (fun u v => Cmp.unlessFaulted (Cmp.store v) u) c

@[simp] theorem Cmp.storeAll_nil (c : Cmp) : c.storeAll [] = c := rfl

@[simp] theorem Cmp.storeAll_cons (c : Cmp) (v : Word) (vs : List Word) :
    c.storeAll (v :: vs) = (Cmp.unlessFaulted (Cmp.store v) c).storeAll vs := rfl

theorem Cmp.storeAll_append (c : Cmp) (vs ws : List Word) : c.storeAll (vs ++ ws) = (c.storeAll vs).storeAll ws := by
  simp [Cmp.storeAll]

theorem execAll_stores (vs : List Word) {s : State} {c : Cmp} (h : AtCmp s c) :
    execAll (vs.map .store) s = .next (s.setCmp (c.storeAll vs)) := by
  induction vs generalizing s c with
  | nil => rw [Cmp.storeAll_nil, State.setCmp_self h]; rfl
  | cons v vs ih =>
    rw [List.map_cons, execAll_cons_of_next (exec_store_of h v), ih (h.setCmp _), State.setCmp_setCmp,
      Cmp.storeAll_cons]

/-- What one `LOAD` leaves of the unit it reaches. -/
def Dec.load (flag : BitVec 8) (d : Dec) : Dec :=
  Dec.unlessFaulted (Dec.loadWith fun u => u.readCoded flag) d

/-- What a run of `LOAD`s leaves of the unit it reaches. -/
def Dec.loadAll (d : Dec) (flags : List (BitVec 8)) : Dec :=
  flags.foldl (fun u flag => u.load flag) d

@[simp] theorem Dec.loadAll_nil (d : Dec) : d.loadAll [] = d := rfl

@[simp] theorem Dec.loadAll_cons (d : Dec) (flag : BitVec 8) (flags : List (BitVec 8)) :
    d.loadAll (flag :: flags) = (d.load flag).loadAll flags := rfl

theorem Dec.loadAll_append (d : Dec) (flags flags' : List (BitVec 8)) :
    d.loadAll (flags ++ flags') = (d.loadAll flags).loadAll flags' := by
  simp [Dec.loadAll]

theorem execAll_loads (flags : List (BitVec 8)) {s : State} {d : Dec} (h : AtDec s d) :
    execAll (flags.map .load) s = .next (s.setDec (d.loadAll flags)) := by
  induction flags generalizing s d with
  | nil => rw [Dec.loadAll_nil, State.setDec_self h]; rfl
  | cons flag flags ih =>
    rw [List.map_cons, execAll_cons_of_next (exec_load_of h flag), ih (h.setDec _), State.setDec_setDec,
      Dec.loadAll_cons, Dec.load]

/-- `DINIT` initialises the unit in every condition (43_decompressor.md R201). -/
theorem exec_dinit_of {s : State} {d : Dec} (h : AtDec s d) : exec .dinit s = .next (s.setDec d.init) :=
  onDec_of h

/-- `CINIT` and a run of `STORE`s. -/
theorem execAll_cinit_stores {s : State} {c : Cmp} (h : AtCmp s c) (vs : List Word) :
    execAll (.cinit :: vs.map .store) s = .next (s.setCmp (c.init.storeAll vs)) := by
  rw [execAll_cons_of_next (exec_cinit_of h), execAll_stores vs (h.setCmp _), State.setCmp_setCmp]

/-- `DINIT` and a run of `LOAD`s. -/
theorem execAll_dinit_loads {s : State} {d : Dec} (h : AtDec s d) (flags : List (BitVec 8)) :
    execAll (.dinit :: flags.map .load) s = .next (s.setDec (d.init.loadAll flags)) := by
  rw [execAll_cons_of_next (exec_dinit_of h), execAll_loads flags (h.setDec _), State.setDec_setDec]

/-- `ENCODE` (R108 (a)). -/
theorem execAll_encodeCommands {s : State} {c : Cmp} (h : AtCmp s c) (vs : List Word) :
    execAll (encodeCommands vs) s =
      .next (s.setCmp (Cmp.unlessFaulted Cmp.flush (c.init.storeAll vs))) := by
  rw [encodeCommands, ← List.cons_append, execAll_append_of_next (execAll_cinit_stores h vs),
    execAll_cons_of_next (exec_flush_of (h.setCmp _)), State.setCmp_setCmp, execAll]

end Sys2Proof.Machine
end

/-! ## A compressor unit that records a stream (10_state.md R30 to R33; 42_compressor.md R172 to R186)

Appends only add: while a stream is recorded its regions stay filled up to their counts, and what a unit has written it
keeps (`Cmp.Extends`). -/

section
namespace Sys2Proof.Machine

/-! ### What an append keeps of a region -/

/-- Every element of one memory is in another. -/
def Memory.Extends {w : Nat} (m m' : Memory w) : Prop :=
  ∀ a x, m.read a = some x → m'.read a = some x

theorem Memory.Extends.refl {w : Nat} (m : Memory w) : m.Extends m := fun _ _ h => h

theorem Memory.Extends.trans {w : Nat} {m m' m'' : Memory w} (h : m.Extends m') (h' : m'.Extends m'') : m.Extends m'' :=
  fun a x hx => h' a x (h a x hx)

/-- A memory holds nothing at or above the number of elements that fill it. -/
theorem Memory.fills.lt_of_read {w : Nat} {m : Memory w} {n a : Nat} {x : BitVec w} (h : Memory.fills m n)
    (hx : m.read a = some x) : a < n := by
  simpa [hx] using h a

theorem Memory.extends_writeBits {m : Memory 1} {n : Nat} (h : Memory.fills m n) (k : Nat) (v : Word) :
    m.Extends (Memory.writeBits m n k v) := by
  intro a x hx
  have ha := h.lt_of_read hx
  rwa [Memory.read_writeBits, if_neg (by omega)]

theorem Memory.extends_appendOpt {w : Nat} {m : Memory w} {n : Nat} (h : Memory.fills m n) (e : Option (BitVec w)) :
    m.Extends (Memory.appendOpt false m n e) := by
  intro a x hx
  cases e with
  | none => exact hx
  | some y => rwa [Memory.appendOpt, if_neg Bool.false_ne_true, Memory.read_write_other m (h.lt_of_read hx).ne]

theorem Memory.fills_appendOpt {w : Nat} {m : Memory w} {n : Nat} (h : Memory.fills m n) (e : Option (BitVec w)) :
    Memory.fills (Memory.appendOpt false m n e) (countOpt n e) := by
  cases e with
  | none => exact h
  | some x => exact Memory.fills_write h x

theorem Memory.read_appendOpt_some {w : Nat} (m : Memory w) (n : Nat) (x : BitVec w) :
    Memory.read (Memory.appendOpt false m n (some x)) n = some x :=
  Memory.read_write_self m n x

theorem le_countOpt {w : Nat} (n : Nat) (e : Option (BitVec w)) : n ≤ countOpt n e := by
  cases e
  · exact le_rfl
  · exact Nat.le_succ n

/-! ### What a unit keeps -/

/-- One compressor unit has everything that another has written, under the same parameters. -/
structure Cmp.Extends (c c' : Cmp) : Prop where
  bits : c.bs.Extends c'.bs
  flags : c.fb.Extends c'.fb
  sels : c.lzb.Extends c'.lzb
  records : c.pdb.Extends c'.pdb
  bitCount : c.bsWpos ≤ c'.bsWpos
  selCount : c.lzbCount ≤ c'.lzbCount
  recordCount : c.pdbCount ≤ c'.pdbCount
  params : c'.params = c.params

theorem Cmp.Extends.refl (c : Cmp) : c.Extends c :=
  ⟨.refl _, .refl _, .refl _, .refl _, le_rfl, le_rfl, le_rfl, rfl⟩

theorem Cmp.Extends.trans {c c' c'' : Cmp} (h : c.Extends c') (h' : c'.Extends c'') : c.Extends c'' :=
  ⟨h.bits.trans h'.bits, h.flags.trans h'.flags, h.sels.trans h'.sels, h.records.trans h'.records,
    h.bitCount.trans h'.bitCount, h.selCount.trans h'.selCount, h.recordCount.trans h'.recordCount,
    h'.params.trans h.params⟩

/-- What carries a unit's stream carries that of any unit it extends. -/
theorem Carries.of_extends {c c' : Cmp} {d : Dec} (h : Carries d c') (hext : c.Extends c') : Carries d c :=
  ⟨hext.bits.trans h.bits, hext.sels.trans h.sels, hext.records.trans h.records,
    hext.bitCount.trans h.bitLength, hext.selCount.trans h.selLength, hext.recordCount.trans h.recordLength,
    h.layout.trans (congrArg CmpParams.layout hext.params)⟩

/-- A unit whose regions hold the stream its counts speak of: it is not FAULTED and not in measurement mode. -/
structure Cmp.Readable (c : Cmp) : Prop where
  runs : c.fault = false
  real : c.measure = false
  bsFills : Memory.fills c.bs c.bsWpos
  fbFills : Memory.fills c.fb c.fbCount
  lzbFills : Memory.fills c.lzb c.lzbCount
  pdbFills : Memory.fills c.pdb c.pdbCount

theorem Cmp.Readable.commit {c : Cmp} (h : c.Readable) (v : Word) (e : Emission) : (c.commit v e).Readable := by
  rw [Cmp.commit_eq, h.real]
  exact ⟨h.runs, rfl, Memory.fills_writeBits h.bsFills _ _, Memory.fills_appendOpt h.fbFills _,
    Memory.fills_appendOpt h.lzbFills _, Memory.fills_appendOpt h.pdbFills _⟩

theorem Cmp.Readable.extends_commit {c : Cmp} (h : c.Readable) (v : Word) (e : Emission) :
    c.Extends (c.commit v e) := by
  rw [Cmp.commit_eq, h.real]
  exact ⟨Memory.extends_writeBits h.bsFills _ _, Memory.extends_appendOpt h.fbFills _,
    Memory.extends_appendOpt h.lzbFills _, Memory.extends_appendOpt h.pdbFills _, Nat.le_add_right _ _,
    le_countOpt _ _, le_countOpt _ _, rfl⟩

/-! ### A stream of unbounded capacity -/

/-- A unit of unbounded capacities that has stored `vs` since `CINIT`: one flag for every value but the first
(10_state.md R48 (a), (b)). -/
structure Cmp.Encoding (c : Cmp) (vs : List Word) : Prop extends c.Readable where
  caps : c.unbounded
  unflushed : c.flushed = false
  first : c.first = vs.isEmpty
  flagCount : c.fbCount = vs.length - 1

theorem Cmp.encoding_init {c : Cmp} (hconfig : c.config.getLsbD 0 = false) (hcaps : c.unbounded) :
    c.init.Encoding [] :=
  { runs := rfl, real := hconfig, caps := hcaps, unflushed := rfl, first := rfl, flagCount := rfl
    bsFills := Memory.fills_nil, fbFills := Memory.fills_nil
    lzbFills := Memory.fills_nil, pdbFills := Memory.fills_nil }

/-- A record has a flag exactly when its value is not the first (R173, R182). -/
theorem Cmp.emission_flag (c : Cmp) (v : Word) :
    (c.emission v).flag = if c.first then none else some (flagOf (c.storePath v)) := by
  obtain ⟨hfirst, he⟩ | ⟨hfirst, hpath, he⟩ | ⟨hfirst, hpath, he⟩ | ⟨hfirst, hpath, he⟩ | ⟨hfirst, hpath, he⟩ :=
    c.emission_cases v
  · rw [he, hfirst]; rfl
  all_goals rw [he, hfirst, hpath]; rfl

section
variable {c : Cmp} {vs : List Word} (h : c.Encoding vs)
include h

/-- A `STORE` to such a unit commits its record. -/
theorem Cmp.Encoding.store_eq (v : Word) :
    Cmp.unlessFaulted (Cmp.store v) c = c.commit v (c.emission v) := by
  rw [Cmp.unlessFaulted_of_run h.runs, Cmp.store_of_room h.unflushed (Cmp.not_lacks_of_unbounded h.caps _)]

theorem Cmp.Encoding.commit (v : Word) : (c.commit v (c.emission v)).Encoding (vs ++ [v]) where
  toReadable := h.toReadable.commit v _
  caps := by rw [Cmp.unbounded, Cmp.commit_params]; exact h.caps
  unflushed := by rw [Cmp.commit_flushed, h.unflushed]
  first := by rw [Cmp.commit_first]; simp
  flagCount := by
    have hcount := h.flagCount
    have hfirst := h.first
    rw [Cmp.commit_fbCount, Cmp.emission_flag]
    cases vs <;> simpa [hfirst, countOpt] using hcount

theorem Cmp.Encoding.storeAll (ws : List Word) : (c.storeAll ws).Encoding (vs ++ ws) := by
  induction ws generalizing c vs with
  | nil => simpa using h
  | cons w ws ih =>
    rw [Cmp.storeAll_cons, h.store_eq w, List.append_cons]
    exact ih (h.commit w)

theorem Cmp.Encoding.extends_storeAll (ws : List Word) : c.Extends (c.storeAll ws) := by
  induction ws generalizing c vs with
  | nil => exact .refl c
  | cons w ws ih =>
    rw [Cmp.storeAll_cons, h.store_eq w]
    exact (h.extends_commit w _).trans (ih (h.commit w))

/-- `FLUSH` completes such a run. -/
theorem Cmp.Encoding.flush_eq :
    Cmp.unlessFaulted Cmp.flush c =
      { c with
        bs := Memory.writeBits c.bs c.bsWpos (padBits c.bsWpos) 0
        bsWpos := c.bsWpos + padBits c.bsWpos
        flushed := true } := by
  have hroom := Cmp.exceeds_bsCapBits_of_unbounded h.caps (c.bsWpos + padBits c.bsWpos)
  rw [Cmp.unlessFaulted_of_run h.runs, Cmp.flush_of_room h.unflushed (.inr hroom), h.real]
  rfl

theorem Cmp.Encoding.readable_flush : (Cmp.unlessFaulted Cmp.flush c).Readable := by
  rw [h.flush_eq]
  exact ⟨h.runs, h.real, Memory.fills_writeBits h.bsFills _ _, h.fbFills, h.lzbFills, h.pdbFills⟩

theorem Cmp.Encoding.runComplete_flush : (Cmp.unlessFaulted Cmp.flush c).runComplete := by
  rw [h.flush_eq]
  exact ⟨rfl, h.runs⟩

theorem Cmp.Encoding.extends_flush : c.Extends (Cmp.unlessFaulted Cmp.flush c) := by
  rw [h.flush_eq]
  exact ⟨Memory.extends_writeBits h.bsFills _ _, .refl _, .refl _, .refl _, Nat.le_add_right _ _, le_rfl, le_rfl, rfl⟩

end

/-! ### The stream as the host sees and transfers it (30_encoding.md R95, R108 (c)) -/

/-- The host reads of a region the elements that fill it. -/
theorem getElem?_range_map_hostView {w : Nat} {c : Cmp} {m : Memory w} {n : Nat} (hrun : c.fault = false)
    (hm : c.measure = false) (h : Memory.fills m n) (e : Config.Element) (k : Nat) :
    ((List.range n).map (hostView c e m))[k]? = m.read k := by
  have hk := h k
  by_cases hlt : k < n
  · rw [decide_eq_true hlt] at hk
    obtain ⟨x, hx⟩ := Option.isSome_iff_exists.mp hk
    simp [hlt, hostView, hrun, hm, hx]
  · rw [decide_eq_false hlt, Option.isSome_eq_false_iff, Option.isNone_iff_eq_none] at hk
    simp [hlt, hk]

theorem Cmp.Readable.getElem?_flags {c : Cmp} (h : c.Readable) (k : Nat) : c.stream.flags[k]? = c.fb.read k :=
  getElem?_range_map_hostView h.runs h.real h.fbFills .fb k

@[simp] theorem Cmp.length_stream_flags (c : Cmp) : c.stream.flags.length = c.fbCount := by
  simp [Cmp.stream]

/-- A region transferred has every element of the region. -/
theorem Memory.Extends.ofList_hostView {w : Nat} {c : Cmp} {m : Memory w} {n : Nat} (hrun : c.fault = false)
    (hm : c.measure = false) (h : Memory.fills m n) (e : Config.Element) :
    m.Extends (Memory.ofList 0 ((List.range n).map (hostView c e m))) := by
  intro a x hx
  rwa [Memory.read_ofList, if_neg (Nat.not_lt_zero a), Nat.sub_zero, getElem?_range_map_hostView hrun hm h]

/-- The unit that `TRANSFER` has filled and `DINIT` has initialised carries the stream. -/
theorem Cmp.Readable.carries {c : Cmp} (h : c.Readable) {d : Dec} (hlayout : d.params.layout = c.params.layout) :
    Carries (d.withStream c.stream).init c where
  bits := Memory.Extends.ofList_hostView h.runs h.real h.bsFills .bs
  sels := Memory.Extends.ofList_hostView h.runs h.real h.lzbFills .lzb
  records := Memory.Extends.ofList_hostView h.runs h.real h.pdbFills .pdb
  bitLength := by simp [Dec.withStream, Cmp.stream]
  selLength := by simp [Dec.withStream, Cmp.stream]
  recordLength := by simp [Dec.withStream, Cmp.stream]
  layout := hlayout

theorem transfer_of {s : State} {c : Cmp} {d : Dec} (hc : AtCmp s c) (hd : AtDec s d) :
    transfer s = s.setDec (d.withStream c.stream) := by
  simp only [transfer, hc, hd]

end Sys2Proof.Machine
end

/-! ## The round trip (42_compressor.md R191, O60)

The proof invariant of R191 is `InStep`. From units in step, with the rest of the stream in the decompressor unit's
memories (`Carries`), the path a value took reads back what its record wrote (`ReadTo`, one lemma a path), and the
epilogues of the two units agree (`InStep.finish`). `InStep.load` puts these together for one value, and induction on
the number of values gives the round trip. -/

section
namespace Sys2Proof.Machine

/-! ### What a `LOAD` leaves alone -/

/-- No `LOAD` touches the memories, the lengths or the layout, whether it faults or not (43_decompressor.md R202,
R240). -/
theorem Carries.load {d : Dec} {c : Cmp} (h : Carries d c) (flag : BitVec 8) : Carries (d.load flag) c := by
  cases hfault : d.fault with
  | true => rwa [Dec.load, Dec.unlessFaulted_of_fault hfault]
  | false =>
    rw [Dec.load, Dec.unlessFaulted_of_run hfault]
    obtain ⟨why, _, hload⟩ | ⟨r, d1, hread, hload⟩ := Dec.loadWith_cases (fun u => u.readCoded flag) d
    · rw [hload]
      exact ⟨h.bits, h.sels, h.records, h.bitLength, h.selLength, h.recordLength, h.layout⟩
    · have hsame : Dec.SameBut { d with resultValid := false } d1 := by
        split at hread
        · exact Dec.bsRead_same hread
        · exact Dec.readCoded_same hread
      rw [hload, Dec.finish_eq]
      exact ⟨hsame.bs ▸ h.bits, hsame.lza ▸ h.sels, hsame.pda ▸ h.records, hsame.bsLen ▸ h.bitLength,
        hsame.lzLen ▸ h.selLength, hsame.pdLen ▸ h.recordLength, hsame.params ▸ h.layout⟩

theorem Carries.loadAll {d : Dec} {c : Cmp} (h : Carries d c) (flags : List (BitVec 8)) :
    Carries (d.loadAll flags) c := by
  induction flags generalizing d with
  | nil => exact h
  | cons flag flags ih => exact ih (h.load flag)

/-! ### The paths of `LOAD`, from their parts (43_decompressor.md R205 to R208) -/

theorem Dec.lzaNext_of_lt {d : Dec} (h : d.lzCursor < d.lzLen) :
    d.lzaNext = .ok (d.lzaElem d.lzCursor, { d with lzCursor := d.lzCursor + 1 }) := by
  rw [Dec.lzaNext, if_neg (Nat.not_le_of_lt h)]

theorem Dec.pdaNext_of_lt {d : Dec} (h : d.pdCursor < d.pdLen) :
    d.pdaNext = .ok (d.pdaElem d.pdCursor, { d with pdCursor := d.pdCursor + 1 }) := by
  rw [Dec.pdaNext, if_neg (Nat.not_le_of_lt h)]

theorem Dec.readIdent_of_ok {d d1 : Dec} {i r : Word} (hread : d.bsRead 7 = .ok (i, d1))
    (hvalue : d1.value i.toNat = .ok r) : d.readIdent = .ok (r, d1) := by
  simp only [Dec.readIdent, hread, hvalue]

theorem Dec.readTrail_of_ok {d d1 d2 : Dec} {rec : BitVec 16} {i : BitVec 7} {sel : BitVec 3} {sig : BitVec 6}
    {x ref : Word} (hnext : d.pdaNext = .ok (rec, d1)) (hunpack : unpackRecord d1.params.layout rec = (i, sel, sig))
    (hvalid : recordValid sel sig = true) (hread : d1.bsRead sig.toNat = .ok (x, d2))
    (hvalue : d2.value i.toNat = .ok ref) :
    d.readTrail =
      .ok ((x <<< (64 - sig.toNat - bucket sel)) ^^^ ref,
        { d2 with curLz := some (bucket sel), curTz := some (64 - sig.toNat - bucket sel) }) := by
  simp only [Dec.readTrail, hnext, hunpack, hvalid, if_true, Dec.readTrailField, hread, hvalue]

theorem Dec.readLz_of_ok {d d1 : Dec} {lz : Nat} {x : Word} (hread : d.bsRead (64 - lz) = .ok (x, d1)) :
    d.readLz lz = .ok (x ^^^ d.refValue, d1) := by
  simp only [Dec.readLz, hread]

theorem Dec.readLzeq_of_some {d : Dec} {lz : Nat} (h : d.curLz = some lz) : d.readLzeq = d.readLz lz := by
  simp only [Dec.readLzeq, h]

theorem Dec.readLzload_of_ok {d d1 : Dec} {sel : BitVec 3} (hnext : d.lzaNext = .ok (sel, d1)) :
    d.readLzload = Dec.readLz { d1 with curLz := some (bucket sel) } (bucket sel) := by
  simp only [Dec.readLzload, hnext]

/-! ### The record of a value read back -/

/-- A value is its XOR result XORed with the reference. -/
theorem Cmp.xorResult_xor_reference (c : Cmp) (v : Word) :
    c.xorResult v ^^^ Ring.get c.ring (c.reference v).1 = v := by
  rw [Cmp.xorResult, BitVec.xor_assoc, BitVec.xor_self, BitVec.xor_zero]

/-- The field of a record holds all of its value (R178 to R181). -/
theorem Cmp.emission_field_lt (c : Cmp) (v : Word) : (c.emission v).field.toNat < 2 ^ (c.emission v).width := by
  obtain ⟨_, he⟩ | ⟨hfirst, _, he⟩ | ⟨_, hpath, he⟩ | ⟨_, hpath, he⟩ | ⟨_, hpath, he⟩ := c.emission_cases v
  all_goals rw [he]
  · exact v.isLt
  · have hslot := Cmp.reference_le hfirst v
    have hindex : (c.reference v).1 < 2 ^ 7 := by omega
    exact (Nat.mod_le _ _).trans_lt hindex
  · exact ushiftRight_ctz64_lt (Cmp.storePath_trail hpath).1
  · exact toNat_lt_two_pow_sub_bucket (Cmp.storePath_lzeq hpath).1
  · exact toNat_lt_two_pow_sub_bucket (Cmp.storePath_lzload hpath).1

/-- The packed record of a TRAIL value passes the check of R206, its width fits the six bits, and the shift it stands
for is the count of trailing zeros. -/
theorem Cmp.packed_fields_of_trail {c : Cmp} {v : Word} (h : c.storePath v = .trail) :
    recordValid (bucketSel (clz64 (c.xorResult v))) (BitVec.ofNat 6 (trailSig (c.xorResult v))) = true ∧
      (BitVec.ofNat 6 (trailSig (c.xorResult v))).toNat = trailSig (c.xorResult v) ∧
      64 - trailSig (c.xorResult v) - bucket (bucketSel (clz64 (c.xorResult v))) = ctz64 (c.xorResult v) := by
  obtain ⟨hlow, hsum⟩ := trailSig_add (Cmp.storePath_trail h).1
  have hctz := Cmp.ctz64_xorResult_of_trail h
  have hsig : (BitVec.ofNat 6 (trailSig (c.xorResult v))).toNat = trailSig (c.xorResult v) :=
    Nat.mod_eq_of_lt (by omega)
  refine ⟨?valid, hsig, by omega⟩
  case valid =>
    rw [recordValid, hsig, Bool.and_eq_true, decide_eq_true_iff, decide_eq_true_iff]
    omega

/-- The decompressor unit `d1` is `d` with the record read that took a compressor unit to `c`: the cursors stand where
the counts do, and the bound in force is that of `s.prev_lz`. -/
structure ReadTo (c : Cmp) (d d1 : Dec) : Prop where
  same : d.SameBut d1
  bitCursor : d1.bsRpos = c.bsWpos
  selCursor : d1.lzCursor = c.lzbCount
  recordCursor : d1.pdCursor = c.pdbCount
  bound : ∀ sel, c.prevLz = some sel → d1.curLz = some (bucket sel)

/-- A decompressor unit at the compressor unit's position, with the record's bits in its stream, reads the record's
field. -/
theorem Dec.bsRead_record {c : Cmp} {d : Dec} {v : Word} (hm : c.measure = false) (hpos : d.bsRpos = c.bsWpos)
    (hbits : (c.commit v (c.emission v)).bs.Extends d.bs) (hlen : (c.commit v (c.emission v)).bsWpos ≤ d.bsLen) :
    d.bsRead (c.emission v).width =
      .ok ((c.emission v).field, { d with bsRpos := c.bsWpos + (c.emission v).width }) := by
  rw [Cmp.commit_bs, ← Cmp.bsWrite_bs] at hbits
  rw [Cmp.commit_bsWpos] at hlen
  rw [Dec.bsRead_bsWrite hm hpos (fun j hj => ?kept) hlen, Nat.mod_eq_of_lt (c.emission_field_lt v),
    BitVec.ofNat_toNat, BitVec.setWidth_eq]
  case kept =>
    have hwritten := Cmp.bsWrite_read_field hm (c.emission v).field hj
    rw [hwritten, hbits _ _ hwritten]

section
variable {c : Cmp} {d : Dec} {v : Word} (hstep : InStep c d) (hm : c.measure = false)
  (hcarries : Carries d (c.commit v (c.emission v)))
include hstep

/-- The decompressor unit finds the reference in the slot the compressor unit took it from. -/
theorem InStep.value_reference (hfirst : c.first = false) (v : Word) :
    d.value (c.reference v).1 = .ok (Ring.get c.ring (c.reference v).1) := by
  have hslot := Cmp.reference_le hfirst v
  have hmod : (c.reference v).1 % 128 = (c.reference v).1 := Nat.mod_eq_of_lt (by omega)
  have hvalid : slotValid d.first d.size ((c.reference v).1 % 128) = true := by
    simp [slotValid, hmod, hstep.first, hfirst, hstep.size, hslot]
  rw [Dec.value_of_valid hvalid, hstep.slots hfirst _ hslot]

/-- With `exceed` clear the reference is the decompressor unit's reference value. -/
theorem InStep.xorResult_xor_refValue (hfirst : c.first = false) (hexceed : (c.reference v).2 = false) :
    c.xorResult v ^^^ d.refValue = v := by
  rw [Cmp.xorResult_of_not_exceed hexceed, hstep.reference hfirst, BitVec.xor_assoc, BitVec.xor_self, BitVec.xor_zero]

include hm hcarries

/-- FIRST (R173, R204). -/
theorem InStep.readFirst (hfirst : c.first = true) :
    ∃ d1, d.readFirst = .ok (v, d1) ∧ ReadTo (c.commit v (c.emission v)) d d1 := by
  have hread := Dec.bsRead_record hm hstep.bitCursor hcarries.bits hcarries.bitLength
  rw [Cmp.emission_of_first hfirst] at hread ⊢
  exact ⟨_, hread,
    { same := Dec.bsRead_same hread
      bitCursor := by simp
      selCursor := by simp [Cmp.emitFirst, countOpt, hstep.selCursor]
      recordCursor := by simp [Cmp.emitFirst, countOpt, hstep.recordCursor]
      bound := by simpa [Cmp.emitFirst] using hstep.bound }⟩

/-- VALUE_IDENTICAL (R178, R205): the index read is the reference, and the value there is the value stored. -/
theorem InStep.readIdent (hfirst : c.first = false) (hpath : c.storePath v = .ident) :
    ∃ d1, d.readIdent = .ok (v, d1) ∧ ReadTo (c.commit v (c.emission v)) d d1 := by
  have hread := Dec.bsRead_record hm hstep.bitCursor hcarries.bits hcarries.bitLength
  rw [Cmp.emission_of_ident hfirst hpath] at hread ⊢
  have hslot := Cmp.reference_le hfirst v
  have hindex : (BitVec.ofNat 64 (c.reference v).1).toNat = (c.reference v).1 := Nat.mod_eq_of_lt (by omega)
  have hsame : Ring.get c.ring (c.reference v).1 = v := by
    simpa [Cmp.xorResult_of_ident hpath] using c.xorResult_xor_reference v
  have hvalue : d.value (BitVec.ofNat 64 (c.reference v).1).toNat = .ok v := by
    rw [hindex, hstep.value_reference hfirst v, hsame]
  have hok := Dec.readIdent_of_ok hread hvalue
  exact ⟨_, hok,
    { same := Dec.readIdent_same hok
      bitCursor := by simp [emitIdent]
      selCursor := by simp [emitIdent, countOpt, hstep.selCursor]
      recordCursor := by simp [emitIdent, countOpt, hstep.recordCursor]
      bound := by simp [emitIdent] }⟩

/-- The packed record that a TRAIL value appended is the next of the decompressor unit's array (R179, R206). -/
theorem InStep.pdaNext_of_trail (hfirst : c.first = false) (hpath : c.storePath v = .trail) :
    d.pdaNext =
      .ok (packRecord d.params.layout (128 + (c.reference v).1) (bucketSel (clz64 (c.xorResult v)))
          (BitVec.ofNat 6 (trailSig (c.xorResult v))),
        { d with pdCursor := d.pdCursor + 1 }) := by
  have hrecord := hcarries.records c.pdbCount
  have hcount := hcarries.recordLength
  rw [Cmp.emission_of_trail hfirst hpath] at hrecord hcount
  rw [Cmp.commit_pdbCount, ← hstep.recordCursor] at hcount
  rw [Cmp.commit_pdb, hm] at hrecord
  rw [Dec.pdaNext_of_lt hcount, Dec.pdaElem, hstep.recordCursor, hrecord _ (Memory.read_appendOpt_some _ _ _),
    Option.getD_some, hcarries.layout, Cmp.commit_params]

/-- TRAILING_EXCEEDS_THRESHOLD (R179, R206): the record unpacks to the reference, the selector and the width, and the
field shifted back is the XOR result. -/
theorem InStep.readTrail (hfirst : c.first = false) (hpath : c.storePath v = .trail) :
    ∃ d1, d.readTrail = .ok (v, d1) ∧ ReadTo (c.commit v (c.emission v)) d d1 := by
  obtain ⟨hx, -⟩ := Cmp.storePath_trail hpath
  have hread := Dec.bsRead_record (d := { d with pdCursor := d.pdCursor + 1 }) hm hstep.bitCursor hcarries.bits
    hcarries.bitLength
  rw [Cmp.emission_of_trail hfirst hpath] at hread ⊢
  obtain ⟨hvalid, hsig, hshift⟩ := Cmp.packed_fields_of_trail hpath
  have hindex : (BitVec.ofNat 7 (128 + (c.reference v).1)).toNat = (c.reference v).1 := by
    have hslot := Cmp.reference_le hfirst v
    rw [BitVec.toNat_ofNat]
    omega
  have hok := Dec.readTrail_of_ok (hstep.pdaNext_of_trail hm hcarries hfirst hpath) (unpackRecord_packRecord _ _ _ _)
    hvalid (by rw [hsig]; exact hread) (by rw [hindex]; exact hstep.value_reference hfirst v)
  rw [hsig, hshift] at hok
  simp only [emitTrail, ushiftRight_shiftLeft_ctz64 hx, Cmp.xorResult_xor_reference] at hok
  exact ⟨_, hok,
    { same := Dec.readTrail_same hok
      bitCursor := by simp [emitTrail]
      selCursor := by simp [emitTrail, countOpt, hstep.selCursor]
      recordCursor := by simp [emitTrail, countOpt, hstep.recordCursor]
      bound := by simp [emitTrail] }⟩

/-- The field of both leading-zero paths (R180, R181, R207, R208), read at the XOR result's bound. -/
theorem InStep.readLz (hfirst : c.first = false) (hexceed : (c.reference v).2 = false)
    (hfield : (c.emission v).field = c.xorResult v) {lz : Nat} (hwidth : (c.emission v).width = 64 - lz) {u : Dec}
    (hbs : u.bs = d.bs) (hlen : u.bsLen = d.bsLen) (hpos : u.bsRpos = d.bsRpos) (href : u.refValue = d.refValue) :
    u.readLz lz = .ok (v, { u with bsRpos := c.bsWpos + (c.emission v).width }) := by
  have hread := Dec.bsRead_record (d := u) hm (hpos.trans hstep.bitCursor) (hbs ▸ hcarries.bits)
    (hlen ▸ hcarries.bitLength)
  rw [Dec.readLz_of_ok (hwidth ▸ hread), hwidth, hfield, href, hstep.xorResult_xor_refValue hfirst hexceed]

/-- LEADING_ZERO_EQUALITY (R180, R207). -/
theorem InStep.readLzeq (hfirst : c.first = false) (hpath : c.storePath v = .lzeq) :
    ∃ d1, d.readLzeq = .ok (v, d1) ∧ ReadTo (c.commit v (c.emission v)) d d1 := by
  obtain ⟨-, hexceed, hprev⟩ := Cmp.storePath_lzeq hpath
  have hrecord := Cmp.emission_of_lzeq hfirst hpath
  have hok : d.readLzeq = .ok (v, { d with bsRpos := c.bsWpos + (c.emission v).width }) := by
    rw [Dec.readLzeq_of_some (hstep.bound _ hprev)]
    exact hstep.readLz hm hcarries hfirst hexceed (by rw [hrecord]; rfl) (by rw [hrecord]; rfl) rfl rfl rfl rfl
  exact ⟨_, hok,
    { same := Dec.readLzeq_same hok
      bitCursor := by simp
      selCursor := by simp [hrecord, emitLzeq, countOpt, hstep.selCursor]
      recordCursor := by simp [hrecord, emitLzeq, countOpt, hstep.recordCursor]
      bound := by simpa [hrecord, emitLzeq] using hstep.bound }⟩

/-- LEADING_ZERO_LOAD (R181, R208): the selector read is the one appended. -/
theorem InStep.readLzload (hfirst : c.first = false) (hpath : c.storePath v = .lzload) :
    ∃ d1, d.readLzload = .ok (v, d1) ∧ ReadTo (c.commit v (c.emission v)) d d1 := by
  obtain ⟨-, hexceed⟩ := Cmp.storePath_lzload hpath
  have hrecord := Cmp.emission_of_lzload hfirst hpath
  have hsel := hcarries.sels c.lzbCount
  have hcount := hcarries.selLength
  rw [hrecord] at hsel hcount
  rw [Cmp.commit_lzbCount, ← hstep.selCursor] at hcount
  rw [Cmp.commit_lzb, hm] at hsel
  have helem : d.lzaElem d.lzCursor = bucketSel (clz64 (c.xorResult v)) := by
    rw [Dec.lzaElem, hstep.selCursor, hsel _ (Memory.read_appendOpt_some _ _ _), Option.getD_some]
  have hok : d.readLzload =
      .ok (v, { d with
        lzCursor := d.lzCursor + 1
        curLz := some (bucket (bucketSel (clz64 (c.xorResult v))))
        bsRpos := c.bsWpos + (c.emission v).width }) := by
    rw [Dec.readLzload_of_ok (Dec.lzaNext_of_lt hcount), helem]
    exact hstep.readLz hm hcarries hfirst hexceed (by rw [hrecord]; rfl) (by rw [hrecord]; rfl) rfl rfl rfl rfl
  exact ⟨_, hok,
    { same := Dec.readLzload_same hok
      bitCursor := by simp
      selCursor := by simp [hrecord, emitLzload, countOpt, hstep.selCursor]
      recordCursor := by simp [hrecord, emitLzload, countOpt, hstep.recordCursor]
      bound := by simp [hrecord, emitLzload] }⟩

/-- The `LOAD` of the flag a `STORE` appended, or of any flag for the first value, reads the value stored. -/
theorem InStep.readRecord {flag : BitVec 8} (hflag : c.first = false → flag = (flagOf (c.storePath v)).setWidth 8) :
    ∃ d1, (if d.first then d.readFirst else d.readCoded flag) = .ok (v, d1) ∧
      ReadTo (c.commit v (c.emission v)) d d1 := by
  rw [hstep.first]
  cases hfirst : c.first with
  | true => exact hstep.readFirst hm hcarries hfirst
  | false =>
    rw [hflag hfirst]
    cases hpath : c.storePath v with
    | ident => exact hstep.readIdent hm hcarries hfirst hpath
    | trail => exact hstep.readTrail hm hcarries hfirst hpath
    | lzeq => exact hstep.readLzeq hm hcarries hfirst hpath
    | lzload => exact hstep.readLzload hm hcarries hfirst hpath

end

/-! ### One value (the proof invariant of R191) -/

/-- The epilogues agree: both units insert the value in the same slot (R182, R209). -/
theorem InStep.finish {c : Cmp} {d d1 : Dec} {v : Word} (hstep : InStep c d)
    (hread : ReadTo (c.commit v (c.emission v)) d d1) : InStep (c.commit v (c.emission v)) (d1.finish v) := by
  have hfirst : d1.first = c.first := hread.same.first.trans hstep.first
  have hsize : d1.size = c.size := hread.same.size.trans hstep.size
  rw [Dec.finish_eq, hfirst, hsize]
  refine
    { cmpRuns := by rw [Cmp.commit_fault]; exact hstep.cmpRuns
      decRuns := hread.same.fault.trans hstep.decRuns
      first := by rw [Cmp.commit_first]
      size := by rw [Cmp.commit_size]
      fresh := by simp
      slots := fun _ i hi => ?slots
      reference := fun _ => ?reference
      bound := hread.bound
      bitCursor := hread.bitCursor
      selCursor := hread.selCursor
      recordCursor := hread.recordCursor }
  case slots =>
    rw [Cmp.commit_size] at hi
    rw [Cmp.commit_ring, hread.same.ring, Ring.get_put, Ring.get_put]
    cases hf : c.first with
    | true =>
      have hslot : i = 0 := by simpa [hf, hstep.fresh hf] using hi
      simp [hslot]
    | false =>
      simp only [hf, Bool.false_eq_true, if_false] at hi ⊢
      split
      · rfl
      · exact hstep.slots hf i (by omega)
  case reference =>
    have hnewest : (c.commit v (c.emission v)).size = if c.first then 0 else c.size + 1 := by
      rw [Cmp.commit_size]
      cases hf : c.first with
      | true => exact hstep.fresh hf
      | false => rfl
    rw [hnewest, Cmp.commit_ring, Ring.get_put_self]

/-- From units in step, a `STORE` that commits its record and the `LOAD` of its flag give the value back and leave the
units in step. -/
theorem InStep.load {c : Cmp} {d : Dec} {v : Word} (hstep : InStep c d) (hm : c.measure = false)
    (hcarries : Carries d (c.commit v (c.emission v))) {flag : BitVec 8}
    (hflag : c.first = false → flag = (flagOf (c.storePath v)).setWidth 8) :
    InStep (c.commit v (c.emission v)) (d.load flag) ∧ (d.load flag).result = v ∧ (d.load flag).resultValid = true := by
  have hstep0 : InStep c { d with resultValid := false } := { hstep with }
  have hcarries0 : Carries { d with resultValid := false } (c.commit v (c.emission v)) := { hcarries with }
  obtain ⟨d1, hok, hread⟩ := hstep0.readRecord hm hcarries0 hflag
  have hload : d.load flag = d1.finish v := by
    rw [Dec.load, Dec.unlessFaulted_of_run hstep.decRuns]
    simp only [Dec.loadWith]
    rw [hok]
  rw [hload]
  exact ⟨hstep0.finish hread, by rw [Dec.finish_eq], by rw [Dec.finish_eq]⟩

/-! ### A whole stream -/

/-- What the decoder of a stream starts from: a compressor unit `c0` that `CINIT` has readied, a decompressor unit
`d0` in step with it that carries the stream of `c`, in which `c0` has stored `vs`, and one `LOAD` operand for each
value, the first any, the others the flags of the stream. -/
structure Replay (c0 : Cmp) (d0 : Dec) (vs : List Word) (c : Cmp) (operands : List (BitVec 8)) : Prop where
  encoding : c0.Encoding []
  inStep : InStep c0 d0
  carries : Carries d0 c
  stored : (c0.storeAll vs).Extends c
  first : operands[0]?.isSome
  flags : ∀ k, operands[k + 1]? = (Memory.read c.fb k).map fun f => f.setWidth 8

section
variable {c0 c : Cmp} {d0 : Dec} {vs : List Word} {operands : List (BitVec 8)} (h : Replay c0 d0 vs c operands)
include h

/-- The unit after the first `n` values. -/
theorem Replay.encoding_take (n : Nat) : (c0.storeAll (vs.take n)).Encoding (vs.take n) :=
  h.encoding.storeAll (vs.take n)

/-- One more value stored is its record committed. -/
theorem Replay.storeAll_take_succ {n : Nat} {w : Word} (hw : vs[n]? = some w) :
    c0.storeAll (vs.take (n + 1)) =
      (c0.storeAll (vs.take n)).commit w ((c0.storeAll (vs.take n)).emission w) := by
  rw [List.take_add_one, hw, Option.toList_some, Cmp.storeAll_append, Cmp.storeAll_cons, Cmp.storeAll_nil,
    (h.encoding_take n).store_eq w]

/-- The stream holds everything written for the first `n` values. -/
theorem Replay.extends_take (n : Nat) : (c0.storeAll (vs.take n)).Extends c := by
  refine .trans ?_ h.stored
  conv => right; rw [← List.take_append_drop n vs, Cmp.storeAll_append]
  exact (h.encoding_take n).extends_storeAll (vs.drop n)

/-- The operand for each value after the first is the flag of the path that value took. -/
theorem Replay.operand {n : Nat} {w : Word} (hw : vs[n]? = some w) :
    ∃ flag, operands[n]? = some flag ∧
      ((c0.storeAll (vs.take n)).first = false →
        flag = (flagOf ((c0.storeAll (vs.take n)).storePath w)).setWidth 8) := by
  have henc := h.encoding_take n
  cases n with
  | zero =>
    obtain ⟨flag, hflag⟩ := Option.isSome_iff_exists.mp h.first
    exact ⟨flag, hflag, fun hfirst => by rw [henc.first] at hfirst; simp at hfirst⟩
  | succ k =>
    have hk : k + 1 < vs.length := (List.getElem?_eq_some_iff.mp hw).1
    have hlen : (vs.take (k + 1)).length = k + 1 := by simp; omega
    have hfirst : (c0.storeAll (vs.take (k + 1))).first = false := by
      rw [henc.first]
      exact List.isEmpty_eq_false_iff.mpr (List.ne_nil_of_length_eq_add_one hlen)
    have hcount : (c0.storeAll (vs.take (k + 1))).fbCount = k := by rw [henc.flagCount, hlen, Nat.add_sub_cancel]
    have hread : Memory.read c.fb k = some (flagOf ((c0.storeAll (vs.take (k + 1))).storePath w)) := by
      refine (h.extends_take (k + 2)).flags k _ ?_
      rw [h.storeAll_take_succ hw, Cmp.commit_fb, henc.real, Cmp.emission_flag, hfirst, if_neg Bool.false_ne_true,
        hcount]
      exact Memory.read_appendOpt_some _ _ _
    exact ⟨_, by rw [h.flags, hread]; rfl, fun _ => rfl⟩

/-- One more value stored and loaded. -/
theorem Replay.load_succ {n : Nat} {w : Word} (hw : vs[n]? = some w)
    (hstep : InStep (c0.storeAll (vs.take n)) (d0.loadAll (operands.take n))) :
    InStep (c0.storeAll (vs.take (n + 1))) (d0.loadAll (operands.take (n + 1))) ∧
      (d0.loadAll (operands.take (n + 1))).result = w ∧ (d0.loadAll (operands.take (n + 1))).resultValid = true := by
  obtain ⟨flag, hflag, hpath⟩ := h.operand hw
  have hcarries := (h.carries.loadAll (operands.take n)).of_extends (h.extends_take (n + 1))
  rw [h.storeAll_take_succ hw] at hcarries ⊢
  rw [List.take_add_one, hflag, Option.toList_some, Dec.loadAll_append, Dec.loadAll_cons, Dec.loadAll_nil]
  exact hstep.load (h.encoding_take n).real hcarries hpath

/-- The units stay in step through the whole stream. -/
theorem Replay.inStep_take {n : Nat} (hn : n ≤ vs.length) :
    InStep (c0.storeAll (vs.take n)) (d0.loadAll (operands.take n)) := by
  induction n with
  | zero => simpa using h.inStep
  | succ k ih =>
    obtain ⟨hnext, -⟩ := h.load_succ (List.getElem?_eq_getElem hn) (ih (Nat.le_of_succ_le hn))
    exact hnext

end

/-- After `CINIT` and `DINIT` the units are in step. -/
theorem inStep_init (c : Cmp) (d : Dec) : InStep c.init d.init where
  cmpRuns := rfl
  decRuns := rfl
  first := rfl
  size := rfl
  fresh _ := rfl
  slots hfirst := by cases hfirst
  reference hfirst := by cases hfirst
  bound sel hprev := by cases hprev
  bitCursor := rfl
  selCursor := rfl
  recordCursor := rfl

/-- The operands of `DECODE`'s `LOAD`s (R108 (b)). -/
def decodeOperands (first : BitVec 8) (flags : List (BitVec 2)) : List (BitVec 8) :=
  first :: flags.map fun f => f.setWidth 8

theorem decodeCommands_take (first : BitVec 8) (flags : List (BitVec 2)) (n : Nat) :
    (decodeCommands first flags).take (n + 1) = .dinit :: ((decodeOperands first flags).take n).map .load := by
  have hloads : decodeCommands first flags = .dinit :: (decodeOperands first flags).map .load := by
    simp [decodeCommands, decodeOperands]
  rw [hloads, List.take_succ_cons, List.map_take]

/-- What `ENCODE`, `TRANSFER` and `DINIT` leave is the start of a replay. -/
theorem replay_of_encode {c : Cmp} {d : Dec} (hconfig : c.config.getLsbD 0 = false) (hcaps : c.unbounded)
    (hlayout : d.params.layout = c.params.layout) (vs : List Word) (first : BitVec 8) {c1 : Cmp}
    (hc1 : c1 = Cmp.unlessFaulted Cmp.flush (c.init.storeAll vs)) :
    Replay c.init (d.withStream c1.stream).init vs c1 (decodeOperands first c1.stream.flags) := by
  have hstart : c.init.Encoding [] := Cmp.encoding_init hconfig hcaps
  have hall := hstart.storeAll vs
  have hreadable : c1.Readable := hc1 ▸ hall.readable_flush
  have hext : (c.init.storeAll vs).Extends c1 := hc1 ▸ hall.extends_flush
  have hparams : c1.params = c.params := hext.params.trans (hstart.extends_storeAll vs).params
  exact
    { encoding := hstart
      inStep := inStep_init c _
      carries := hreadable.carries (by rw [hlayout, hparams])
      stored := hext
      first := rfl
      flags := fun k => by rw [← hreadable.getElem?_flags k]; simp [decodeOperands] }

/-- Settles O60: the encoder's run, the transfer and the decoder's run are a replay, in which every value comes back. -/
theorem roundTrip : Obligations.RoundTrip := by
  unfold Obligations.RoundTrip
  intro s c d v vs first hc hd hconfig hcaps hlayout
  have hall := (Cmp.encoding_init hconfig hcaps).storeAll (v :: vs)
  obtain ⟨c1, hc1⟩ : ∃ c1, c1 = Cmp.unlessFaulted Cmp.flush (c.init.storeAll (v :: vs)) := ⟨_, rfl⟩
  have hreplay := replay_of_encode hconfig hcaps hlayout (v :: vs) first hc1
  have hat : AtCmp (s.setCmp c1) c1 := hc.setCmp c1
  refine ⟨s.setCmp c1, c1, by rw [execAll_encodeCommands hc, hc1], hat, hc1 ▸ hall.runComplete_flush, ?flagCount,
    fun n w hw => ?value⟩
  case flagCount =>
    rw [Cmp.length_stream_flags, hc1, hall.flush_eq]
    exact hall.flagCount
  case value =>
    have hn : n < (v :: vs).length := (List.getElem?_eq_some_iff.mp hw).1
    obtain ⟨hstep, hresult, hvalid⟩ := hreplay.load_succ hw (hreplay.inStep_take hn.le)
    have hdec : AtDec (s.setCmp c1) d := hd
    have hdecFilled := hdec.setDec (d.withStream c1.stream)
    refine ⟨_, _, _, _, execAll_cinit_stores hc _, hc.setCmp _, ?_, hdecFilled.setDec _, hstep.decRuns, hvalid, hresult,
      hstep⟩
    rw [transfer_of hat hdec, decodeCommands_take, execAll_dinit_loads hdecFilled]

end Sys2Proof.Machine
end

/-! ## The commands of a decompressor unit (43_decompressor.md R201 to R209, O37 to O42)

A `LOAD` and the wire record of its flag are one path (`IsRecordOf`), so a statement about both is one about what that path
reads: a fault it raises is the unit's (`IsRecordOf.raises`), a value it rebuilds goes through the epilogue
(`IsRecordOf.completes`). What a path reads is said outcome by outcome, in the order of its checks (60_exceptions.md R243);
the outcomes that rebuild a value
on the paths IDENT and TRAIL are `Dec.readIdent_of_ok` and `Dec.readTrail_of_ok` above. -/

section
namespace Sys2Proof.Machine

/-! ### A field, a slot and a packed record -/

/-- A field of `n` bits is below `2 ^ n`. -/
theorem readField_toNat_lt (bit : Nat → BitVec 1) (pos n : Nat) : (readField bit pos n).toNat < 2 ^ n := by
  refine Nat.lt_pow_two_of_testBit _ fun i hi => ?_
  rw [BitVec.testBit_toNat, readField_getLsbD, decide_eq_false (Nat.not_lt_of_le hi)]
  simp

/-- `Value` on a slot number of seven bits, in an ACTIVE unit (R125). -/
theorem Dec.value_of_le {d : Dec} {slot : Nat} (hactive : d.first = false) (hslot : slot < 128)
    (hle : slot ≤ min d.size 127) : d.value slot = .ok (Ring.get d.ring slot) := by
  apply Dec.value_of_valid
  rw [Nat.mod_eq_of_lt hslot, slotValid, hactive, decide_eq_true hle]
  rfl

theorem Dec.value_of_gt {d : Dec} {slot : Nat} (hslot : slot < 128) (hgt : min d.size 127 < slot) :
    d.value slot = .error (.ringIndexOutOfRange slot) := by
  have hmod : slot % 128 = slot := Nat.mod_eq_of_lt hslot
  have hinvalid := (slotValid_eq_false_iff d.first d.size (slot % 128)).mpr (.inr (hmod.symm ▸ hgt))
  rw [Dec.value_of_invalid hinvalid, hmod]

/-- The check of a packed record, as R206 writes it. -/
theorem recordValid_eq_true_iff (sel : BitVec 3) (sig : BitVec 6) :
    recordValid sel sig = true ↔ sig ≠ 0 ∧ sig.toNat + bucket sel ≤ 64 := by
  have hzero : sig.toNat ≠ 0 ↔ sig ≠ 0 := not_congr (BitVec.toNat_eq (y := 0#6)).symm
  rw [recordValid, Bool.and_eq_true, decide_eq_true_iff, decide_eq_true_iff, hzero]

theorem recordValid_eq_false_iff (sel : BitVec 3) (sig : BitVec 6) :
    recordValid sel sig = false ↔ sig = 0 ∨ 64 < sig.toNat + bucket sel := by
  rw [← Bool.not_eq_true, recordValid_eq_true_iff, not_and_or, not_not, not_le]

/-! ### The faults of each path, from its parts (R205 to R208; 60_exceptions.md R243) -/

theorem Dec.lzaNext_of_le {d : Dec} (h : d.lzLen ≤ d.lzCursor) :
    d.lzaNext = .error (.sideBufferExhausted .lza d.lzCursor) :=
  if_pos h

theorem Dec.pdaNext_of_le {d : Dec} (h : d.pdLen ≤ d.pdCursor) :
    d.pdaNext = .error (.sideBufferExhausted .pda d.pdCursor) :=
  if_pos h

theorem Dec.readIdent_of_bsRead_error {d : Dec} {why : Cause} (hread : d.bsRead 7 = .error why) :
    d.readIdent = .error why := by
  simp only [Dec.readIdent, hread]

theorem Dec.readIdent_of_value_error {d d1 : Dec} {i : Word} {why : Cause} (hread : d.bsRead 7 = .ok (i, d1))
    (hvalue : d1.value i.toNat = .error why) : d.readIdent = .error why := by
  simp only [Dec.readIdent, hread, hvalue]

theorem Dec.readTrail_of_pdaNext_error {d : Dec} {why : Cause} (hnext : d.pdaNext = .error why) :
    d.readTrail = .error why := by
  simp only [Dec.readTrail, hnext]

section
variable {d d1 d2 : Dec} {rec : BitVec 16} {i : BitVec 7} {sel : BitVec 3} {sig : BitVec 6} {x : Word} {why : Cause}
  (hnext : d.pdaNext = .ok (rec, d1)) (hunpack : unpackRecord d1.params.layout rec = (i, sel, sig))
include hnext hunpack

theorem Dec.readTrail_of_invalid (hinvalid : recordValid sel sig = false) :
    d.readTrail = .error (.packedRecordInvalid rec) := by
  simp only [Dec.readTrail, hnext, hunpack, hinvalid, Bool.false_eq_true, if_false]

theorem Dec.readTrail_of_bsRead_error (hvalid : recordValid sel sig = true)
    (hread : d1.bsRead sig.toNat = .error why) : d.readTrail = .error why := by
  simp only [Dec.readTrail, hnext, hunpack, hvalid, if_true, Dec.readTrailField, hread]

theorem Dec.readTrail_of_value_error (hvalid : recordValid sel sig = true)
    (hread : d1.bsRead sig.toNat = .ok (x, d2)) (hvalue : d2.value i.toNat = .error why) :
    d.readTrail = .error why := by
  simp only [Dec.readTrail, hnext, hunpack, hvalid, if_true, Dec.readTrailField, hread, hvalue]

end

theorem Dec.readLz_of_bsRead_error {d : Dec} {lz : Nat} {why : Cause} (hread : d.bsRead (64 - lz) = .error why) :
    d.readLz lz = .error why := by
  simp only [Dec.readLz, hread]

theorem Dec.readLzeq_of_none {d : Dec} (h : d.curLz = none) : d.readLzeq = .error .leadingZerosUnset := by
  simp only [Dec.readLzeq, h]

section
variable {d d1 : Dec} {lz : Nat} {x : Word} {why : Cause} (hlz : d.curLz = some lz)
include hlz

theorem Dec.readLzeq_of_bsRead_error (hread : d.bsRead (64 - lz) = .error why) : d.readLzeq = .error why := by
  rw [Dec.readLzeq_of_some hlz, Dec.readLz_of_bsRead_error hread]

theorem Dec.readLzeq_of_bsRead_ok (hread : d.bsRead (64 - lz) = .ok (x, d1)) :
    d.readLzeq = .ok (x ^^^ d.refValue, d1) := by
  rw [Dec.readLzeq_of_some hlz, Dec.readLz_of_ok hread]

end

theorem Dec.readLzload_of_lzaNext_error {d : Dec} {why : Cause} (hnext : d.lzaNext = .error why) :
    d.readLzload = .error why := by
  simp only [Dec.readLzload, hnext]

section
variable {d d1 d2 : Dec} {sel : BitVec 3} {x : Word} {why : Cause} (hnext : d.lzaNext = .ok (sel, d1))
include hnext

theorem Dec.readLzload_of_bsRead_error
    (hread : Dec.bsRead { d1 with curLz := some (bucket sel) } (64 - bucket sel) = .error why) :
    d.readLzload = .error why := by
  rw [Dec.readLzload_of_ok hnext, Dec.readLz_of_bsRead_error hread]

theorem Dec.readLzload_of_bsRead_ok
    (hread : Dec.bsRead { d1 with curLz := some (bucket sel) } (64 - bucket sel) = .ok (x, d2)) :
    d.readLzload = .ok (x ^^^ d1.refValue, d2) := by
  rw [Dec.readLzload_of_ok hnext, Dec.readLz_of_ok hread]

end

/-! ### What is read and what the unit becomes (R202, R209) -/

/-- A read that faults raises its cause in the unit as it was before the command. -/
theorem Dec.loadWith_of_error {d : Dec} {path : Dec → LoadResult} {why : Cause} (hactive : d.first = false)
    (hread : path { d with resultValid := false } = .error why) : d.loadWith path = d.raise why := by
  rw [Dec.loadWith, if_neg (by simp [hactive]), hread]

theorem Dec.loadWith_of_ok {d d1 : Dec} {path : Dec → LoadResult} {r : Word} (hactive : d.first = false)
    (hread : path { d with resultValid := false } = .ok (r, d1)) : d.loadWith path = d1.finish r := by
  rw [Dec.loadWith, if_neg (by simp [hactive]), hread]

/-- The epilogue in an ACTIVE unit, which stays ACTIVE (R209). -/
theorem Dec.finish_of_active {d : Dec} (hactive : d.first = false) (r : Word) :
    d.finish r =
      { d with
        refValue := r, size := d.size + 1, ring := Ring.put d.ring (d.size + 1) r, result := r
        resultValid := true } := by
  simp [Dec.finish_eq, hactive]

/-- The wire record `rec` and the `LOAD` of `flag` both take the path `path` (R94, R203). -/
structure IsRecordOf (flag : BitVec 8) (rec : Instr) (path : Dec → LoadResult) : Prop where
  coded : ∀ d : Dec, d.readCoded flag = path d
  record : ∀ s, exec rec s = onDec (Dec.unlessFaulted (Dec.loadWith path)) s

theorem isRecordOf_ident : IsRecordOf 0 .recIdent Dec.readIdent := ⟨fun _ => rfl, fun _ => rfl⟩

theorem isRecordOf_trail : IsRecordOf 1 .recTrail Dec.readTrail := ⟨fun _ => rfl, fun _ => rfl⟩

theorem isRecordOf_lzeq : IsRecordOf 2 .recLzeq Dec.readLzeq := ⟨fun _ => rfl, fun _ => rfl⟩

theorem isRecordOf_lzload : IsRecordOf 3 .recLzload Dec.readLzload := ⟨fun _ => rfl, fun _ => rfl⟩

section
variable {s : State} {d : Dec} {flag : BitVec 8} {rec : Instr} {path : Dec → LoadResult}
  (h : IsRecordOf flag rec path) (hat : AtDec s d) (hrun : d.fault = false)
include h hat hrun

/-- Either command runs the path in a unit that is not FAULTED. -/
theorem IsRecordOf.exec_eq : ∀ i ∈ [Instr.load flag, rec], exec i s = .next (s.setDec (d.loadWith path)) := by
  have hpath : (fun u : Dec => u.readCoded flag) = path := funext h.coded
  refine List.forall_mem_cons.mpr ⟨?load, List.forall_mem_singleton.mpr ?record⟩
  case load => rw [exec_load_of hat, Dec.unlessFaulted_of_run hrun, hpath]
  case record => rw [h.record, onDec_of hat, Dec.unlessFaulted_of_run hrun]

/-- A fault of the path is the unit's. -/
theorem IsRecordOf.raises {why : Cause} (hactive : d.first = false)
    (hread : path { d with resultValid := false } = .error why) :
    ∀ i ∈ [Instr.load flag, rec], exec i s = .next (s.setDec (d.raise why)) := by
  rw [← Dec.loadWith_of_error hactive hread]
  exact h.exec_eq hat hrun

/-- A value the path rebuilds goes through the epilogue. `d'` is free so that a caller states the unit it wants and closes
`hfinish` by `rfl`. -/
theorem IsRecordOf.completes {d1 d' : Dec} {r : Word} (hactive : d.first = false)
    (hread : path { d with resultValid := false } = .ok (r, d1)) (hstays : d1.first = false)
    (hfinish : d' =
      { d1 with
        refValue := r, size := d1.size + 1, ring := Ring.put d1.ring (d1.size + 1) r, result := r
        resultValid := true }) :
    ∀ i ∈ [Instr.load flag, rec], exec i s = .next (s.setDec d') := by
  rw [hfinish, ← Dec.finish_of_active hstays, ← Dec.loadWith_of_ok hactive hread]
  exact h.exec_eq hat hrun

end

/-- In a FRESH unit every `LOAD` and the record FIRST take the path FIRST (R96, R202). -/
theorem exec_fresh {s : State} {d : Dec} (hat : AtDec s d) (hrun : d.fault = false) (hfresh : d.first = true)
    (flag : BitVec 8) :
    ∀ i ∈ [Instr.load flag, .recFirst], exec i s = .next (s.setDec (d.loadWith Dec.readFirst)) := by
  refine List.forall_mem_cons.mpr ⟨?load, List.forall_mem_singleton.mpr ?record⟩
  case load => rw [exec_load_of hat, Dec.unlessFaulted_of_run hrun, Dec.loadWith_of_first hfresh _ Dec.readFirst]
  case record => simp only [exec, execRecFirst, hat, hfresh, Bool.or_true, if_true, Dec.unlessFaulted_of_run hrun]

theorem Dec.loadWith_readFirst_of_lt {d : Dec} (hlen : d.bsLen < d.bsRpos + 64) :
    d.loadWith Dec.readFirst = d.raise (.bitStreamExhausted d.bsRpos) := by
  have hread : Dec.readFirst { d with resultValid := false } = .error (.bitStreamExhausted d.bsRpos) :=
    Dec.bsRead_of_lt hlen
  simp only [Dec.loadWith, hread, ite_self]

theorem Dec.loadWith_readFirst_of_le {d : Dec} (hlen : d.bsRpos + 64 ≤ d.bsLen) :
    d.loadWith Dec.readFirst =
      Dec.finish { d with resultValid := false, bsRpos := d.bsRpos + 64 } (readField d.bsBit d.bsRpos 64) := by
  have hread : Dec.readFirst { d with resultValid := false } =
      .ok (readField d.bsBit d.bsRpos 64, { d with resultValid := false, bsRpos := d.bsRpos + 64 }) :=
    Dec.bsRead_of_le hlen
  simp only [Dec.loadWith, hread, ite_self]

/-! ### The statements -/

/-- Settles O37: what is no longer defined is what `Dec.init` draws from the unit's next source of free values. -/
theorem dinitStartsStream : Obligations.DinitStartsStream := by
  unfold Obligations.DinitStartsStream
  intro s d hat
  exact ⟨_, _, _, _, exec_dinit_of hat⟩

/-- Settles O38: any flag reads the FIRST record, and the epilogue of a FRESH unit writes slot 0. -/
theorem loadFirstRecord : Obligations.LoadFirstRecord := by
  unfold Obligations.LoadFirstRecord
  intro s d flag r hat hrun hfresh hr
  subst hr
  have hexec := exec_fresh hat hrun hfresh flag
  refine ⟨fun hlen => ?complete, fun hlen => ?exhausted⟩
  case complete =>
    rw [Dec.loadWith_readFirst_of_le hlen, Dec.finish_eq] at hexec
    simpa only [hfresh, if_true] using hexec
  case exhausted =>
    rwa [Dec.loadWith_readFirst_of_lt hlen] at hexec

/-- Settles O39: the field is a slot number of seven bits. -/
theorem loadIdenticalRecord : Obligations.LoadIdenticalRecord := by
  unfold Obligations.LoadIdenticalRecord
  intro s d slot hat hrun hactive hslot
  subst hslot
  have hlt := readField_toNat_lt d.bsBit d.bsRpos 7
  refine ⟨fun hlen => ?exhausted, fun hlen hgt => ?invalid, fun hlen hle => ?complete⟩
  case exhausted =>
    exact isRecordOf_ident.raises hat hrun hactive (Dec.readIdent_of_bsRead_error (Dec.bsRead_of_lt hlen))
  case invalid =>
    exact isRecordOf_ident.raises hat hrun hactive
      (Dec.readIdent_of_value_error (Dec.bsRead_of_le hlen) (Dec.value_of_gt hlt hgt))
  case complete =>
    exact isRecordOf_ident.completes hat hrun hactive
      (Dec.readIdent_of_ok (Dec.bsRead_of_le hlen) (Dec.value_of_le hactive hlt hle)) hactive rfl

/-- Settles O40: the record, its check, the field and the slot, each only after the one before it. -/
theorem loadTrailingRecord : Obligations.LoadTrailingRecord := by
  unfold Obligations.LoadTrailingRecord
  intro s d index sel sig tz r hat hrun hactive hunpack htz hr
  subst htz hr
  refine ⟨fun hend => ?noRecord, fun hrec hbad => ?badRecord, fun hrec hsig hsum hlen => ?exhausted,
    fun hrec hsig hsum hlen hgt => ?invalid, fun hrec hsig hsum hlen hle => ?complete⟩
  case noRecord =>
    exact isRecordOf_trail.raises hat hrun hactive (Dec.readTrail_of_pdaNext_error (Dec.pdaNext_of_le hend))
  case badRecord =>
    exact isRecordOf_trail.raises hat hrun hactive
      (Dec.readTrail_of_invalid (Dec.pdaNext_of_lt hrec) hunpack ((recordValid_eq_false_iff sel sig).mpr hbad))
  case exhausted =>
    have hvalid := (recordValid_eq_true_iff sel sig).mpr ⟨hsig, hsum⟩
    exact isRecordOf_trail.raises hat hrun hactive
      (Dec.readTrail_of_bsRead_error (Dec.pdaNext_of_lt hrec) hunpack hvalid (Dec.bsRead_of_lt hlen))
  case invalid =>
    have hvalid := (recordValid_eq_true_iff sel sig).mpr ⟨hsig, hsum⟩
    exact isRecordOf_trail.raises hat hrun hactive
      (Dec.readTrail_of_value_error (Dec.pdaNext_of_lt hrec) hunpack hvalid (Dec.bsRead_of_le hlen)
        (Dec.value_of_gt index.isLt hgt))
  case complete =>
    have hvalid := (recordValid_eq_true_iff sel sig).mpr ⟨hsig, hsum⟩
    exact isRecordOf_trail.completes hat hrun hactive
      (Dec.readTrail_of_ok (Dec.pdaNext_of_lt hrec) hunpack hvalid (Dec.bsRead_of_le hlen)
        (Dec.value_of_le hactive index.isLt hle))
      hactive rfl

/-- Settles O41: the bound in force says how wide the field is. -/
theorem loadLeadingZeroEquality : Obligations.LoadLeadingZeroEquality := by
  unfold Obligations.LoadLeadingZeroEquality
  intro s d hat hrun hactive
  refine ⟨fun hunset => ?unset, fun lz r hlz hr => ⟨fun hlen => ?exhausted, fun hlen => ?complete⟩⟩
  case unset =>
    exact isRecordOf_lzeq.raises hat hrun hactive (Dec.readLzeq_of_none hunset)
  case exhausted =>
    exact isRecordOf_lzeq.raises hat hrun hactive
      (Dec.readLzeq_of_bsRead_error hlz (Dec.bsRead_of_lt hlen))
  case complete =>
    subst hr
    exact isRecordOf_lzeq.completes hat hrun hactive
      (Dec.readLzeq_of_bsRead_ok hlz (Dec.bsRead_of_le hlen)) hactive rfl

/-- Settles O42: the selector read says how wide the field is. -/
theorem loadLeadingZeroLoad : Obligations.LoadLeadingZeroLoad := by
  unfold Obligations.LoadLeadingZeroLoad
  intro s d lz r hat hrun hactive hlz hr
  subst hlz hr
  refine ⟨fun hend => ?noSelector, fun hsel hlen => ?exhausted, fun hsel hlen => ?complete⟩
  case noSelector =>
    exact isRecordOf_lzload.raises hat hrun hactive (Dec.readLzload_of_lzaNext_error (Dec.lzaNext_of_le hend))
  case exhausted =>
    exact isRecordOf_lzload.raises hat hrun hactive
      (Dec.readLzload_of_bsRead_error (Dec.lzaNext_of_lt hsel) (Dec.bsRead_of_lt hlen))
  case complete =>
    exact isRecordOf_lzload.completes hat hrun hactive
      (Dec.readLzload_of_bsRead_ok (Dec.lzaNext_of_lt hsel) (Dec.bsRead_of_le hlen)) hactive rfl

end Sys2Proof.Machine
end

/-! ## Faults (60_exceptions.md R231, R232, R240 to R242, O43, O44, O46)

A command other than an initialisation reaches its unit through `unlessFaulted` (`exec_next_unlessFaulted`), so in a FAULTED
unit it changes nothing; a host access but hardware reset writes neither `s.fault` nor `s.cause`. The instruction that
initialises a unit is carried only by a command word on that unit's port, because each decoder answers instructions of
its own format. -/

section
namespace Sys2Proof.Machine

/-! ### Taking a fault (R231, R240) -/

@[simp] theorem causeCode_corruptFlag (flag : BitVec 8) : causeCode (.corruptFlag flag) = 1 := rfl
@[simp] theorem causeCode_ringIndexOutOfRange (slot : Nat) : causeCode (.ringIndexOutOfRange slot) = 2 := rfl
@[simp] theorem causeCode_bitStreamExhausted (pos : Nat) : causeCode (.bitStreamExhausted pos) = 3 := rfl
@[simp] theorem causeCode_sideBufferExhausted (array : DecSpace) (cursor : Nat) :
    causeCode (.sideBufferExhausted array cursor) = 4 := rfl
@[simp] theorem causeCode_packedRecordInvalid (rec : BitVec 16) : causeCode (.packedRecordInvalid rec) = 5 := rfl
@[simp] theorem causeCode_leadingZerosUnset : causeCode .leadingZerosUnset = 6 := rfl

@[simp] theorem cmpFaultLine_raise (c : Cmp) (why : Cause) : cmpFaultLine (c.raise why) = true := rfl
@[simp] theorem decFaultLine_raise (d : Dec) (why : Cause) : decFaultLine (d.raise why) = true := rfl

/-- Settles O44: the codes are `causeCode`'s rows, and the unspecified elements have the values that `raise` draws from the
unit's next source of free values. -/
theorem raiseFaultsTheUnit : Obligations.RaiseFaultsTheUnit := by
  unfold Obligations.RaiseFaultsTheUnit
  refine ⟨⟨causeCode_corruptFlag, causeCode_ringIndexOutOfRange, causeCode_bitStreamExhausted,
      causeCode_sideBufferExhausted, causeCode_packedRecordInvalid, causeCode_leadingZerosUnset,
      causeCode_illegalCommand, causeCode_bufferOverflow⟩,
    fun c why => ⟨cmpFaultLine_raise c why, ?cmp⟩, fun d why => ⟨decFaultLine_raise d why, ?dec⟩⟩
  case cmp => exact ⟨_, _, _, _, _, _, _, _, _, _, _, _, _, _, _, rfl⟩
  case dec => exact ⟨_, _, _, _, _, _, _, _, _, _, _, rfl⟩

/-! ### A flag that is no branch tag (R232) -/

/-- No path is selected by a flag above 3 (R202). -/
theorem Dec.readCoded_of_four_le {flag : BitVec 8} (hflag : 4 ≤ flag.toNat) (d : Dec) :
    d.readCoded flag = .error (.corruptFlag flag) := by
  have hne : ∀ tag : BitVec 8, tag.toNat < 4 → flag ≠ tag := fun tag htag heq => by subst heq; omega
  rw [Dec.readCoded, if_neg (hne 0 (by decide)), if_neg (hne 1 (by decide)), if_neg (hne 2 (by decide)),
    if_neg (hne 3 (by decide))]

theorem isRecordOf_corrupt {flag : BitVec 8} (hflag : 4 ≤ flag.toNat) :
    IsRecordOf flag (.recCorrupt flag) fun _ => .error (.corruptFlag flag) :=
  ⟨Dec.readCoded_of_four_le hflag, fun _ => rfl⟩

/-- Settles O43: on an ACTIVE unit `LOAD` and the record CORRUPT take a path that only raises, on a FRESH unit every `LOAD`
takes the path FIRST. -/
theorem corruptFlagIsFatal : Obligations.CorruptFlagIsFatal := by
  unfold Obligations.CorruptFlagIsFatal
  refine fun s d flag hat hrun hflag => ⟨fun hactive i hi => ?active, fun hfresh => ?fresh⟩
  case active =>
    exact ⟨(isRecordOf_corrupt hflag).raises hat hrun hactive rfl i hi, d.raise_fault _, by simp, d.raise_resultValid _⟩
  case fresh =>
    have hexec := exec_fresh hat hrun hfresh flag
    rw [hexec (.load flag) (by simp), hexec .recFirst (by simp)]

/-! ### Commands and FAULTED units (R241) -/

/-- Everything an instruction can do to the unit it reaches: it initialises the unit, or it leaves a FAULTED unit alone. -/
theorem exec_next_unlessFaulted {i : Instr} {s t : State} (h : exec i s = .next t) :
    (∃ c, AtCmp s c ∧ ((i = .cinit ∧ t = s.setCmp c.init) ∨ ∃ f, t = s.setCmp (Cmp.unlessFaulted f c))) ∨
    (∃ d, AtDec s d ∧ ((i = .dinit ∧ t = s.setDec d.init) ∨ ∃ f, t = s.setDec (Dec.unlessFaulted f d))) := by
  cases i with
  | cinit =>
    obtain ⟨c, hc, ht⟩ := onCmp_next h
    exact .inl ⟨c, hc, .inl ⟨rfl, ht⟩⟩
  | store _ | flush | cmdcReserved =>
    obtain ⟨c, hc, ht⟩ := onCmp_next h
    exact .inl ⟨c, hc, .inr ⟨_, ht⟩⟩
  | dinit =>
    obtain ⟨d, hd, ht⟩ := onDec_next h
    exact .inr ⟨d, hd, .inl ⟨rfl, ht⟩⟩
  | load _ | cmddReserved2 | cmddReserved3 | recIdent | recTrail | recLzeq | recLzload | recCorrupt _ =>
    obtain ⟨d, hd, ht⟩ := onDec_next h
    exact .inr ⟨d, hd, .inr ⟨_, ht⟩⟩
  | recFirst =>
    simp only [exec, execRecFirst] at h
    split at h
    · cases h
    · rename_i d hd
      split at h
      · injection h with h
        exact .inr ⟨d, hd, .inr ⟨_, h.symm⟩⟩
      · cases h
  | pdrec _ => cases h

/-- An entry of a list after one entry, `a`, has been replaced by `b`: it is the old one, or `b` stands for `a`. -/
theorem eq_or_eq_of_getElem?_set {α : Type} {l : List α} {n k : Nat} {a b x y : α} (hn : l[n]? = some a)
    (hx : l[k]? = some x) (hy : (l.set n b)[k]? = some y) : y = x ∨ (n = k ∧ x = a ∧ y = b) := by
  obtain rfl | hne := eq_or_ne n k
  · have hlt := (List.getElem?_eq_some_iff.mp hn).1
    rw [List.getElem?_set_self hlt] at hy
    exact .inr ⟨rfl, Option.some.inj (hx.symm.trans hn), (Option.some.inj hy).symm⟩
  · rw [List.getElem?_set_ne hne] at hy
    exact .inl (Option.some.inj (hy.symm.trans hx))

/-- An instruction leaves a FAULTED compressor unit as it is, or initialises it. -/
theorem exec_cmp_of_fault {i : Instr} {s t : State} {k : Nat} {c c1 : Cmp} (h : exec i s = .next t)
    (hc : s.cmps[k]? = some c) (hc1 : t.cmps[k]? = some c1) (hfault : c.fault = true) :
    c1 = c ∨ (i = .cinit ∧ s.unit = k ∧ c1 = c.init) := by
  obtain ⟨u, hu, ⟨rfl, rfl⟩ | ⟨f, rfl⟩⟩ | ⟨d, -, ⟨-, rfl⟩ | ⟨f, rfl⟩⟩ := exec_next_unlessFaulted h
  case inl.inl =>
    obtain heq | ⟨hunit, rfl, rfl⟩ := eq_or_eq_of_getElem?_set hu hc hc1
    · exact .inl heq
    · exact .inr ⟨rfl, hunit, rfl⟩
  case inl.inr =>
    obtain heq | ⟨-, rfl, rfl⟩ := eq_or_eq_of_getElem?_set hu hc hc1
    · exact .inl heq
    · exact .inl (Cmp.unlessFaulted_of_fault hfault)
  case inr.inl | inr.inr => exact .inl (Option.some.inj (hc1.symm.trans hc))

/-- An instruction leaves a FAULTED decompressor unit as it is, or initialises it. -/
theorem exec_dec_of_fault {i : Instr} {s t : State} {k : Nat} {d d1 : Dec} (h : exec i s = .next t)
    (hd : s.decs[k]? = some d) (hd1 : t.decs[k]? = some d1) (hfault : d.fault = true) :
    d1 = d ∨ (i = .dinit ∧ s.unit = k ∧ d1 = d.init) := by
  obtain ⟨c, -, ⟨-, rfl⟩ | ⟨f, rfl⟩⟩ | ⟨u, hu, ⟨rfl, rfl⟩ | ⟨f, rfl⟩⟩ := exec_next_unlessFaulted h
  case inr.inl =>
    obtain heq | ⟨hunit, rfl, rfl⟩ := eq_or_eq_of_getElem?_set hu hd hd1
    · exact .inl heq
    · exact .inr ⟨rfl, hunit, rfl⟩
  case inr.inr =>
    obtain heq | ⟨-, rfl, rfl⟩ := eq_or_eq_of_getElem?_set hu hd hd1
    · exact .inl heq
    · exact .inl (Dec.unlessFaulted_of_fault hfault)
  case inl.inl | inl.inr => exact .inl (Option.some.inj (hd1.symm.trans hd))

/-! ### Host accesses and the fault of a unit (10_state.md R41, R42; 70_reset_and_hazards.md R260) -/

@[simp] theorem Cmp.hardReset_fault (c : Cmp) : c.hardReset.fault = false := rfl
@[simp] theorem Cmp.hardReset_cause (c : Cmp) : c.hardReset.cause = 0 := rfl
@[simp] theorem Cmp.hardReset_first (c : Cmp) : c.hardReset.first = true := rfl
@[simp] theorem Dec.hardReset_fault (d : Dec) : d.hardReset.fault = false := rfl
@[simp] theorem Dec.hardReset_cause (d : Dec) : d.hardReset.cause = 0 := rfl
@[simp] theorem Dec.hardReset_first (d : Dec) : d.hardReset.first = true := rfl

theorem Dec.fault_cause_of_writeReg {d d1 : Dec} {reg : BitVec 8} {v : Word} (h : d.writeReg reg v = some d1) :
    d1.fault = d.fault ∧ d1.cause = d.cause := by
  obtain rfl | rfl | rfl | rfl | rfl := Dec.writeReg_some h <;> exact ⟨rfl, rfl⟩

@[simp] theorem Dec.writeSpace_fault (d : Dec) (sp : DecSpace) (addr : Nat) (v : BitVec 16) :
    (d.writeSpace sp addr v).fault = d.fault := by
  cases sp <;> rfl

@[simp] theorem Dec.writeSpace_cause (d : Dec) (sp : DecSpace) (addr : Nat) (v : BitVec 16) :
    (d.writeSpace sp addr v).cause = d.cause := by
  cases sp <;> rfl

/-- A host access keeps `s.fault` and `s.cause` of a compressor unit, or is a hardware reset. -/
theorem hostAccess_cmp {a : HostAction} {s t : State} {k : Nat} {c c1 : Cmp} (h : hostAccess a s = .next t)
    (hc : s.cmps[k]? = some c) (hc1 : t.cmps[k]? = some c1) :
    (c1.fault = c.fault ∧ c1.cause = c.cause) ∨ (a = .reset ∧ c1 = c.hardReset) := by
  have hsame (hcmps : t.cmps = s.cmps) : c1.fault = c.fault ∧ c1.cause = c.cause := by
    obtain rfl : c1 = c := Option.some.inj (hc1.symm.trans (hcmps ▸ hc))
    exact ⟨rfl, rfl⟩
  obtain rfl | ⟨v, rfl⟩ | ⟨u, v, hu, rfl⟩ | ⟨d, reg, v, d1, -, -, rfl⟩ | ⟨d, sp, addr, v, -, rfl⟩ | ⟨ha, rfl⟩ :=
    hostAccess_next h
  · exact .inl (hsame rfl)
  · exact .inl (hsame rfl)
  · obtain rfl | ⟨-, rfl, rfl⟩ := eq_or_eq_of_getElem?_set hu hc hc1
    · exact .inl ⟨rfl, rfl⟩
    · exact .inl ⟨c.writeConfig_fault v, c.writeConfig_cause v⟩
  · exact .inl (hsame rfl)
  · exact .inl (hsame rfl)
  · rw [List.getElem?_map, hc] at hc1
    exact .inr ⟨ha, (Option.some.inj hc1).symm⟩

/-- A host access keeps `s.fault` and `s.cause` of a decompressor unit, or is a hardware reset. -/
theorem hostAccess_dec {a : HostAction} {s t : State} {k : Nat} {d d1 : Dec} (h : hostAccess a s = .next t)
    (hd : s.decs[k]? = some d) (hd1 : t.decs[k]? = some d1) :
    (d1.fault = d.fault ∧ d1.cause = d.cause) ∨ (a = .reset ∧ d1 = d.hardReset) := by
  have hsame (hdecs : t.decs = s.decs) : d1.fault = d.fault ∧ d1.cause = d.cause := by
    obtain rfl : d1 = d := Option.some.inj (hd1.symm.trans (hdecs ▸ hd))
    exact ⟨rfl, rfl⟩
  obtain rfl | ⟨v, rfl⟩ | ⟨c, v, -, rfl⟩ | ⟨u, reg, v, u1, hu, hwrite, rfl⟩ | ⟨u, sp, addr, v, hu, rfl⟩ | ⟨ha, rfl⟩ :=
    hostAccess_next h
  · exact .inl (hsame rfl)
  · exact .inl (hsame rfl)
  · exact .inl (hsame rfl)
  · obtain rfl | ⟨-, rfl, rfl⟩ := eq_or_eq_of_getElem?_set hu hd hd1
    · exact .inl ⟨rfl, rfl⟩
    · exact .inl (Dec.fault_cause_of_writeReg hwrite)
  · obtain rfl | ⟨-, rfl, rfl⟩ := eq_or_eq_of_getElem?_set hu hd hd1
    · exact .inl ⟨rfl, rfl⟩
    · exact .inl ⟨d.writeSpace_fault sp addr v, d.writeSpace_cause sp addr v⟩
  · rw [List.getElem?_map, hd] at hd1
    exact .inr ⟨ha, (Option.some.inj hd1).symm⟩

/-! ### Which action carries an initialisation (30_encoding.md R91, R92) -/

theorem formatOf_decodeCmdc (w : BitVec 66) : formatOf (decodeCmdc w) = .cmdc := by
  unfold decodeCmdc
  split_ifs <;> rfl

theorem formatOf_decodeCmdd (w : BitVec 10) : formatOf (decodeCmdd w) = .cmdd := by
  unfold decodeCmdd
  split_ifs <;> rfl

theorem formatOf_decodeRecord (first : Bool) (flag : BitVec 8) :
    formatOf (decodeRecord first flag) = .record first := by
  unfold decodeRecord
  cases first
  · rw [if_neg Bool.false_ne_true]
    split_ifs <;> rfl
  · rfl

/-- Where an instruction comes from: a command word on one of the two ports, a record's flag, or a packed record. -/
theorem actionInstr_some {s : State} {a : HostAction} {i : Instr} (h : actionInstr s a = some i) :
    (∃ w, a = .commandC (actionUnit a) w ∧ decodeCmdc w = i) ∨ (∃ w, a = .commandD (actionUnit a) w ∧ decodeCmdd w = i) ∨
    (∃ first flag, decodeRecord first flag = i) ∨ ∃ rec, Instr.pdrec rec = i := by
  cases a with
  | commandC k w => exact .inl ⟨w, rfl, Option.some.inj h⟩
  | commandD k w => exact .inr (.inl ⟨w, rfl, Option.some.inj h⟩)
  | record k flag => exact .inr (.inr (.inl ⟨_, flag, Option.some.inj h⟩))
  | data k rec => exact .inr (.inr (.inr ⟨rec, Option.some.inj h⟩))
  | readReg _ _ | writeReg _ _ _ | readRegion _ _ _ | writeSpace _ _ _ _ | reset => cases h

/-- An instruction in a compressor unit's format arrives on that unit's port. -/
theorem eq_commandC_of_actionInstr {s : State} {a : HostAction} {i : Instr} (h : actionInstr s a = some i)
    (hformat : formatOf i = .cmdc) : ∃ w, a = .commandC (actionUnit a) w ∧ decodeCmdc w = i := by
  obtain hc | ⟨w, -, rfl⟩ | ⟨first, flag, rfl⟩ | ⟨rec, rfl⟩ := actionInstr_some h
  · exact hc
  · cases (formatOf_decodeCmdd w).symm.trans hformat
  · cases (formatOf_decodeRecord first flag).symm.trans hformat
  · cases hformat

/-- An instruction in a decompressor unit's command format arrives on that unit's port. -/
theorem eq_commandD_of_actionInstr {s : State} {a : HostAction} {i : Instr} (h : actionInstr s a = some i)
    (hformat : formatOf i = .cmdd) : ∃ w, a = .commandD (actionUnit a) w ∧ decodeCmdd w = i := by
  obtain ⟨w, -, rfl⟩ | hd | ⟨first, flag, rfl⟩ | ⟨rec, rfl⟩ := actionInstr_some h
  · cases (formatOf_decodeCmdc w).symm.trans hformat
  · exact hd
  · cases (formatOf_decodeRecord first flag).symm.trans hformat
  · cases hformat

/-! ### One step of a FAULTED unit (R242) -/

/-- A FAULTED compressor unit keeps its fault and its cause, or its `CINIT` or a hardware reset is carried out. -/
theorem step_cmp_of_fault {s t : State} {k : Nat} {c c1 : Cmp} (h : step s = .next t) (hc : s.cmps[k]? = some c)
    (hc1 : t.cmps[k]? = some c1) (hfault : c.fault = true) :
    (c1.fault = c.fault ∧ c1.cause = c.cause) ∨
    (c1 = c.init ∧ ∃ w rest, s.inbox = .commandC k w :: rest ∧ decodeCmdc w = .cinit) ∨
    (c1 = c.hardReset ∧ ∃ rest, s.inbox = .reset :: rest) := by
  obtain ⟨-, hidle⟩ | ⟨a, rest, i, hinbox, hinstr, hexec⟩ | ⟨a, rest, hinbox, -, haccess⟩ := step_cases s
  case inl =>
    obtain rfl : s = t := by rw [hidle] at h; injection h
    obtain rfl := Option.some.inj (hc1.symm.trans hc)
    exact .inl ⟨rfl, rfl⟩
  case inr.inl =>
    obtain rfl | ⟨rfl, hunit, hinit⟩ := exec_cmp_of_fault (s := accept s a rest) (hexec ▸ h) hc hc1 hfault
    · exact .inl ⟨rfl, rfl⟩
    · obtain ⟨w, ha, hw⟩ := eq_commandC_of_actionInstr hinstr rfl
      obtain rfl : actionUnit a = k := hunit
      exact .inr (.inl ⟨hinit, w, rest, ha ▸ hinbox, hw⟩)
  case inr.inr =>
    obtain hkept | ⟨rfl, hreset⟩ := hostAccess_cmp (s := accept s a rest) (haccess ▸ h) hc hc1
    · exact .inl hkept
    · exact .inr (.inr ⟨hreset, rest, hinbox⟩)

/-- A FAULTED decompressor unit keeps its fault and its cause, or its `DINIT` or a hardware reset is carried out. -/
theorem step_dec_of_fault {s t : State} {k : Nat} {d d1 : Dec} (h : step s = .next t) (hd : s.decs[k]? = some d)
    (hd1 : t.decs[k]? = some d1) (hfault : d.fault = true) :
    (d1.fault = d.fault ∧ d1.cause = d.cause) ∨
    (d1 = d.init ∧ ∃ w rest, s.inbox = .commandD k w :: rest ∧ decodeCmdd w = .dinit) ∨
    (d1 = d.hardReset ∧ ∃ rest, s.inbox = .reset :: rest) := by
  obtain ⟨-, hidle⟩ | ⟨a, rest, i, hinbox, hinstr, hexec⟩ | ⟨a, rest, hinbox, -, haccess⟩ := step_cases s
  case inl =>
    obtain rfl : s = t := by rw [hidle] at h; injection h
    obtain rfl := Option.some.inj (hd1.symm.trans hd)
    exact .inl ⟨rfl, rfl⟩
  case inr.inl =>
    obtain rfl | ⟨rfl, hunit, hinit⟩ := exec_dec_of_fault (s := accept s a rest) (hexec ▸ h) hd hd1 hfault
    · exact .inl ⟨rfl, rfl⟩
    · obtain ⟨w, ha, hw⟩ := eq_commandD_of_actionInstr hinstr rfl
      obtain rfl : actionUnit a = k := hunit
      exact .inr (.inl ⟨hinit, w, rest, ha ▸ hinbox, hw⟩)
  case inr.inr =>
    obtain hkept | ⟨rfl, hreset⟩ := hostAccess_dec (s := accept s a rest) (haccess ▸ h) hd hd1
    · exact .inl hkept
    · exact .inr (.inr ⟨hreset, rest, hinbox⟩)

/-- Settles O46: `init` and `hardReset`, the only ways a step changes a FAULTED unit's fault, leave a FRESH unit with no
cause. -/
theorem onlyInitialisationLeavesFaulted : Obligations.OnlyInitialisationLeavesFaulted := by
  unfold Obligations.OnlyInitialisationLeavesFaulted
  refine ⟨fun s t k c c1 hstep hc hc1 hfault => ?cmp, fun s t k d d1 hstep hd hd1 hfault => ?dec⟩
  case cmp =>
    obtain ⟨hkept, hcause⟩ | ⟨rfl, hinit⟩ | ⟨rfl, hreset⟩ := step_cmp_of_fault hstep hc hc1 hfault
    · exact .inl ⟨hkept.trans hfault, hcause⟩
    · exact .inr ⟨c.init_fault, c.init_cause, c.init_first, .inl hinit⟩
    · exact .inr ⟨c.hardReset_fault, c.hardReset_cause, c.hardReset_first, .inr hreset⟩
  case dec =>
    obtain ⟨hkept, hcause⟩ | ⟨rfl, hinit⟩ | ⟨rfl, hreset⟩ := step_dec_of_fault hstep hd hd1 hfault
    · exact .inl ⟨hkept.trans hfault, hcause⟩
    · exact .inr ⟨d.init_fault, d.init_cause, d.init_first, .inl hinit⟩
    · exact .inr ⟨d.hardReset_fault, d.hardReset_cause, d.hardReset_first, .inr hreset⟩

end Sys2Proof.Machine
end

/-! ## Hardware reset (70_reset_and_hazards.md R260, O51)

A reset maps `Cmp.hardReset` and `Dec.hardReset` over the units. Both are an initialisation of the unit with its
configuration or its lengths cleared, so a unit after reset has the values that `Cmp.init` and `Dec.init` leave. -/

section
namespace Sys2Proof.Machine

theorem cmpCondition_eq_fresh_iff {c : Cmp} :
    cmpCondition c = .fresh ↔ c.fault = false ∧ c.flushed = false ∧ c.first = true := by
  unfold cmpCondition
  cases c.fault <;> cases c.flushed <;> cases c.first <;> decide

theorem decCondition_eq_fresh_iff {d : Dec} : decCondition d = .fresh ↔ d.fault = false ∧ d.first = true := by
  unfold decCondition
  cases d.fault <;> cases d.first <;> decide

/-- `CINIT` takes a unit in any condition to FRESH (42_compressor.md R171). -/
theorem Cmp.init_fresh (c : Cmp) : cmpCondition c.init = .fresh :=
  cmpCondition_eq_fresh_iff.mpr ⟨c.init_fault, c.init_flushed, c.init_first⟩

/-- `DINIT` takes a unit in any condition to FRESH (43_decompressor.md R201). -/
theorem Dec.init_fresh (d : Dec) : decCondition d.init = .fresh :=
  decCondition_eq_fresh_iff.mpr ⟨d.init_fault, d.init_first⟩

/-- A reset compressor unit is FRESH, its `C_CONFIG` is 0 and its fault line is low. -/
theorem Cmp.hardReset_freshens (c : Cmp) :
    cmpCondition c.hardReset = .fresh ∧ c.hardReset.config = 0 ∧ cmpFaultLine c.hardReset = false :=
  ⟨Cmp.init_fresh _, Cmp.init_config _, Cmp.init_fault _⟩

/-- A reset decompressor unit is FRESH, its lengths are 0 and its fault line is low. -/
theorem Dec.hardReset_freshens (d : Dec) :
    decCondition d.hardReset = .fresh ∧ d.hardReset.bsLen = 0 ∧ d.hardReset.lzLen = 0 ∧ d.hardReset.pdLen = 0 ∧
      decFaultLine d.hardReset = false :=
  ⟨Dec.init_fresh _, Dec.init_bsLen _, Dec.init_lzLen _, Dec.init_pdLen _, Dec.init_fault _⟩

/-- The reset action resets every unit and leaves the rest of the block. -/
theorem hostAccess_reset (s : State) :
    hostAccess .reset s = .next { s with cmps := s.cmps.map Cmp.hardReset, decs := s.decs.map Dec.hardReset } := rfl

/-- Settles O51: each unit of the state after reset is `hardReset` of the unit at its place. -/
theorem hardwareResetFreshensUnits : Obligations.HardwareResetFreshensUnits := by
  unfold Obligations.HardwareResetFreshensUnits
  refine fun s => ⟨_, hostAccess_reset s, List.length_map _, List.length_map _,
    fun k c hc => ?cmpAt, fun k d hd => ?decAt,
    List.forall_mem_map.mpr fun c _ => c.hardReset_freshens, List.forall_mem_map.mpr fun d _ => d.hardReset_freshens⟩
  case cmpAt =>
    have hreset : (s.cmps.map Cmp.hardReset)[k]? = some c.hardReset := by rw [List.getElem?_map, hc, Option.map_some]
    exact hreset
  case decAt =>
    have hreset : (s.decs.map Dec.hardReset)[k]? = some d.hardReset := by rw [List.getElem?_map, hd, Option.map_some]
    exact ⟨[], [], [], d.src.next, hreset⟩

end Sys2Proof.Machine
end

/-! ## Encoding and decoding (30_encoding.md R91 to R109, O3 to O5)

A word's bytes give back its number (`bytesToNat_natToBytes`), and the number of an instruction's word gives back the
instruction (`decodeBits_encodeBits`). A decoder answers instructions of its own format alone, all of them well-formed. -/

section
namespace Sys2Proof

/-! ### Bytes and numbers -/

/-- The bytes of a number hold it but for what does not fit. -/
theorem bytesToNat_natToBytes (k n : Nat) : bytesToNat (natToBytes k n) = n % 256 ^ k := by
  induction k generalizing n with
  | zero => rw [pow_zero, Nat.mod_one]; rfl
  | succ k ih =>
    rw [natToBytes, bytesToNat, ih, BitVec.toNat_ofNat, pow_succ' 256 k, Nat.mod_mul]

/-- The whole bytes of a format hold its width. -/
theorem Format.two_pow_width_le (f : Format) : 2 ^ f.width ≤ 256 ^ f.bytes := by
  cases f <;> simp [Format.width, Format.bytes]

/-- The bytes of a number that fits the format decode as its bits do. -/
theorem decodeBytes_natToBytes {f : Format} {n : Nat} (h : n < 2 ^ f.width) :
    decodeBytes f (natToBytes f.bytes n) = .ok (decodeBits f n) := by
  have hbits : bytesToNat (natToBytes f.bytes n) = n := by
    rw [bytesToNat_natToBytes, Nat.mod_eq_of_lt (h.trans_le f.two_pow_width_le)]
  rw [decodeBytes, if_neg (not_not_intro (Laws.EncodeFits.natToBytes_length _ _)), hbits, if_neg (Nat.not_le_of_lt h)]

/-! ### The word of an instruction -/

/-- The word of every instruction fits its format. -/
theorem encodeFits (i : Instr) : Laws.EncodeFits.Statement i := by
  cases i with
  | cinit => exact Laws.EncodeFits.cinit
  | store value => exact Laws.EncodeFits.store value
  | flush => exact Laws.EncodeFits.flush
  | cmdcReserved => exact Laws.EncodeFits.cmdcReserved
  | dinit => exact Laws.EncodeFits.dinit
  | load flag => exact Laws.EncodeFits.load flag
  | cmddReserved2 => exact Laws.EncodeFits.cmddReserved2
  | cmddReserved3 => exact Laws.EncodeFits.cmddReserved3
  | recFirst => exact Laws.EncodeFits.recFirst
  | recIdent => exact Laws.EncodeFits.recIdent
  | recTrail => exact Laws.EncodeFits.recTrail
  | recLzeq => exact Laws.EncodeFits.recLzeq
  | recLzload => exact Laws.EncodeFits.recLzload
  | recCorrupt flag => exact Laws.EncodeFits.recCorrupt flag
  | pdrec rec => exact Laws.EncodeFits.pdrec rec

/-- The bits of an instruction's word are within its format's width. -/
theorem encodeBits_lt (i : Instr) : encodeBits i < 2 ^ (formatOf i).width :=
  (encodeFits i).2

/-- A word as a number is its `op` field above its operand field. -/
theorem ofNat_op_operand {a b : Nat} (op : BitVec a) (operand : BitVec b) :
    BitVec.ofNat (a + b) (op.toNat * 2 ^ b + operand.toNat) = op ++ operand := by
  have hword : (op ++ operand).toNat = op.toNat * 2 ^ b + operand.toNat := by
    rw [BitVec.toNat_append, ← Nat.shiftLeft_add_eq_or_of_lt operand.isLt, Nat.shiftLeft_eq]
  rw [← hword, BitVec.ofNat_toNat, BitVec.setWidth_eq]

theorem decodeCmdc_ofNat (op : BitVec 2) (value : Word) :
    decodeCmdc (BitVec.ofNat 66 (op.toNat * 2 ^ 64 + value.toNat)) =
      if op = 0 then .cinit else if op = 1 then .store value else if op = 2 then .flush else .cmdcReserved := by
  rw [← Machine.decodeCmdc_append, ← ofNat_op_operand]

theorem decodeCmdd_ofNat (op : BitVec 2) (flag : BitVec 8) :
    decodeCmdd (BitVec.ofNat 10 (op.toNat * 2 ^ 8 + flag.toNat)) =
      if op = 0 then .dinit else if op = 1 then .load flag else if op = 2 then .cmddReserved2 else .cmddReserved3 := by
  rw [← Machine.decodeCmdd_append, ← ofNat_op_operand]

/-- A flag that is none of the four branch tags is CORRUPT (R105 (a)). -/
theorem decodeRecord_of_lt {flag : BitVec 8} (h : 3 < flag.toNat) : decodeRecord false flag = .recCorrupt flag := by
  have hne (tag : BitVec 8) (htag : tag.toNat ≤ 3) : flag ≠ tag := fun heq => by subst heq; omega
  rw [decodeRecord, if_neg Bool.false_ne_true, if_neg (hne 0 (by decide)), if_neg (hne 1 (by decide)),
    if_neg (hne 2 (by decide)), if_neg (hne 3 (by decide))]

/-- The number of a well-formed instruction's word decodes to the instruction. -/
theorem decodeBits_encodeBits {i : Instr} (h : i.wf = true) : decodeBits (formatOf i) (encodeBits i) = i := by
  cases i with
  | cinit => exact decodeCmdc_ofNat 0 0
  | store value => exact decodeCmdc_ofNat 1 value
  | flush => exact decodeCmdc_ofNat 2 0
  | cmdcReserved => exact decodeCmdc_ofNat 3 0
  | dinit => exact decodeCmdd_ofNat 0 0
  | load flag => exact decodeCmdd_ofNat 1 flag
  | cmddReserved2 => exact decodeCmdd_ofNat 2 0
  | cmddReserved3 => exact decodeCmdd_ofNat 3 0
  | recFirst | recIdent | recTrail | recLzeq | recLzload => rfl
  | recCorrupt flag =>
    simp only [decodeBits, formatOf, encodeBits, BitVec.ofNat_toNat, BitVec.setWidth_eq]
    exact decodeRecord_of_lt (of_decide_eq_true h)
  | pdrec rec => simp [decodeBits, formatOf, encodeBits]

/-! ### What the decoders answer -/

theorem wf_decodeCmdc (w : BitVec 66) : (decodeCmdc w).wf = true := by
  unfold decodeCmdc
  split_ifs <;> rfl

theorem wf_decodeCmdd (w : BitVec 10) : (decodeCmdd w).wf = true := by
  unfold decodeCmdd
  split_ifs <;> rfl

/-- A flag that is decoded as CORRUPT is none of the four branch tags. -/
theorem wf_decodeRecord (first : Bool) (flag : BitVec 8) : (decodeRecord first flag).wf = true := by
  by_cases hflag : 3 < flag.toNat
  · cases first
    · rw [decodeRecord_of_lt hflag]
      exact decide_eq_true hflag
    · rfl
  · have htag : flag = 0 ∨ flag = 1 ∨ flag = 2 ∨ flag = 3 := by bv_omega
    cases first
    · obtain rfl | rfl | rfl | rfl := htag <;> rfl
    · rfl

/-- Each format decodes to well-formed instructions of its own. -/
theorem decodeBits_wf (f : Format) (n : Nat) :
    (decodeBits f n).wf = true ∧ formatOf (decodeBits f n) = f := by
  cases f with
  | cmdc => exact ⟨wf_decodeCmdc _, Machine.formatOf_decodeCmdc _⟩
  | cmdd => exact ⟨wf_decodeCmdd _, Machine.formatOf_decodeCmdd _⟩
  | record first => exact ⟨wf_decodeRecord first _, Machine.formatOf_decodeRecord first _⟩
  | pd16 => exact ⟨rfl, rfl⟩

theorem decodeBytes_ok {f : Format} {bs : List Byte} {i : Instr} (h : decodeBytes f bs = .ok i) :
    i = decodeBits f (bytesToNat bs) := by
  unfold decodeBytes at h
  split_ifs at h
  injection h with h
  exact h.symm

/-! ### The statements -/

/-- Settles O4: the bytes of an instruction's word hold its number, which decodes to the instruction. -/
theorem decodeOfEncode : Obligations.DecodeOfEncode := by
  unfold Obligations.DecodeOfEncode
  intro i hwf
  rw [encode, decodeBytes_natToBytes (encodeBits_lt i), decodeBits_encodeBits hwf]

/-- Settles O5: what a decoder answers is well-formed and of its format, so its encoding decodes to it. -/
theorem decodedInstructionsAreWellFormed : Obligations.DecodedInstructionsAreWellFormed := by
  unfold Obligations.DecodedInstructionsAreWellFormed
  intro f bs i h
  obtain ⟨hwf, hformat⟩ := decodeBits_wf f (bytesToNat bs)
  rw [← decodeBytes_ok h] at hwf hformat
  exact ⟨hwf, hformat, hformat ▸ decodeOfEncode i hwf⟩

/-- Settles O3: the decoder evaluated on each word. -/
theorem handWrittenWordsDecode : Obligations.HandWrittenWordsDecode := by
  unfold Obligations.HandWrittenWordsDecode
  decide

end Sys2Proof
end

/-! ## Steps, records and the units they reach (10_state.md R20, R24; 30_encoding.md R94, R109; O6 to O10, O45, O53, O54)

A wire record and the `LOAD` of its flag run one path (`IsRecordOf`), which gives the equality of the two commands in every
state; the FIRST record differs in an ACTIVE unit alone. Every instruction is one function of the unit that it reaches
(`exec_eq_onCmp`, `exec_next_iff_dec`), from which its frame and its independence of the other units follow. `step_units`
says what one step can do to each unit. -/

section
namespace Sys2Proof.Machine

/-! ### One step (O6, O7) -/

theorem step_of_actionInstr {s : State} {a : HostAction} {rest : List HostAction} {i : Instr} (hinbox : s.inbox = a :: rest)
    (hinstr : actionInstr s a = some i) : step s = exec i (accept s a rest) := by
  simp only [step, hinbox, hinstr]

theorem step_of_access {s : State} {a : HostAction} {rest : List HostAction} (hinbox : s.inbox = a :: rest)
    (haccess : actionInstr s a = none) : step s = hostAccess a (accept s a rest) := by
  simp only [step, hinbox, haccess]

/-- Settles O6: what each action carries, and the state that `accept` leaves. -/
theorem stepRunsDecodedInstruction : Obligations.StepRunsDecodedInstruction := by
  unfold Obligations.StepRunsDecodedInstruction
  refine fun s k rest => ⟨fun w hinbox => step_of_actionInstr hinbox rfl, fun w hinbox => step_of_actionInstr hinbox rfl,
    fun flag d hd hinbox => step_of_actionInstr hinbox ?record, fun rec hinbox => step_of_actionInstr hinbox rfl,
    fun a => step_of_access⟩
  case record => simp only [actionInstr, recordFirst, hd]

/-- Settles O7: the idle step. -/
theorem idleStepHoldsState : Obligations.IdleStepHoldsState := by
  unfold Obligations.IdleStepHoldsState
  intro s hinbox
  simp only [step, hinbox]

/-! ### Records and `LOAD` (O8 to O10) -/

/-- A record and the `LOAD` of its flag are one command, in every state. -/
theorem IsRecordOf.exec_record_eq {flag : BitVec 8} {rec : Instr} {path : Dec → LoadResult} (h : IsRecordOf flag rec path)
    (s : State) : exec rec s = exec (.load flag) s := by
  have hpath : (fun d : Dec => d.readCoded flag) = path := funext h.coded
  rw [h.record, ← hpath]
  rfl

/-- FIRST in a unit that is FRESH or FAULTED. -/
theorem exec_recFirst_of {s : State} {d : Dec} (hat : AtDec s d) (h : (d.fault || d.first) = true) :
    exec .recFirst s = .next (s.setDec (Dec.unlessFaulted (Dec.loadWith Dec.readFirst) d)) := by
  simp only [exec, execRecFirst, hat, h, if_true]

/-- In a unit with `s.first = 1`, FAULTED or not, FIRST is any `LOAD`. -/
theorem exec_recFirst_of_first {s : State} {d : Dec} (hat : AtDec s d) (hfirst : d.first = true) (flag : BitVec 8) :
    exec .recFirst s = exec (.load flag) s := by
  rw [exec_recFirst_of hat (by rw [hfirst, Bool.or_true]), exec_load_of hat, Dec.unlessFaulted, Dec.unlessFaulted,
    Dec.loadWith_of_first hfirst Dec.readFirst fun u => u.readCoded flag]

theorem exec_recFirst_of_active {s : State} {d : Dec} (hat : AtDec s d) (hrun : d.fault = false)
    (hactive : d.first = false) : exec .recFirst s = .refused .recordNotSelected := by
  simp [exec, execRecFirst, hat, hrun, hactive]

/-- A flag decodes, while `s.first = 0`, to the record of its path. -/
theorem exec_decodeRecord_false (flag : BitVec 8) (s : State) :
    exec (decodeRecord false flag) s = exec (.load flag) s := by
  by_cases hflag : 3 < flag.toNat
  · rw [decodeRecord_of_lt hflag]
    exact (isRecordOf_corrupt hflag).exec_record_eq s
  · have htag : flag = 0 ∨ flag = 1 ∨ flag = 2 ∨ flag = 3 := by bv_omega
    obtain rfl | rfl | rfl | rfl := htag
    · exact isRecordOf_ident.exec_record_eq s
    · exact isRecordOf_trail.exec_record_eq s
    · exact isRecordOf_lzeq.exec_record_eq s
    · exact isRecordOf_lzload.exec_record_eq s

/-- Settles O8: the rows of `decodeRecord`, and the path of the record that they select. -/
theorem loadRunsSelectedRecord : Obligations.LoadRunsSelectedRecord := by
  unfold Obligations.LoadRunsSelectedRecord
  refine ⟨fun _ => rfl, rfl, rfl, rfl, rfl, fun flag => decodeRecord_of_lt, fun s d flag hat => ?_⟩
  cases hfirst : d.first with
  | true => exact (exec_recFirst_of_first hat hfirst flag).symm
  | false => exact (exec_decodeRecord_false flag s).symm

/-- Settles O9: each record with a flag is its `LOAD`; FIRST is by the condition of the unit. -/
theorem recordsAreLoadsOfTheirFlag : Obligations.RecordsAreLoadsOfTheirFlag := by
  unfold Obligations.RecordsAreLoadsOfTheirFlag
  exact ⟨fun s => ⟨isRecordOf_ident.exec_record_eq s, isRecordOf_trail.exec_record_eq s, isRecordOf_lzeq.exec_record_eq s,
      isRecordOf_lzload.exec_record_eq s, fun _ hflag => (isRecordOf_corrupt hflag).exec_record_eq s⟩,
    fun _ _ hat hrun => ⟨fun hfirst flag => exec_recFirst_of_first hat hfirst flag, exec_recFirst_of_active hat hrun⟩⟩

/-- Settles O10: the row's arm. -/
theorem packedRecordIsNoOperation : Obligations.PackedRecordIsNoOperation := by
  unfold Obligations.PackedRecordIsNoOperation
  exact fun _ _ => rfl

/-! ### Commands on a FAULTED unit (O45) -/

theorem onCmp_unlessFaulted_of_fault {s : State} {c : Cmp} (hat : AtCmp s c) (hfault : c.fault = true) (f : Cmp → Cmp) :
    onCmp (Cmp.unlessFaulted f) s = .next s := by
  rw [onCmp_of hat, Cmp.unlessFaulted_of_fault hfault, State.setCmp_self hat]

theorem onDec_unlessFaulted_of_fault {s : State} {d : Dec} (hat : AtDec s d) (hfault : d.fault = true) (f : Dec → Dec) :
    onDec (Dec.unlessFaulted f) s = .next s := by
  rw [onDec_of hat, Dec.unlessFaulted_of_fault hfault, State.setDec_self hat]

/-- Settles O45: every command but an initialisation runs under `unlessFaulted`. -/
theorem faultedUnitIgnoresCommands : Obligations.FaultedUnitIgnoresCommands := by
  unfold Obligations.FaultedUnitIgnoresCommands
  refine ⟨fun s c i hat hfault hformat hne => ?cmp, fun s d i hat hfault hformat hne => ?dec⟩
  case cmp =>
    cases i with
    | cinit => exact absurd rfl hne
    | store _ | flush | cmdcReserved => exact onCmp_unlessFaulted_of_fault hat hfault _
    | dinit | load _ | cmddReserved2 | cmddReserved3 | recFirst | recIdent | recTrail | recLzeq | recLzload
    | recCorrupt _ | pdrec _ => cases hformat
  case dec =>
    cases i with
    | dinit => exact absurd rfl hne
    | load _ | cmddReserved2 | cmddReserved3 | recIdent | recTrail | recLzeq | recLzload | recCorrupt _ =>
      exact onDec_unlessFaulted_of_fault hat hfault _
    | recFirst =>
      rw [exec_recFirst_of hat (by rw [hfault, Bool.true_or]), Dec.unlessFaulted_of_fault hfault, State.setDec_self hat]
    | cinit | store _ | flush | cmdcReserved | pdrec _ => simp [formatOf] at hformat

/-! ### An instruction and its unit (O53) -/

/-- What the commands on a compressor unit's port do to the unit (R91, R93). -/
inductive IsCmpCommand : (Cmp → Cmp) → Prop
  | cinit : IsCmpCommand Cmp.init
  | store (v : Word) : IsCmpCommand (Cmp.unlessFaulted (Cmp.store v))
  | flush : IsCmpCommand (Cmp.unlessFaulted Cmp.flush)
  | reserved : IsCmpCommand (Cmp.unlessFaulted fun c => c.raise (.illegalCommand .reserved))

/-- What the commands and the wire records of a decompressor unit do to the unit (R92 to R101). -/
inductive IsDecCommand : (Dec → Dec) → Prop
  | dinit : IsDecCommand Dec.init
  | load (flag : BitVec 8) : IsDecCommand (Dec.load flag)
  | corrupt (flag : BitVec 8) : IsDecCommand (Dec.unlessFaulted (Dec.loadWith fun _ => .error (.corruptFlag flag)))
  | reserved : IsDecCommand (Dec.unlessFaulted fun d => d.raise (.illegalCommand .reserved))

/-- An instruction of the first port is one function of the unit it reaches. -/
theorem exec_eq_onCmp {i : Instr} (h : formatOf i = .cmdc) : ∃ f, IsCmpCommand f ∧ ∀ s, exec i s = onCmp f s := by
  cases i with
  | cinit => exact ⟨_, .cinit, fun _ => rfl⟩
  | store v => exact ⟨_, .store v, fun _ => rfl⟩
  | flush => exact ⟨_, .flush, fun _ => rfl⟩
  | cmdcReserved => exact ⟨_, .reserved, fun _ => rfl⟩
  | dinit | load _ | cmddReserved2 | cmddReserved3 | recFirst | recIdent | recTrail | recLzeq | recLzload
  | recCorrupt _ | pdrec _ => cases h

/-- FIRST, where it is not refused, is a `LOAD`; its operand is not examined. -/
theorem exec_recFirst_next_iff (s t : State) :
    exec .recFirst s = .next t ↔ ∃ d, AtDec s d ∧ (d.fault || d.first) = true ∧ t = s.setDec (d.load 0) := by
  have hload {d : Dec} (hcond : (d.fault || d.first) = true) :
      Dec.unlessFaulted (Dec.loadWith Dec.readFirst) d = d.load 0 := by
    cases hfirst : d.first with
    | true => rw [Dec.load, Dec.unlessFaulted, Dec.unlessFaulted, Dec.loadWith_of_first hfirst]
    | false =>
      rw [hfirst, Bool.or_false] at hcond
      rw [Dec.load, Dec.unlessFaulted_of_fault hcond, Dec.unlessFaulted_of_fault hcond]
  constructor
  · intro h
    obtain ⟨d, hat, hcond⟩ : ∃ d, AtDec s d ∧ (d.fault || d.first) = true := by
      simp only [exec, execRecFirst] at h
      split at h
      · cases h
      · rename_i d hat
        split at h
        · rename_i hcond
          exact ⟨d, hat, hcond⟩
        · cases h
    rw [exec_recFirst_of hat hcond, hload hcond] at h
    injection h with h
    exact ⟨d, hat, hcond, h.symm⟩
  · rintro ⟨d, hat, hcond, rfl⟩
    rw [exec_recFirst_of hat hcond, hload hcond]

theorem onDec_next_iff (f : Dec → Dec) (s t : State) :
    onDec f s = .next t ↔ ∃ d, AtDec s d ∧ True ∧ t = s.setDec (f d) := by
  constructor
  · intro h
    obtain ⟨d, hat, ht⟩ := onDec_next h
    exact ⟨d, hat, trivial, ht⟩
  · rintro ⟨d, hat, -, rfl⟩
    exact onDec_of hat

theorem IsRecordOf.next_iff {flag : BitVec 8} {rec : Instr} {path : Dec → LoadResult} (h : IsRecordOf flag rec path)
    (s t : State) : exec rec s = .next t ↔ ∃ d, AtDec s d ∧ True ∧ t = s.setDec (d.load flag) := by
  rw [h.exec_record_eq]
  exact onDec_next_iff _ s t

/-- Every other instruction is one function of the decompressor unit it reaches, under a condition on that unit alone
(FIRST needs a unit that is not ACTIVE, a packed record is always refused). -/
theorem exec_next_iff_dec {i : Instr} (h : formatOf i ≠ .cmdc) :
    ∃ (P : Dec → Prop) (f : Dec → Dec), IsDecCommand f ∧
      ∀ s t, exec i s = .next t ↔ ∃ d, AtDec s d ∧ P d ∧ t = s.setDec (f d) := by
  cases i with
  | dinit => exact ⟨_, _, .dinit, onDec_next_iff _⟩
  | load flag => exact ⟨_, _, .load flag, onDec_next_iff _⟩
  | cmddReserved2 | cmddReserved3 => exact ⟨_, _, .reserved, onDec_next_iff _⟩
  | recFirst => exact ⟨_, _, .load 0, exec_recFirst_next_iff⟩
  | recIdent => exact ⟨_, _, .load 0, isRecordOf_ident.next_iff⟩
  | recTrail => exact ⟨_, _, .load 1, isRecordOf_trail.next_iff⟩
  | recLzeq => exact ⟨_, _, .load 2, isRecordOf_lzeq.next_iff⟩
  | recLzload => exact ⟨_, _, .load 3, isRecordOf_lzload.next_iff⟩
  | recCorrupt flag => exact ⟨_, _, .corrupt flag, onDec_next_iff _⟩
  | pdrec rec =>
    refine ⟨fun _ => False, _, .dinit, fun s t => ⟨fun hexec => ?_, fun ⟨_, _, hfalse, _⟩ => hfalse.elim⟩⟩
    cases hexec
  | cinit | store _ | flush | cmdcReserved => exact absurd rfl h

/-- Settles O53: an instruction replaces the unit it reaches by a function of that unit. -/
theorem unitsAreIndependent : Obligations.UnitsAreIndependent := by
  unfold Obligations.UnitsAreIndependent
  refine ⟨fun i s t h => ?frame, fun i s s' t hunit hcmp hdec h => ?determined⟩
  case frame =>
    by_cases hformat : formatOf i = .cmdc
    · obtain ⟨f, -, hexec⟩ := exec_eq_onCmp hformat
      obtain ⟨c, -, rfl⟩ := onCmp_next (hexec s ▸ h)
      exact ⟨fun k hk => ⟨List.getElem?_set_ne hk.symm, rfl⟩, rfl, rfl, rfl, .inl ⟨hformat, rfl⟩⟩
    · obtain ⟨P, f, -, hexec⟩ := exec_next_iff_dec hformat
      obtain ⟨d, -, -, rfl⟩ := (hexec s t).mp h
      exact ⟨fun k hk => ⟨rfl, List.getElem?_set_ne hk.symm⟩, rfl, rfl, rfl, .inr ⟨hformat, rfl⟩⟩
  case determined =>
    by_cases hformat : formatOf i = .cmdc
    · obtain ⟨f, -, hexec⟩ := exec_eq_onCmp hformat
      obtain ⟨c, hat, rfl⟩ := onCmp_next (hexec s ▸ h)
      have hat' : AtCmp s' c := by rw [AtCmp, hunit, hcmp, hat]
      refine ⟨_, (hexec s').trans (onCmp_of hat'), ?_, hdec⟩
      rw [← hunit]
      exact (hat'.setCmp (f c)).trans (hunit ▸ (AtCmp.setCmp hat (f c)).symm)
    · obtain ⟨P, f, -, hexec⟩ := exec_next_iff_dec hformat
      obtain ⟨d, hat, hP, rfl⟩ := (hexec s t).mp h
      have hat' : AtDec s' d := by rw [AtDec, hunit, hdec, hat]
      refine ⟨_, (hexec s' _).mpr ⟨d, hat', hP, rfl⟩, hcmp, ?_⟩
      rw [← hunit]
      exact (hat'.setDec (f d)).trans (hunit ▸ (AtDec.setDec hat (f d)).symm)

/-! ### A step and the units (O54) -/

/-- What one step can do to a compressor unit. -/
inductive CmpStep : Cmp → Cmp → Prop
  | keep (c : Cmp) : CmpStep c c
  | command {f : Cmp → Cmp} (h : IsCmpCommand f) (c : Cmp) : CmpStep c (f c)
  | config (c : Cmp) (v : Word) : CmpStep c (c.writeConfig v)
  | reset (c : Cmp) : CmpStep c c.hardReset

/-- What one step can do to a decompressor unit. -/
inductive DecStep : Dec → Dec → Prop
  | keep (d : Dec) : DecStep d d
  | command {f : Dec → Dec} (h : IsDecCommand f) (d : Dec) : DecStep d (f d)
  | register {d d1 : Dec} {reg : BitVec 8} {v : Word} (h : d.writeReg reg v = some d1) : DecStep d d1
  | memory (d : Dec) (sp : DecSpace) (addr : Nat) (v : BitVec 16) : DecStep d (d.writeSpace sp addr v)
  | reset (d : Dec) : DecStep d d.hardReset

/-- Two lists of which one entry differs, when a reflexive relation allows the difference. -/
theorem forall₂_set {α : Type} {R : α → α → Prop} (hrefl : ∀ a, R a a) {l : List α} {n : Nat} {a b : α}
    (hn : l[n]? = some a) (hab : R a b) : List.Forall₂ R l (l.set n b) := by
  induction l generalizing n with
  | nil => cases hn
  | cons x l ih =>
    cases n with
    | zero =>
      obtain rfl : x = a := by simpa using hn
      exact .cons hab (List.forall₂_same.mpr fun y _ => hrefl y)
    | succ n => exact .cons (hrefl x) (ih (by simpa using hn))

/-- A step takes every unit, in its place, through what one step can do to it. -/
theorem step_units {s t : State} (h : step s = .next t) :
    List.Forall₂ CmpStep s.cmps t.cmps ∧ List.Forall₂ DecStep s.decs t.decs := by
  have hcmps : List.Forall₂ CmpStep s.cmps s.cmps := List.forall₂_same.mpr fun c _ => .keep c
  have hdecs : List.Forall₂ DecStep s.decs s.decs := List.forall₂_same.mpr fun d _ => .keep d
  obtain ⟨-, hidle⟩ | ⟨a, rest, i, -, -, hexec⟩ | ⟨a, rest, -, -, haccess⟩ := step_cases s
  case inl =>
    obtain rfl : s = t := by rw [hidle] at h; injection h
    exact ⟨hcmps, hdecs⟩
  case inr.inl =>
    rw [hexec] at h
    by_cases hformat : formatOf i = .cmdc
    · obtain ⟨f, hf, hcommand⟩ := exec_eq_onCmp hformat
      obtain ⟨c, hat, rfl⟩ := onCmp_next (hcommand _ ▸ h)
      exact ⟨forall₂_set .keep hat (.command hf c), hdecs⟩
    · obtain ⟨P, f, hf, hcommand⟩ := exec_next_iff_dec hformat
      obtain ⟨d, hat, -, rfl⟩ := (hcommand _ _).mp h
      exact ⟨hcmps, forall₂_set .keep hat (.command hf d)⟩
  case inr.inr =>
    rw [haccess] at h
    obtain rfl | ⟨v, rfl⟩ | ⟨c, v, hat, rfl⟩ | ⟨d, reg, v, d1, hat, hwrite, rfl⟩ | ⟨d, sp, addr, v, hat, rfl⟩ |
        ⟨-, rfl⟩ :=
      hostAccess_next h
    · exact ⟨hcmps, hdecs⟩
    · exact ⟨hcmps, hdecs⟩
    · exact ⟨forall₂_set .keep hat (.config c v), hdecs⟩
    · exact ⟨hcmps, forall₂_set .keep hat (.register hwrite)⟩
    · exact ⟨hcmps, forall₂_set .keep hat (.memory d sp addr v)⟩
    · exact ⟨List.forall₂_map_right_iff.mpr (List.forall₂_same.mpr fun c _ => .reset c),
        List.forall₂_map_right_iff.mpr (List.forall₂_same.mpr fun d _ => .reset d)⟩

theorem map_eq_of_forall₂ {α β : Type} {R : α → α → Prop} {g : α → β} (hg : ∀ a b, R a b → g b = g a) {l l' : List α}
    (h : List.Forall₂ R l l') : l'.map g = l.map g := by
  induction h with
  | nil => rfl
  | cons hab _ ih => rw [List.map_cons, List.map_cons, hg _ _ hab, ih]

theorem Cmp.store_params (v : Word) (c : Cmp) : (c.store v).params = c.params := by
  obtain ⟨-, h⟩ | ⟨-, which, -, h⟩ | ⟨-, -, h⟩ := c.store_cases v <;> rw [h]
  · exact c.raise_params _
  · exact c.raise_params _
  · exact c.commit_params v _

theorem Cmp.flush_params (c : Cmp) : c.flush.params = c.params := by
  obtain ⟨-, h⟩ | ⟨-, -, -, h⟩ | ⟨-, -, h⟩ := c.flush_cases <;> rw [h]
  · exact c.raise_params _
  · exact c.raise_params _
  · rw [Cmp.bsFlush_eq]

theorem Cmp.unlessFaulted_params {f : Cmp → Cmp} {c : Cmp} (h : (f c).params = c.params) :
    (Cmp.unlessFaulted f c).params = c.params := by
  unfold Cmp.unlessFaulted
  split
  · rfl
  · exact h

theorem IsCmpCommand.params {f : Cmp → Cmp} (h : IsCmpCommand f) (c : Cmp) : (f c).params = c.params := by
  cases h with
  | cinit => exact c.init_params
  | store v => exact Cmp.unlessFaulted_params (c.store_params v)
  | flush => exact Cmp.unlessFaulted_params c.flush_params
  | reserved => exact Cmp.unlessFaulted_params (c.raise_params _)

theorem Dec.unlessFaulted_params {f : Dec → Dec} {d : Dec} (h : (f d).params = d.params) :
    (Dec.unlessFaulted f d).params = d.params := by
  unfold Dec.unlessFaulted
  split
  · rfl
  · exact h

/-- A `LOAD`, by a path that only moves the cursors and the zero counters, faults, or it goes through the epilogue with
the rest of the unit as it was. -/
theorem Dec.loadWith_same {coded : Dec → LoadResult}
    (hsame : ∀ (d d1 : Dec) (r : Word), coded d = .ok (r, d1) → d.SameBut d1) (d : Dec) :
    (∃ why, d.loadWith coded = d.raise why) ∨
    ∃ r d1, Dec.SameBut { d with resultValid := false } d1 ∧ d.loadWith coded = d1.finish r := by
  obtain ⟨why, -, h⟩ | ⟨r, d1, hread, h⟩ := Dec.loadWith_cases coded d
  · exact .inl ⟨why, h⟩
  · refine .inr ⟨r, d1, ?_, h⟩
    split at hread
    · exact Dec.bsRead_same hread
    · exact hsame _ _ _ hread

theorem Dec.loadWith_params {coded : Dec → LoadResult}
    (hsame : ∀ (d d1 : Dec) (r : Word), coded d = .ok (r, d1) → d.SameBut d1) (d : Dec) :
    (d.loadWith coded).params = d.params := by
  obtain ⟨why, h⟩ | ⟨r, d1, hkept, h⟩ := Dec.loadWith_same hsame d
  · rw [h, Dec.raise_params]
  · rw [h, Dec.finish_eq]
    exact hkept.params

theorem IsDecCommand.params {f : Dec → Dec} (h : IsDecCommand f) (d : Dec) : (f d).params = d.params := by
  cases h with
  | dinit => exact d.init_params
  | load flag => exact Dec.unlessFaulted_params (Dec.loadWith_params (fun _ _ _ => Dec.readCoded_same) d)
  | corrupt flag => exact Dec.unlessFaulted_params (Dec.loadWith_params (fun _ _ _ hok => by cases hok) d)
  | reserved => exact Dec.unlessFaulted_params (d.raise_params _)

theorem CmpStep.params {c c1 : Cmp} (h : CmpStep c c1) : c1.params = c.params := by
  cases h with
  | keep => rfl
  | command hf => exact hf.params c
  | config _ v => exact c.writeConfig_params v
  | reset => exact Cmp.init_params _

theorem DecStep.params {d d1 : Dec} (h : DecStep d d1) : d1.params = d.params := by
  cases h with
  | keep => rfl
  | command hf => exact hf.params d
  | register hwrite => obtain rfl | rfl | rfl | rfl | rfl := Dec.writeReg_some hwrite <;> rfl
  | memory _ sp addr v => cases sp <;> rfl
  | reset => exact Dec.init_params _

/-- Settles O54: nothing that a step can do to a unit changes its parameters. -/
theorem parametersNeverChange : Obligations.ParametersNeverChange := by
  unfold Obligations.ParametersNeverChange
  intro s t h
  obtain ⟨hcmps, hdecs⟩ := step_units h
  exact ⟨map_eq_of_forall₂ (fun c c1 (hc : CmpStep c c1) => hc.params) hcmps,
    map_eq_of_forall₂ (fun d d1 (hd : DecStep d d1) => hd.params) hdecs⟩

end Sys2Proof.Machine
end

/-! ## The stream of a unit: fields, unbounded capacities, a run of one value, the two units in step (O13, O35, O36, O59)

Without a capacity no record lacks room. A value equal to the newest entry finds that entry under its key, whatever the
key function, so a run of it takes the IDENT path throughout. One `STORE` and the `LOAD` of its flag are `InStep.load`. -/

section
namespace Sys2Proof.Machine

/-- Settles O13: the significant bits, the bound and the trailing zeros make up the 64 bits. -/
theorem significantBitsRange : Obligations.SignificantBitsRange := by
  unfold Obligations.SignificantBitsRange
  intro x hx hctz
  obtain ⟨hlow, hsum⟩ := trailSig_add hx
  have hhigh : trailSig x ≤ 50 := by omega
  exact ⟨hlow, hhigh, hsum, ushiftRight_ctz64_lt hx, ushiftRight_shiftLeft_ctz64 hx⟩

/-- Settles O35: in a unit of unbounded capacities neither a record nor the pad lacks room. -/
theorem unboundedCompressorNeverFaults : Obligations.UnboundedCompressorNeverFaults := by
  unfold Obligations.UnboundedCompressorNeverFaults
  intro s c v hat hrun hopen hcaps
  have hpad : exceeds c.params.bsCapBits (c.bsWpos + padBits c.bsWpos) = false :=
    Cmp.exceeds_bsCapBits_of_unbounded hcaps _
  refine ⟨_, _, exec_store_of_room hat hrun hopen (Cmp.not_lacks_of_unbounded hcaps _),
    by rw [Cmp.commit_fault, hrun], by rw [Cmp.commit_flushed, hopen], Cmp.commit_first c v _, exec_flush_of hat, ?flush⟩
  case flush =>
    rw [Cmp.unlessFaulted_of_run hrun, Cmp.flush_of_room hopen (.inr hpad)]
    exact ⟨rfl, hrun⟩

/-! ### A run of one value (O36) -/

/-- With the newest entry equal to the value, `IndexOf` finds it, whatever the key function, and the XOR result is 0. -/
theorem Cmp.storePath_of_newest {c : Cmp} {v : Word} (hactive : c.first = false) (hnewest : Ring.get c.ring c.size = v) :
    c.storePath v = .ident := by
  have hmatch : c.indexOf (keyOf c.params.key v) = some c.size :=
    (Cmp.indexOf_eq_some_iff hactive _ _).mpr
      ⟨le_rfl, Nat.sub_le _ _, by rw [hnewest], fun j hlt hle => absurd hle (Nat.not_le_of_lt hlt)⟩
  have hzero : v ^^^ Ring.get c.ring c.size = 0 := by rw [hnewest]; exact BitVec.xor_self
  have habove : 13 < ctz64 (v ^^^ Ring.get c.ring c.size) := by rw [hzero, ctz64_zero]; decide
  have hxor : c.xorResult v = 0 := by
    rw [Cmp.xorResult, Cmp.reference_of_above hmatch habove, Ring.get_mod, hzero]
  rw [Cmp.storePath, choosePath, if_pos hxor]

/-- The newest entry after a value has been stored is the value. -/
theorem Cmp.get_commit_newest {c : Cmp} (hfresh : c.first = true → c.size = 0) (v : Word) (e : Emission) :
    Ring.get (c.commit v e).ring (c.commit v e).size = v := by
  have hslot : (c.commit v e).size = if c.first then 0 else c.size + 1 := by
    rw [Cmp.commit_size]
    cases hfirst : c.first with
    | true => exact hfresh hfirst
    | false => rfl
  rw [hslot, Cmp.commit_ring, Ring.get_put_self]

/-- What `n` values coded as VALUE_IDENTICAL add to a unit: 7 bits and a flag 0 each, and no side entry. -/
structure Cmp.IdentRun (c : Cmp) (n : Nat) (c1 : Cmp) : Prop where
  runs : c1.fault = false
  size : c1.size = c.size + n
  bits : c1.bsWpos = c.bsWpos + 7 * n
  flags : c1.fbCount = c.fbCount + n
  sels : c1.lzbCount = c.lzbCount
  records : c1.pdbCount = c.pdbCount
  zeros : ∀ k, k < n → Memory.read c1.fb (c.fbCount + k) = some 0
  below : ∀ a, a < c.fbCount → Memory.read c1.fb a = Memory.read c.fb a

/-- One VALUE_IDENTICAL record before a run of them is a run. -/
theorem Cmp.IdentRun.cons {c c1 : Cmp} {v : Word} {n slot : Nat} (hreal : c.measure = false) (hactive : c.first = false)
    (h : (c.commit v (emitIdent slot)).IdentRun n c1) : c.IdentRun (n + 1) c1 := by
  have hflag : (c.commit v (emitIdent slot)).fbCount = c.fbCount + 1 := Cmp.commit_fbCount c v _
  have hfb : (c.commit v (emitIdent slot)).fb = Memory.write c.fb c.fbCount 0 := by
    rw [Cmp.commit_fb, hreal]; rfl
  have hsize : (c.commit v (emitIdent slot)).size = c.size + 1 := by
    rw [Cmp.commit_size, hactive, if_neg Bool.false_ne_true]
  have hbits : (c.commit v (emitIdent slot)).bsWpos = c.bsWpos + 7 := Cmp.commit_bsWpos c v _
  refine
    { runs := h.runs
      size := by rw [h.size, hsize]; omega
      bits := by rw [h.bits, hbits]; omega
      flags := by rw [h.flags, hflag]; omega
      sels := h.sels.trans (Cmp.commit_lzbCount c v _)
      records := h.records.trans (Cmp.commit_pdbCount c v _)
      zeros := fun k hk => ?zeros
      below := fun a ha => ?below }
  case zeros =>
    cases k with
    | zero => rw [Nat.add_zero, h.below _ (by omega), hfb, Memory.read_write_self]
    | succ k => rw [← h.zeros k (by omega), hflag, Nat.add_assoc, Nat.add_comm 1 k]
  case below => rw [h.below a (by omega), hfb, Memory.read_write_other _ (by omega)]

/-- Storing the newest value `n` times over is a run of VALUE_IDENTICAL records. -/
theorem Cmp.identRun_storeAll (n : Nat) {c : Cmp} {v : Word} (hrun : c.fault = false) (hopen : c.flushed = false)
    (hactive : c.first = false) (hreal : c.measure = false) (hcaps : c.unbounded)
    (hnewest : Ring.get c.ring c.size = v) : c.IdentRun n (c.storeAll (List.replicate n v)) := by
  induction n generalizing c with
  | zero =>
    exact ⟨hrun, rfl, rfl, rfl, rfl, rfl, fun k hk => absurd hk (Nat.not_lt_zero k), fun _ _ => rfl⟩
  | succ n ih =>
    have hrecord := Cmp.emission_of_ident hactive (Cmp.storePath_of_newest hactive hnewest)
    have hstore : Cmp.unlessFaulted (Cmp.store v) c = c.commit v (emitIdent (c.reference v).1) := by
      rw [Cmp.unlessFaulted_of_run hrun, Cmp.store_of_room hopen (Cmp.not_lacks_of_unbounded hcaps _), hrecord]
    rw [List.replicate_succ, Cmp.storeAll_cons, hstore]
    have hfresh (hfirst : c.first = true) : c.size = 0 := by cases hactive.symm.trans hfirst
    refine (ih ?_ ?_ (Cmp.commit_first c v _) ?_ ?_ (Cmp.get_commit_newest hfresh v _)).cons hreal hactive
    · rw [Cmp.commit_fault, hrun]
    · rw [Cmp.commit_flushed, hopen]
    · rw [Cmp.commit_measure, hreal]
    · rw [Cmp.unbounded, Cmp.commit_params]
      exact hcaps

/-- Settles O36: after each value the newest entry is that value again, so the next takes the same path. -/
theorem identicalRunTakesIdent : Obligations.IdenticalRunTakesIdent := by
  unfold Obligations.IdenticalRunTakesIdent
  intro n s c v hat hrun hopen hactive hreal hcaps hnewest
  have hident := Cmp.identRun_storeAll n hrun hopen hactive hreal hcaps hnewest
  refine ⟨_, _, ?stores, hat.setCmp _, hident.runs, hident.size, hident.bits, hident.flags, hident.sels, hident.records,
    hident.zeros⟩
  case stores => rw [← execAll_stores _ hat, List.map_replicate]

/-! ### One value stored and loaded (O59) -/

/-- A state shows which unit the addressed one has been replaced by. -/
theorem State.setCmp_inj {s : State} {c a b : Cmp} (hat : AtCmp s c) (h : s.setCmp a = s.setCmp b) : a = b := by
  have ha : AtCmp (s.setCmp a) a := hat.setCmp a
  have hb : AtCmp (s.setCmp a) b := h ▸ hat.setCmp b
  exact Option.some.inj (ha.symm.trans hb)

/-- A `STORE` that leaves its unit not FAULTED has committed its record (R172). -/
theorem Cmp.store_eq_commit {c : Cmp} {v : Word} (h : (c.store v).fault = false) :
    c.flushed = false ∧ ¬ c.lacks (c.emission v) ∧ c.store v = c.commit v (c.emission v) := by
  obtain ⟨-, hstore⟩ | ⟨-, which, -, hstore⟩ | ⟨hopen, hroom, hstore⟩ := c.store_cases v
  · rw [hstore, Cmp.raise_fault] at h
    cases h
  · rw [hstore, Cmp.raise_fault] at h
    cases h
  · exact ⟨hopen, (c.overflow_eq_none_iff _).mp hroom, hstore⟩

/-- A branch tag as an operand of `LOAD` and as an entry of the Flag Buffer are one number. -/
theorem eq_setWidth_of_setWidth_eq {flag : BitVec 8} {tag : BitVec 2} (hlt : flag.toNat < 4)
    (h : flag.setWidth 2 = tag) : flag = tag.setWidth 8 := by
  subst h
  bv_omega

/-- Settles O59: the flag appended is that of the path taken, and `InStep.load` is the rest. -/
theorem storeAndLoadStayInStep : Obligations.StoreAndLoadStayInStep := by
  unfold Obligations.StoreAndLoadStayInStep
  intro s c c1 d v flag hc hd hstep hopen hreal hexec hrun hcarries hflag
  have hstored : c1 = c.store v := by
    rw [exec_store_of hc, Cmp.unlessFaulted_of_run hstep.cmpRuns] at hexec
    injection hexec with hexec
    exact (State.setCmp_inj hc hexec).symm
  obtain ⟨-, -, hcommit⟩ := Cmp.store_eq_commit (hstored ▸ hrun)
  rw [hcommit] at hstored
  subst hstored
  have htag (hactive : c.first = false) : flag = (flagOf (c.storePath v)).setWidth 8 := by
    obtain ⟨hlt, hread⟩ := hflag hactive
    rw [Cmp.commit_fb, hreal, Cmp.emission_flag, hactive, if_neg Bool.false_ne_true, Memory.read_appendOpt_some] at hread
    exact eq_setWidth_of_setWidth_eq hlt (Option.some.inj hread).symm
  obtain ⟨hnext, hresult, hvalid⟩ := hstep.load hreal hcarries htag
  exact ⟨d.load flag, exec_load_of hd flag, hnext.decRuns, hvalid, hresult, hnext⟩

end Sys2Proof.Machine
end

/-! ## The invariant (10_state.md R30 to R48; 60_exceptions.md R231; O55, O56)

`step_units` says what a step can do to a unit; here each of those keeps the unit's invariant. For a compressor unit the
case with content is a committed record: how its flag, its side entries and the `s.prev_lz` it leaves hang together is
`Cmp.emission_consistent`, and the invariant's tallies and its two clauses about `s.prev_lz` follow from that alone. -/

section
namespace Sys2Proof.Machine

/-! ### A record and its side entries (R173, R178 to R181) -/

/-- How the parts of one record hang together: the first value has no flag; a selector goes with flag 3 and a packed
record with flag 1; `s.prev_lz` is left set by the flags 2 and 3, being then the new selector or the old one kept. -/
structure Emission.Consistent (e : Emission) (first : Bool) (prevLz : Option (BitVec 3)) : Prop where
  unflagged : e.flag = none ↔ first = true
  firstRecord : first = true → e.width = 64 ∧ e.prevLz = prevLz
  selTag : e.sel.isSome = true ↔ e.flag = some 3
  packedTag : e.packed.isSome = true ↔ e.flag = some 1
  prevTag : first = false → (e.prevLz.isSome = true ↔ e.flag = some 2 ∨ e.flag = some 3)
  prevSel : ∀ sel, e.prevLz = some sel → e.sel = some sel ∨ e.sel = none ∧ prevLz = some sel

theorem Cmp.emission_consistent (c : Cmp) (v : Word) : (c.emission v).Consistent c.first c.prevLz := by
  obtain ⟨hfirst, he⟩ | ⟨hfirst, -, he⟩ | ⟨hfirst, -, he⟩ | ⟨hfirst, hpath, he⟩ | ⟨hfirst, -, he⟩ := c.emission_cases v
  all_goals rw [he, hfirst]
  case inl => constructor <;> simp [Cmp.emitFirst]
  case inr.inl => constructor <;> simp [emitIdent, flagOf]
  case inr.inr.inl => constructor <;> simp [emitTrail, flagOf]
  case inr.inr.inr.inl =>
    obtain ⟨-, -, hprev⟩ := Cmp.storePath_lzeq hpath
    constructor <;> simp [emitLzeq, flagOf, hprev]
  case inr.inr.inr.inr => constructor <;> simp [emitLzload, flagOf]

theorem countOpt_le {w : Nat} (n : Nat) (e : Option (BitVec w)) : countOpt n e ≤ n + 1 := by
  cases e
  · exact Nat.le_succ n
  · exact le_rfl

section
variable {e : Emission} {first : Bool} {prevLz : Option (BitVec 3)} (h : e.Consistent first prevLz)
include h

theorem Emission.Consistent.flag_of_first (hfirst : first = true) : e.flag = none :=
  h.unflagged.mpr hfirst

theorem Emission.Consistent.flag_of_active (hactive : first = false) : ∃ f, e.flag = some f := by
  refine Option.ne_none_iff_exists'.mp fun hnone => ?_
  rw [h.unflagged.mp hnone] at hactive
  cases hactive

/-- No record has both side entries. -/
theorem Emission.Consistent.sel_or_packed : e.sel = none ∨ e.packed = none := by
  refine or_iff_not_imp_left.mpr fun hsel => ?_
  have hthree : e.flag = some 3 := h.selTag.mp (Option.isSome_iff_ne_none.mpr hsel)
  simpa [hthree] using h.packedTag

/-- The side entries stay at most one for each flag. -/
theorem Emission.Consistent.sides_le {m n k : Nat} (hle : m + n ≤ k) :
    countOpt m e.sel + countOpt n e.packed ≤ countOpt k e.flag := by
  cases hflag : e.flag with
  | none =>
    have hsel : e.sel = none := by simpa [hflag] using h.selTag
    have hpacked : e.packed = none := by simpa [hflag] using h.packedTag
    rw [hsel, hpacked]
    exact hle
  | some f =>
    have hm := countOpt_le m e.sel
    have hn := countOpt_le n e.packed
    obtain hnone | hnone := h.sel_or_packed <;> simp only [hnone, countOpt] at hm hn ⊢ <;> omega

end

/-! ### Tallies, room and canonical form after an append -/

theorem Memory.wf_appendOpt {w : Nat} {m : Memory w} (h : Memory.wf m) (measure : Bool) (n : Nat) (e : Option (BitVec w)) :
    Memory.wf (Memory.appendOpt measure m n e) := by
  cases e with
  | none => exact h
  | some x =>
    cases measure
    · exact Memory.wf_write h n x
    · exact h

/-- The tally of the flag `x` and the count of the side entries that go with it grow together. -/
theorem Memory.tally_appendOpt {w k : Nat} {m : Memory w} {n count : Nat} {flag : Option (BitVec w)} {x : BitVec w}
    {entry : Option (BitVec k)} (h : count = Memory.tally m n x) (htag : entry.isSome = true ↔ flag = some x) :
    countOpt count entry = Memory.tally (Memory.appendOpt false m n flag) (countOpt n flag) x := by
  cases flag with
  | none =>
    obtain rfl : entry = none := by simpa using htag
    exact h
  | some f =>
    rw [Memory.appendOpt, if_neg Bool.false_ne_true, countOpt, Memory.tally_write, ← h]
    cases entry with
    | none =>
      have hne : f ≠ x := by simpa [eq_comm] using htag
      rw [if_neg hne, countOpt, Nat.add_zero]
    | some y =>
      have heq : f = x := by simpa using htag
      rw [if_pos heq, countOpt]

/-- There is room for what is there after an append for which there was room. -/
theorem exceeds_countOpt {w : Nat} {cap : Option Nat} {n : Nat} {e : Option (BitVec w)} (h : exceeds cap n = false)
    (hroom : lacksRoom cap n e = false) : exceeds cap (countOpt n e) = false := by
  cases e with
  | none => exact h
  | some x => simpa [lacksRoom, countOpt] using hroom

@[simp] theorem exceeds_zero (cap : Option Nat) : exceeds cap 0 = false := by
  cases cap <;> simp [exceeds]

/-! ### A compressor unit -/

/-- The invariant does not speak of the ring or of the source of free values. -/
theorem Cmp.Inv.with_ring {c : Cmp} (h : c.Inv) (ring : Ring) (src : Config.Source) :
    Cmp.Inv { c with ring := ring, src := src } :=
  ⟨{ h.sound with }, fun hrun => { h.counts hrun with }, fun hrun hreal => { h.contents hrun hreal with }⟩

/-- An initialised unit has an empty stream. -/
theorem Cmp.streamCounts_init (c : Cmp) : c.init.StreamCounts where
  freshSize _ := ⟨rfl, rfl, rfl, rfl⟩
  activeSize hactive := by cases hactive
  sides := le_rfl
  flushedAligned hflushed := by cases hflushed

theorem Cmp.streamContents_init (c : Cmp) : c.init.StreamContents where
  bsFills := Memory.fills_nil
  fbFills := Memory.fills_nil
  lzbFills := Memory.fills_nil
  pdbFills := Memory.fills_nil
  bsRoom := exceeds_zero _
  fbRoom := exceeds_zero _
  lzbRoom := exceeds_zero _
  pdbRoom := exceeds_zero _
  lzbTally := rfl
  pdbTally := rfl
  prevSet n hn := by cases hn
  prevNewest sel hsel := by cases hsel

theorem Cmp.inv_init {c : Cmp} (hconfig : c.config &&& 1 = c.config) : c.init.Inv where
  sound :=
    { bsWf := Memory.wf_nil, fbWf := Memory.wf_nil, lzbWf := Memory.wf_nil, pdbWf := Memory.wf_nil
      configBits := hconfig, causeClear := fun _ => rfl, causeCode := fun hfault => by cases hfault }
  counts _ := c.streamCounts_init
  contents _ _ := c.streamContents_init

theorem Cmp.inv_hardReset (c : Cmp) : c.hardReset.Inv :=
  Cmp.inv_init (c := { c with config := 0 }) BitVec.zero_and

/-- Of a FAULTED unit the invariant asks for its configuration and its cause alone. -/
theorem Cmp.inv_raise {c : Cmp} (hconfig : c.config &&& 1 = c.config) {why : Cause}
    (hcode : causeCode why = 7 ∨ causeCode why = 8) : (c.raise why).Inv where
  sound :=
    { bsWf := Memory.wf_nil, fbWf := Memory.wf_nil, lzbWf := Memory.wf_nil, pdbWf := Memory.wf_nil
      configBits := hconfig, causeCode := fun _ => hcode, causeClear := fun hrun => by cases hrun }
  counts hrun := by cases hrun
  contents hrun := by cases hrun

theorem Cmp.Inv.writeConfig {c : Cmp} (h : c.Inv) (v : Word) : (c.writeConfig v).Inv where
  sound := { h.sound with configBits := by rw [Cmp.writeConfig_config, BitVec.and_assoc, BitVec.and_self] }
  counts hrun := { h.counts hrun with }
  contents hrun hreal := { h.contents hrun hreal with }

theorem Cmp.Sound.commit {c : Cmp} (h : c.Sound) (v : Word) (e : Emission) : (c.commit v e).Sound := by
  rw [Cmp.commit_eq]
  refine
    { bsWf := ?bsWf
      fbWf := Memory.wf_appendOpt h.fbWf _ _ _
      lzbWf := Memory.wf_appendOpt h.lzbWf _ _ _
      pdbWf := Memory.wf_appendOpt h.pdbWf _ _ _
      configBits := h.configBits
      causeClear := h.causeClear
      causeCode := h.causeCode }
  case bsWf =>
    dsimp only
    split
    · exact h.bsWf
    · exact Memory.wf_writeBits h.bsWf _ _ _

/-- The counts of a stream after a record (R48 (a), (b)). -/
theorem Cmp.StreamCounts.commit {c : Cmp} (h : c.StreamCounts) (hopen : c.flushed = false) (v : Word) :
    (c.commit v (c.emission v)).StreamCounts := by
  have hrecord := c.emission_consistent v
  refine
    { freshSize := fun hfirst => by rw [Cmp.commit_first] at hfirst; cases hfirst
      activeSize := fun _ => ?activeSize
      sides := ?sides
      flushedAligned := fun hflushed => by rw [Cmp.commit_flushed, hopen] at hflushed; cases hflushed }
  case activeSize =>
    rw [Cmp.commit_size, Cmp.commit_fbCount, Cmp.commit_bsWpos]
    cases hfirst : c.first with
    | true =>
      obtain ⟨hsize, hflags, hbits, -⟩ := h.freshSize hfirst
      rw [hrecord.flag_of_first hfirst, (hrecord.firstRecord hfirst).1, hsize, hflags, hbits]
      exact ⟨rfl, le_rfl⟩
    | false =>
      obtain ⟨hsize, hbits⟩ := h.activeSize hfirst
      obtain ⟨f, hflag⟩ := hrecord.flag_of_active hfirst
      rw [hflag, hsize]
      exact ⟨rfl, Nat.le_add_right_of_le hbits⟩
  case sides =>
    rw [Cmp.commit_lzbCount, Cmp.commit_pdbCount, Cmp.commit_fbCount]
    exact hrecord.sides_le h.sides

/-- What the regions hold after a record that found room (R48 (c), (e); R172). -/
theorem Cmp.StreamContents.commit {c : Cmp} (h : c.StreamContents) (hcounts : c.StreamCounts) (hreal : c.measure = false)
    {v : Word} (hroom : c.overflow (c.emission v) = none) : (c.commit v (c.emission v)).StreamContents := by
  have hrecord := c.emission_consistent v
  obtain hm | ⟨hbs, hfb, hlzb, hpdb⟩ := Cmp.overflow_none hroom
  · rw [hreal] at hm
    cases hm
  rw [Cmp.commit_eq, hreal]
  refine
    { bsFills := Memory.fills_writeBits h.bsFills _ _
      fbFills := Memory.fills_appendOpt h.fbFills _
      lzbFills := Memory.fills_appendOpt h.lzbFills _
      pdbFills := Memory.fills_appendOpt h.pdbFills _
      bsRoom := hbs
      fbRoom := exceeds_countOpt h.fbRoom hfb
      lzbRoom := exceeds_countOpt h.lzbRoom hlzb
      pdbRoom := exceeds_countOpt h.pdbRoom hpdb
      lzbTally := Memory.tally_appendOpt h.lzbTally hrecord.selTag
      pdbTally := Memory.tally_appendOpt h.pdbTally hrecord.packedTag
      prevSet := fun n hn => ?prevSet
      prevNewest := fun sel hsel => ?prevNewest }
  case prevSet =>
    cases hfirst : c.first with
    | true =>
      obtain ⟨-, hflags, -⟩ := hcounts.freshSize hfirst
      simp [hrecord.flag_of_first hfirst, hflags, countOpt] at hn
    | false =>
      obtain ⟨f, hflag⟩ := hrecord.flag_of_active hfirst
      obtain rfl : n = c.fbCount := by simpa [hflag, countOpt, eq_comm] using hn
      simp only [hflag, Memory.read_appendOpt_some]
      exact hflag ▸ hrecord.prevTag hfirst
  case prevNewest =>
    obtain hnew | ⟨hnone, hold⟩ := hrecord.prevSel sel hsel
    · simp only [hnew]
      exact ⟨c.lzbCount, rfl, Memory.read_appendOpt_some _ _ _⟩
    · simp only [hnone]
      exact h.prevNewest sel hold

/-- A `STORE` keeps the invariant. -/
theorem Cmp.Inv.store {c : Cmp} (h : c.Inv) (hrun : c.fault = false) (v : Word) : (c.store v).Inv := by
  obtain ⟨-, hstore⟩ | ⟨-, which, -, hstore⟩ | ⟨hopen, hroom, hstore⟩ := c.store_cases v <;> rw [hstore]
  · exact Cmp.inv_raise h.sound.configBits (.inl rfl)
  · exact Cmp.inv_raise h.sound.configBits (.inr rfl)
  · refine ⟨h.sound.commit v _, fun _ => (h.counts hrun).commit hopen v, fun _ hreal => ?_⟩
    rw [Cmp.commit_measure] at hreal
    exact (h.contents hrun hreal).commit (h.counts hrun) hreal hroom

/-- A `FLUSH` keeps the invariant. -/
theorem Cmp.Inv.flush {c : Cmp} (h : c.Inv) (hrun : c.fault = false) : c.flush.Inv := by
  obtain ⟨-, hflush⟩ | ⟨-, -, -, hflush⟩ | ⟨hopen, hroom, -⟩ := c.flush_cases
  · rw [hflush]
    exact Cmp.inv_raise h.sound.configBits (.inl rfl)
  · rw [hflush]
    exact Cmp.inv_raise h.sound.configBits (.inr rfl)
  have hcounts := h.counts hrun
  rw [Cmp.flush_of_room hopen hroom]
  refine ⟨{ h.sound with bsWf := ?bsWf }, fun _ => ?counts, fun _ hreal => ?contents⟩
  case bsWf =>
    dsimp only
    split
    · exact h.sound.bsWf
    · exact Memory.wf_writeBits h.sound.bsWf _ _ _
  case counts =>
    refine
      { hcounts with
        freshSize := fun hfirst => ?fresh
        activeSize := fun hactive => ?active
        flushedAligned := fun _ => add_padBits_mod c.bsWpos }
    case fresh =>
      obtain ⟨hsize, hflags, hbits, hprev⟩ := hcounts.freshSize hfirst
      exact ⟨hsize, hflags, by simp [hbits, padBits], hprev⟩
    case active =>
      obtain ⟨hsize, hbits⟩ := hcounts.activeSize hactive
      exact ⟨hsize, Nat.le_add_right_of_le hbits⟩
  case contents =>
    replace hreal : c.measure = false := hreal
    have hcontents := h.contents hrun hreal
    have hpad : exceeds c.params.bsCapBits (c.bsWpos + padBits c.bsWpos) = false := by simpa [hreal] using hroom
    exact
      { hcontents with
        bsFills := by simpa [hreal] using Memory.fills_writeBits hcontents.bsFills (padBits c.bsWpos) 0
        bsRoom := hpad }

theorem Cmp.Inv.unlessFaulted {f : Cmp → Cmp} {c : Cmp} (h : c.Inv) (hf : c.fault = false → (f c).Inv) :
    (Cmp.unlessFaulted f c).Inv := by
  cases hfault : c.fault with
  | true => rwa [Cmp.unlessFaulted_of_fault hfault]
  | false =>
    rw [Cmp.unlessFaulted_of_run hfault]
    exact hf hfault

/-- Nothing that one step can do to a compressor unit breaks its invariant. -/
theorem Cmp.Inv.of_step {c c1 : Cmp} (h : c.Inv) (hstep : CmpStep c c1) : c1.Inv := by
  cases hstep with
  | keep => exact h
  | command hf =>
    cases hf with
    | cinit => exact Cmp.inv_init h.sound.configBits
    | store v => exact h.unlessFaulted fun hrun => h.store hrun v
    | flush => exact h.unlessFaulted h.flush
    | reserved => exact h.unlessFaulted fun _ => Cmp.inv_raise h.sound.configBits (.inl rfl)
  | config _ v => exact h.writeConfig v
  | reset => exact c.inv_hardReset

/-! ### The faults of a decompressor unit (R231) -/

/-- The causes a decompressor unit raises: every one but BufferOverflow. -/
def Cause.OfDec (why : Cause) : Prop :=
  1 ≤ (causeCode why).toNat ∧ (causeCode why).toNat ≤ 7

theorem Cause.ofDec_of_ne {why : Cause} (h : ∀ which, why ≠ .bufferOverflow which) : why.OfDec := by
  cases why with
  | bufferOverflow which => exact absurd rfl (h which)
  | corruptFlag _ | ringIndexOutOfRange _ | bitStreamExhausted _ | sideBufferExhausted _ _ | packedRecordInvalid _
  | leadingZerosUnset | illegalCommand _ => exact ⟨by simp, by simp⟩

theorem Cause.OfDec.of_error {α : Type} {why why' : Cause} (hwhy : why.OfDec)
    (h : (.error why : Except Cause α) = .error why') : why'.OfDec := by
  injection h with h
  exact h ▸ hwhy

theorem Dec.bsRead_ofDec {d : Dec} {n : Nat} {why : Cause} (h : d.bsRead n = .error why) : why.OfDec := by
  obtain ⟨-, rfl⟩ := Dec.bsRead_error h
  exact Cause.ofDec_of_ne (by simp)

theorem Dec.value_ofDec {d : Dec} {slot : Nat} {why : Cause} (h : d.value slot = .error why) : why.OfDec := by
  unfold Dec.value at h
  split at h
  · cases h
  · exact (Cause.ofDec_of_ne (by simp)).of_error h

theorem Dec.lzaNext_ofDec {d : Dec} {why : Cause} (h : d.lzaNext = .error why) : why.OfDec := by
  unfold Dec.lzaNext at h
  split at h
  · exact (Cause.ofDec_of_ne (by simp)).of_error h
  · cases h

theorem Dec.pdaNext_ofDec {d : Dec} {why : Cause} (h : d.pdaNext = .error why) : why.OfDec := by
  unfold Dec.pdaNext at h
  split at h
  · exact (Cause.ofDec_of_ne (by simp)).of_error h
  · cases h

theorem Dec.readIdent_ofDec {d : Dec} {why : Cause} (h : d.readIdent = .error why) : why.OfDec := by
  unfold Dec.readIdent at h
  split at h
  · rename_i hread
    exact (Dec.bsRead_ofDec hread).of_error h
  · split at h
    · rename_i hvalue
      exact (Dec.value_ofDec hvalue).of_error h
    · cases h

theorem Dec.readTrailField_ofDec {d : Dec} {i : BitVec 7} {lz sig : Nat} {why : Cause}
    (h : d.readTrailField i lz sig = .error why) : why.OfDec := by
  unfold Dec.readTrailField at h
  split at h
  · rename_i hread
    exact (Dec.bsRead_ofDec hread).of_error h
  · split at h
    · rename_i hvalue
      exact (Dec.value_ofDec hvalue).of_error h
    · cases h

theorem Dec.readTrail_ofDec {d : Dec} {why : Cause} (h : d.readTrail = .error why) : why.OfDec := by
  unfold Dec.readTrail at h
  split at h
  · rename_i hnext
    exact (Dec.pdaNext_ofDec hnext).of_error h
  · dsimp only at h
    split at h
    · exact Dec.readTrailField_ofDec h
    · exact (Cause.ofDec_of_ne (by simp)).of_error h

theorem Dec.readLz_ofDec {d : Dec} {lz : Nat} {why : Cause} (h : d.readLz lz = .error why) : why.OfDec := by
  unfold Dec.readLz at h
  split at h
  · rename_i hread
    exact (Dec.bsRead_ofDec hread).of_error h
  · cases h

theorem Dec.readLzeq_ofDec {d : Dec} {why : Cause} (h : d.readLzeq = .error why) : why.OfDec := by
  unfold Dec.readLzeq at h
  split at h
  · exact (Cause.ofDec_of_ne (by simp)).of_error h
  · exact Dec.readLz_ofDec h

theorem Dec.readLzload_ofDec {d : Dec} {why : Cause} (h : d.readLzload = .error why) : why.OfDec := by
  unfold Dec.readLzload at h
  split at h
  · rename_i hnext
    exact (Dec.lzaNext_ofDec hnext).of_error h
  · exact Dec.readLz_ofDec h

theorem Dec.readCoded_ofDec {d : Dec} {flag : BitVec 8} {why : Cause} (h : d.readCoded flag = .error why) :
    why.OfDec := by
  unfold Dec.readCoded at h
  split_ifs at h
  · exact Dec.readIdent_ofDec h
  · exact Dec.readTrail_ofDec h
  · exact Dec.readLzeq_ofDec h
  · exact Dec.readLzload_ofDec h
  · exact (Cause.ofDec_of_ne (by simp)).of_error h

/-! ### A decompressor unit -/

/-- The zero counters are legal (10_state.md R35). -/
structure Dec.LegalCounters (d : Dec) : Prop where
  lz : ∀ lz, d.curLz = some lz → ∃ sel, lz = bucket sel
  tz : ∀ tz, d.curTz = some tz → tz ≤ 63

theorem Dec.Sound.legalCounters {d : Dec} (h : d.Sound) : d.LegalCounters :=
  ⟨h.curLzLegal, h.curTzLegal⟩

/-- Every path leaves the zero counters legal: it keeps them or takes them from a selector and a checked record. -/
theorem Dec.LegalCounters.readCoded {d d1 : Dec} {flag : BitVec 8} {r : Word} (h : d.LegalCounters)
    (hread : d.readCoded flag = .ok (r, d1)) : d1.LegalCounters := by
  obtain ⟨-, hread⟩ | ⟨-, hread⟩ | ⟨-, hread⟩ | ⟨-, hread⟩ := Dec.readCoded_ok hread
  · obtain ⟨-, -, -, rfl⟩ := Dec.readIdent_ok hread
    exact ⟨h.lz, h.tz⟩
  · obtain ⟨i, sel, sig, -, -, hvalid, -, -, -, rfl⟩ := Dec.readTrail_ok hread
    refine ⟨fun lz hlz => ⟨sel, (Option.some.inj hlz).symm⟩, fun tz htz => ?_⟩
    obtain ⟨hsig, -⟩ := (recordValid_eq_true_iff sel sig).mp hvalid
    obtain rfl := Option.some.inj htz
    bv_omega
  · obtain ⟨lz, -, -, -, rfl⟩ := Dec.readLzeq_ok hread
    exact ⟨h.lz, h.tz⟩
  · obtain ⟨-, -, -, rfl⟩ := Dec.readLzload_ok hread
    exact ⟨fun lz hlz => ⟨_, (Option.some.inj hlz).symm⟩, h.tz⟩

/-- A path that a decompressor unit's commands take: it keeps what no path changes and the legality of the counters, and
raises only the unit's own causes. -/
structure IsPath (path : Dec → LoadResult) : Prop where
  same : ∀ {d d1 : Dec} {r : Word}, path d = .ok (r, d1) → d.SameBut d1
  legal : ∀ {d d1 : Dec} {r : Word}, path d = .ok (r, d1) → d.LegalCounters → d1.LegalCounters
  causes : ∀ {d : Dec} {why : Cause}, path d = .error why → why.OfDec

theorem isPath_readCoded (flag : BitVec 8) : IsPath fun d => d.readCoded flag where
  same := Dec.readCoded_same
  legal hread h := h.readCoded hread
  causes := Dec.readCoded_ofDec

theorem isPath_corrupt (flag : BitVec 8) : IsPath fun _ => .error (.corruptFlag flag) where
  same hread := by cases hread
  legal hread := by cases hread
  causes hread := (Cause.ofDec_of_ne (by simp)).of_error hread

theorem isPath_readFirst : IsPath Dec.readFirst where
  same := Dec.bsRead_same
  legal hread h := by
    obtain ⟨-, -, rfl⟩ := Dec.readFirst_ok hread
    exact ⟨h.lz, h.tz⟩
  causes := Dec.bsRead_ofDec

/-- Of a FRESH unit the invariant does not speak of the ring, `s.ref_value`, `s.result` and the sources of free values. -/
theorem Dec.Inv.with_values {d : Dec} (h : d.Inv) (hfresh : d.first = true) (ring : Ring) (refValue result : Word)
    (src memSrc : Config.Source) :
    Dec.Inv { d with ring := ring, refValue := refValue, result := result, src := src, memSrc := memSrc } :=
  ⟨{ h.sound with },
    fun hrun => { fresh := (h.stream hrun).fresh, active := fun hactive => by cases hfresh.symm.trans hactive }⟩

theorem Dec.inv_init {d : Dec} (hbs : Memory.wf d.bs) (hlza : Memory.wf d.lza) (hpda : Memory.wf d.pda) : d.init.Inv where
  sound :=
    { bsWf := hbs, lzaWf := hlza, pdaWf := hpda
      curLzLegal := fun lz hlz => by cases hlz
      curTzLegal := fun tz htz => by cases htz
      causeClear := fun _ => rfl
      causeCode := fun hfault => by cases hfault
      faultedNoResult := fun _ => rfl }
  stream _ := { fresh := fun _ => ⟨rfl, rfl, rfl, rfl, rfl⟩, active := fun hactive => by cases hactive }

theorem Dec.inv_hardReset (d : Dec) : d.hardReset.Inv :=
  Dec.inv_init Memory.wf_nil Memory.wf_nil Memory.wf_nil

/-- The unspecified zero counters of a FAULTED unit are still legal (R35, R240). -/
theorem Dec.legalCounters_raise (d : Dec) (why : Cause) : (d.raise why).LegalCounters where
  lz lz hlz := by
    rw [Dec.raise_curLz, Option.map_eq_some_iff] at hlz
    obtain ⟨sel, -, rfl⟩ := hlz
    exact ⟨sel, rfl⟩
  tz tz htz := by
    rw [Dec.raise_curTz, Option.map_eq_some_iff] at htz
    obtain ⟨count, -, rfl⟩ := htz
    exact Nat.le_of_lt_succ count.isLt

theorem Dec.Sound.raise {d : Dec} (h : d.Sound) {why : Cause} (hwhy : why.OfDec) : (d.raise why).Inv where
  sound :=
    { bsWf := h.bsWf, lzaWf := h.lzaWf, pdaWf := h.pdaWf
      curLzLegal := (d.legalCounters_raise why).lz
      curTzLegal := (d.legalCounters_raise why).tz
      causeClear := fun hrun => by cases hrun
      causeCode := fun _ => hwhy
      faultedNoResult := fun _ => rfl }
  stream hrun := by cases hrun

/-- The newest ring entry after the epilogue is the result (R209). -/
theorem Dec.get_finish_newest {d : Dec} (hfresh : d.first = true → d.size = 0) (r : Word) :
    Ring.get (d.finish r).ring (d.finish r).size = r := by
  have hslot : (d.finish r).size = if d.first then 0 else d.size + 1 := by
    rw [Dec.finish_eq]
    cases hfirst : d.first with
    | true => exact hfresh hfirst
    | false => rfl
  rw [hslot, Dec.finish_eq, Ring.get_put_self]

/-- The unit that a path left, with the 64 bits of the first value behind it, meets the invariant after the epilogue. -/
theorem Dec.Sound.finish {d d1 : Dec} (h : d.Sound) (hrun : d.fault = false) (hsame : d.SameBut d1)
    (hlegal : d1.LegalCounters) (hfresh : d.first = true → d.size = 0) (hbits : 64 ≤ d1.bsRpos) (r : Word) :
    (d1.finish r).Inv := by
  have hnewest := Dec.get_finish_newest (d := d1) (fun hfirst => by
    rw [hsame.size, hfresh (hsame.first ▸ hfirst)]) r
  have hrun1 : (d1.finish r).fault = false := by rw [Dec.finish_eq]; exact hsame.fault.trans hrun
  refine
    { sound :=
        { bsWf := ?bs
          lzaWf := ?lza
          pdaWf := ?pda
          curLzLegal := by rw [Dec.finish_eq]; exact hlegal.lz
          curTzLegal := by rw [Dec.finish_eq]; exact hlegal.tz
          causeClear := fun _ => ?cause
          causeCode := fun hfault => by rw [hrun1] at hfault; cases hfault
          faultedNoResult := fun hfault => by rw [hrun1] at hfault; cases hfault }
      stream := fun _ =>
        { fresh := fun hfirst => by rw [Dec.finish_eq] at hfirst; cases hfirst
          active := fun _ => ⟨?bits, ?valid, ?ref, ?newest⟩ } }
  case newest => rw [hnewest, Dec.finish_eq]
  all_goals rw [Dec.finish_eq]
  case bs => exact hsame.bs ▸ h.bsWf
  case lza => exact hsame.lza ▸ h.lzaWf
  case pda => exact hsame.pda ▸ h.pdaWf
  case cause => exact hsame.cause.trans (h.causeClear hrun)
  case bits => exact hbits

/-- A `LOAD`, by whatever path, keeps the invariant of a unit that is not FAULTED. -/
theorem Dec.Inv.loadWith {d : Dec} (h : d.Inv) (hrun : d.fault = false) {path : Dec → LoadResult} (hpath : IsPath path) :
    (d.loadWith path).Inv := by
  have hstream := h.stream hrun
  have hsound : Dec.Sound { d with resultValid := false } :=
    { h.sound with faultedNoResult := fun _ => rfl }
  have hsize (hfirst : d.first = true) : d.size = 0 := (hstream.fresh hfirst).1
  obtain ⟨why, hread, hload⟩ | ⟨r, d1, hread, hload⟩ := Dec.loadWith_cases path d <;> rw [hload]
  case inl =>
    refine h.sound.raise ?_
    split at hread
    · exact isPath_readFirst.causes hread
    · exact hpath.causes hread
  case inr =>
    split at hread
    · obtain ⟨-, -, rfl⟩ := Dec.readFirst_ok hread
      exact hsound.finish hrun (isPath_readFirst.same hread) (isPath_readFirst.legal hread hsound.legalCounters) hsize
        (Nat.le_add_left 64 _) r
    · rename_i hactive
      obtain ⟨hbits, -⟩ := hstream.active (Bool.eq_false_iff.mpr hactive)
      have hsame := hpath.same hread
      exact hsound.finish hrun hsame (hpath.legal hread hsound.legalCounters) hsize (hbits.trans hsame.bsRpos) r

theorem Dec.Inv.unlessFaulted {f : Dec → Dec} {d : Dec} (h : d.Inv) (hf : d.fault = false → (f d).Inv) :
    (Dec.unlessFaulted f d).Inv := by
  cases hfault : d.fault with
  | true => rwa [Dec.unlessFaulted_of_fault hfault]
  | false =>
    rw [Dec.unlessFaulted_of_run hfault]
    exact hf hfault

/-- A register write sets a length or a cursor, of which the invariant does not speak. -/
theorem Dec.Inv.writeReg {d d1 : Dec} {reg : BitVec 8} {v : Word} (h : d.Inv) (hwrite : d.writeReg reg v = some d1) :
    d1.Inv := by
  obtain rfl | rfl | rfl | rfl | rfl := Dec.writeReg_some hwrite
  all_goals exact ⟨{ h.sound with }, fun hrun => { h.stream hrun with }⟩

theorem Dec.Inv.writeSpace {d : Dec} (h : d.Inv) (sp : DecSpace) (addr : Nat) (v : BitVec 16) :
    (d.writeSpace sp addr v).Inv := by
  cases sp with
  | bs => exact ⟨{ h.sound with bsWf := Memory.wf_write h.sound.bsWf _ _ }, fun hrun => { h.stream hrun with }⟩
  | lza => exact ⟨{ h.sound with lzaWf := Memory.wf_write h.sound.lzaWf _ _ }, fun hrun => { h.stream hrun with }⟩
  | pda => exact ⟨{ h.sound with pdaWf := Memory.wf_write h.sound.pdaWf _ _ }, fun hrun => { h.stream hrun with }⟩

/-- Nothing that one step can do to a decompressor unit breaks its invariant. -/
theorem Dec.Inv.of_step {d d1 : Dec} (h : d.Inv) (hstep : DecStep d d1) : d1.Inv := by
  cases hstep with
  | keep => exact h
  | command hf =>
    cases hf with
    | dinit => exact Dec.inv_init h.sound.bsWf h.sound.lzaWf h.sound.pdaWf
    | load flag => exact h.unlessFaulted fun hrun => h.loadWith hrun (isPath_readCoded flag)
    | corrupt flag => exact h.unlessFaulted fun hrun => h.loadWith hrun (isPath_corrupt flag)
    | reserved => exact h.unlessFaulted fun _ => h.sound.raise (Cause.ofDec_of_ne (by simp))
  | register hwrite => exact h.writeReg hwrite
  | memory _ sp addr v => exact h.writeSpace sp addr v
  | reset => exact d.inv_hardReset

/-! ### The block -/

/-- A property of every unit that one step cannot break in a unit holds of every unit after the step. -/
theorem forall_of_forall₂ {α : Type} {R : α → α → Prop} {P : α → Prop} (hkeep : ∀ a b, P a → R a b → P b)
    {l l' : List α} (h : List.Forall₂ R l l') (hall : ∀ a ∈ l, P a) : ∀ b ∈ l', P b := by
  induction h with
  | nil => exact hall
  | cons hab _ ih =>
    obtain ⟨ha, hrest⟩ := List.forall_mem_cons.mp hall
    exact List.forall_mem_cons.mpr ⟨hkeep _ _ ha hab, ih hrest⟩

/-- Settles O56: no step breaks the invariant of any unit. -/
theorem stepKeepsInvariant : Obligations.StepKeepsInvariant := by
  unfold Obligations.StepKeepsInvariant
  intro s t hinv hstep
  obtain ⟨hcmps, hdecs⟩ := step_units hstep
  exact ⟨forall_of_forall₂ (fun _ _ hc => hc.of_step) hcmps hinv.cmps,
    forall_of_forall₂ (fun _ _ hd => hd.of_step) hdecs hinv.decs⟩

/-- Settles O55: the units of the reset state are reset units, up to what R47 leaves unspecified. -/
theorem resetMeetsInvariant : Obligations.ResetMeetsInvariant := by
  unfold Obligations.ResetMeetsInvariant
  refine ⟨fun c hc => ?cmp, fun d hd => ?dec⟩
  case cmp =>
    rw [mem_reset_cmps.mp hc, Cmp.initial_eq_hardReset]
    exact (Cmp.inv_hardReset _).with_ring _ _
  case dec =>
    rw [mem_reset_decs.mp hd, Dec.initial_eq_hardReset]
    exact (Dec.inv_hardReset _).with_values rfl _ _ _ _ _

end Sys2Proof.Machine
end

/-! ## What a unit holds after its stream so far (10_state.md R48; O57, O58)

Both statements are an induction on the run, one command at its end. That the Bit Stream is as long as the flags and the
side entries say (`Cmp.BitsAccounted`) is stated with any continuation of the stream, so that one more record is one more
entry at the front of the continuation and the lists written so far are never taken apart. -/

section
namespace Sys2Proof.Machine

/-! ### The slots of the newest entries (R121) -/

/-- An insertion in an ACTIVE unit leaves the 127 entries before it. -/
theorem Ring.get_put_older (r : Ring) {size j : Nat} (hj : j < 127) (hle : j ≤ size) (v : Word) :
    Ring.get (Ring.put r (size + 1) v) (size + 1 - (j + 1)) = Ring.get r (size - j) := by
  rw [Nat.add_sub_add_right, Ring.get_put, if_neg (by omega)]

/-! ### The stream as the host sees it, one record longer -/

@[simp] theorem Cmp.commit_src (c : Cmp) (v : Word) (e : Emission) : (c.commit v e).src = c.src := by rw [Cmp.commit_eq]

/-- Outside FAULTED and measurement mode the host sees what the unit wrote. -/
theorem hostView_of_real {w : Nat} {c : Cmp} (hrun : c.fault = false) (hreal : c.measure = false) (e : Config.Element)
    (m : Memory w) (a : Nat) : hostView c e m a = (m.read a).getD (Config.unspecified w c.src e a) := by
  simp [hostView, hrun, hreal]

/-- An append adds its element to the end of a region as the host sees it. -/
theorem map_hostView_appendOpt {w : Nat} {c c' : Cmp} (hrun : c.fault = false) (hreal : c.measure = false)
    (hrun' : c'.fault = false) (hreal' : c'.measure = false) (hsrc : c'.src = c.src) (el : Config.Element) (m : Memory w)
    (n : Nat) (e : Option (BitVec w)) :
    (List.range (countOpt n e)).map (hostView c' el (Memory.appendOpt false m n e)) =
      (List.range n).map (hostView c el m) ++ e.toList := by
  cases e with
  | none =>
    rw [Option.toList_none, List.append_nil]
    refine List.map_congr_left fun a _ => ?_
    rw [hostView_of_real hrun' hreal', hostView_of_real hrun hreal, hsrc]
    rfl
  | some x =>
    rw [countOpt, List.range_succ, List.map_append, List.map_singleton, hostView_of_real hrun' hreal',
      Memory.read_appendOpt_some, Option.getD_some, Option.toList_some]
    congr 1
    refine List.map_congr_left fun a ha => ?_
    have hne : a ≠ n := (List.mem_range.mp ha).ne
    rw [hostView_of_real hrun' hreal', hostView_of_real hrun hreal, hsrc, Memory.appendOpt, if_neg Bool.false_ne_true,
      Memory.read_write_other m hne]

/-- The lists of a stream after a record. -/
theorem Cmp.stream_commit {c : Cmp} (hrun : c.fault = false) (hreal : c.measure = false) (v : Word) (e : Emission) :
    (c.commit v e).stream.flags = c.stream.flags ++ e.flag.toList ∧
    (c.commit v e).stream.sels = c.stream.sels ++ e.sel.toList ∧
    (c.commit v e).stream.records = c.stream.records ++ e.packed.toList := by
  have hrun' : (c.commit v e).fault = false := by rw [Cmp.commit_fault, hrun]
  have hreal' : (c.commit v e).measure = false := by rw [Cmp.commit_measure, hreal]
  simp only [Cmp.stream, Cmp.commit_fb, Cmp.commit_fbCount, Cmp.commit_lzb, Cmp.commit_lzbCount, Cmp.commit_pdb,
    Cmp.commit_pdbCount, hreal]
  exact ⟨map_hostView_appendOpt hrun hreal hrun' hreal' (c.commit_src v e) _ _ _ _,
    map_hostView_appendOpt hrun hreal hrun' hreal' (c.commit_src v e) _ _ _ _,
    map_hostView_appendOpt hrun hreal hrun' hreal' (c.commit_src v e) _ _ _ _⟩

/-! ### The widths of the fields written so far (30_encoding.md R103; 42_compressor.md R184) -/

/-- The bound `lz` is that of `s.prev_lz` where it is set. -/
def BoundOf (prevLz : Option (BitVec 3)) (lz : Nat) : Prop :=
  ∀ sel, prevLz = some sel → lz = bucket sel

theorem boundOf_none (lz : Nat) : BoundOf none lz := fun _ hsel => by cases hsel

theorem boundOf_some (sel : BitVec 3) : BoundOf (some sel) (bucket sel) := fun _ hsel => by rw [Option.some.inj hsel]

/-- One record stands for as many bits as its field is wide, and leaves a bound in force that is its `s.prev_lz`'s. -/
theorem Cmp.fieldBits_emission {c : Cmp} (hactive : c.first = false) (v : Word) {lz : Nat} (hlz : BoundOf c.prevLz lz) :
    ∃ lz', BoundOf (c.emission v).prevLz lz' ∧ ∀ flags sels records,
      fieldBits c.params.layout ((c.emission v).flag.toList ++ flags) ((c.emission v).sel.toList ++ sels)
          ((c.emission v).packed.toList ++ records) lz =
        (c.emission v).width + fieldBits c.params.layout flags sels records lz' := by
  obtain ⟨hfirst, -⟩ | ⟨-, -, he⟩ | ⟨-, hpath, he⟩ | ⟨-, hpath, he⟩ | ⟨-, -, he⟩ := c.emission_cases v
  case inl => cases hactive.symm.trans hfirst
  all_goals rw [he]
  case inr.inl => exact ⟨lz, boundOf_none lz, fun flags sels records => by simp [emitIdent, flagOf, fieldBits]⟩
  case inr.inr.inl =>
    obtain ⟨-, hsig, -⟩ := Cmp.packed_fields_of_trail hpath
    refine ⟨bucket (bucketSel (clz64 (c.xorResult v))), boundOf_none _, fun flags sels records => ?_⟩
    simp [emitTrail, flagOf, fieldBits, unpackRecord_packRecord, hsig]
  case inr.inr.inr.inl =>
    obtain ⟨-, -, hprev⟩ := Cmp.storePath_lzeq hpath
    refine ⟨lz, hlz, fun flags sels records => ?_⟩
    simp [emitLzeq, flagOf, fieldBits, hlz _ hprev]
  case inr.inr.inr.inr =>
    exact ⟨bucket (bucketSel (clz64 (c.xorResult v))), boundOf_some _, fun flags sels records => by
      simp [emitLzload, flagOf, fieldBits]⟩

/-- The Bit Stream is as long as the first value and the fields of the flags so far, whatever follows them. -/
def Cmp.BitsAccounted (c : Cmp) : Prop :=
  ∃ lz, BoundOf c.prevLz lz ∧ ∀ flags sels records,
    64 + fieldBits c.params.layout (c.stream.flags ++ flags) (c.stream.sels ++ sels) (c.stream.records ++ records) 0 =
      c.bsWpos + fieldBits c.params.layout flags sels records lz

/-- After the first value the Bit Stream is that value. -/
theorem Cmp.bitsAccounted_first {c : Cmp} (hrun : c.fault = false) (hreal : c.measure = false) (hcounts : c.StreamCounts)
    (hfirst : c.first = true) (v : Word) : (c.commit v (c.emission v)).BitsAccounted := by
  obtain ⟨-, hflags, hbits, -⟩ := hcounts.freshSize hfirst
  have hsides := hcounts.sides
  have hsels : c.lzbCount = 0 := by omega
  have hrecords : c.pdbCount = 0 := by omega
  obtain ⟨hf, hs, hr⟩ := Cmp.stream_commit hrun hreal v (c.emission v)
  obtain ⟨-, -, -, hprev⟩ := hcounts.freshSize hfirst
  rw [Cmp.emission_of_first hfirst] at hf hs hr ⊢
  refine ⟨0, ?bound, fun flags sels records => ?bits⟩
  case bound =>
    rw [Cmp.commit_prevLz, Cmp.emitFirst, hprev]
    exact boundOf_none 0
  case bits =>
    rw [hf, hs, hr, Cmp.commit_params, Cmp.commit_bsWpos, hbits]
    simp [Cmp.stream, Cmp.emitFirst, hflags, hsels, hrecords]

/-- One more record accounts for the bits of its field. -/
theorem Cmp.BitsAccounted.commit {c : Cmp} (h : c.BitsAccounted) (hrun : c.fault = false) (hreal : c.measure = false)
    (hactive : c.first = false) (v : Word) : (c.commit v (c.emission v)).BitsAccounted := by
  obtain ⟨lz, hlz, hbits⟩ := h
  obtain ⟨lz', hlz', hrecord⟩ := Cmp.fieldBits_emission hactive v hlz
  obtain ⟨hf, hs, hr⟩ := Cmp.stream_commit hrun hreal v (c.emission v)
  refine ⟨lz', by rwa [Cmp.commit_prevLz], fun flags sels records => ?_⟩
  rw [hf, hs, hr, Cmp.commit_params, Cmp.commit_bsWpos, List.append_assoc, List.append_assoc, List.append_assoc, hbits,
    hrecord, Nat.add_assoc]

/-! ### A run of `STORE`s (O57) -/

/-- What a compressor unit holds that is not FAULTED after the values `vs`. -/
structure Cmp.Stored (c : Cmp) (vs : List Word) : Prop where
  runs : c.fault = false
  unflushed : c.flushed = false
  counts : c.StreamCounts
  contents : c.measure = false → c.StreamContents
  first : c.first = true ↔ vs = []
  size : vs ≠ [] → c.size + 1 = vs.length
  slots : ∀ j w, j ≤ 127 → vs.reverse[j]? = some w → Ring.get c.ring (c.size - j) = w
  prevLz : vs.length ≤ 1 → c.prevLz = none
  bits : c.measure = false → vs ≠ [] → c.BitsAccounted

theorem Cmp.stored_init (c : Cmp) : c.init.Stored [] where
  runs := rfl
  unflushed := rfl
  counts := c.streamCounts_init
  contents _ := c.streamContents_init
  first := by simp
  size hne := absurd rfl hne
  slots j w _ hw := by simp at hw
  prevLz _ := rfl
  bits _ hne := absurd rfl hne

/-- A record committed is one more value. -/
theorem Cmp.Stored.commit {c : Cmp} {vs : List Word} (h : c.Stored vs) {v : Word}
    (hroom : c.overflow (c.emission v) = none) : (c.commit v (c.emission v)).Stored (vs ++ [v]) := by
  have hrecord := c.emission_consistent v
  have hfresh (hfirst : c.first = true) : c.size = 0 := (h.counts.freshSize hfirst).1
  refine
    { runs := by rw [Cmp.commit_fault, h.runs]
      unflushed := by rw [Cmp.commit_flushed, h.unflushed]
      counts := h.counts.commit h.unflushed v
      contents := fun hreal => ?contents
      first := by rw [Cmp.commit_first]; simp
      size := fun _ => ?size
      slots := fun j w hj hw => ?slots
      prevLz := fun hlen => ?prevLz
      bits := fun hreal _ => ?bits }
  case contents =>
    rw [Cmp.commit_measure] at hreal
    exact (h.contents hreal).commit h.counts hreal hroom
  case size =>
    rw [Cmp.commit_size, List.length_append, List.length_singleton]
    cases hfirst : c.first with
    | true =>
      rw [h.first.mp hfirst, if_pos rfl, hfresh hfirst]
      rfl
    | false =>
      have hne : vs ≠ [] := fun hnil => by cases hfirst.symm.trans (h.first.mpr hnil)
      rw [if_neg Bool.false_ne_true, h.size hne]
  case slots =>
    rw [List.reverse_append, List.reverse_singleton, List.singleton_append] at hw
    cases j with
    | zero =>
      obtain rfl : v = w := by simpa using hw
      exact Cmp.get_commit_newest hfresh v _
    | succ j =>
      rw [List.getElem?_cons_succ] at hw
      have hlt : j < vs.length := by simpa using (List.getElem?_eq_some_iff.mp hw).1
      have hne : vs ≠ [] := List.ne_nil_of_length_pos (Nat.zero_lt_of_lt hlt)
      have hactive : c.first = false := Bool.eq_false_iff.mpr fun hfirst => hne (h.first.mp hfirst)
      have hsize := h.size hne
      rw [Cmp.commit_ring, Cmp.commit_size, hactive, if_neg Bool.false_ne_true, if_neg Bool.false_ne_true,
        Ring.get_put_older c.ring (by omega) (by omega)]
      exact h.slots j w (by omega) hw
  case prevLz =>
    have hnil : vs = [] := by simpa using hlen
    have hfirst := h.first.mpr hnil
    obtain ⟨-, -, -, hprev⟩ := h.counts.freshSize hfirst
    rw [Cmp.commit_prevLz, (hrecord.firstRecord hfirst).2, hprev]
  case bits =>
    rw [Cmp.commit_measure] at hreal
    cases hfirst : c.first with
    | true => exact Cmp.bitsAccounted_first h.runs hreal h.counts hfirst v
    | false =>
      have hne : vs ≠ [] := fun hnil => by cases hfirst.symm.trans (h.first.mpr hnil)
      exact (h.bits hreal hne).commit h.runs hreal hfirst v

/-- A unit that is not FAULTED after a command other than an initialisation was not FAULTED before it. -/
theorem Cmp.fault_of_unlessFaulted {f : Cmp → Cmp} {c : Cmp} (h : (Cmp.unlessFaulted f c).fault = false) :
    c.fault = false := by
  cases hfault : c.fault with
  | true => rw [Cmp.unlessFaulted_of_fault hfault, hfault] at h; cases h
  | false => rfl

/-- `CINIT` and a run of `STORE`s that did not fault. -/
theorem Cmp.stored_storeAll (c : Cmp) (vs : List Word) (h : (c.init.storeAll vs).fault = false) :
    (c.init.storeAll vs).Stored vs := by
  induction vs using List.reverseRecOn with
  | nil => exact c.stored_init
  | append_singleton vs v ih =>
    rw [Cmp.storeAll_append, Cmp.storeAll_cons, Cmp.storeAll_nil] at h ⊢
    have hrun := Cmp.fault_of_unlessFaulted h
    rw [Cmp.unlessFaulted_of_run hrun] at h ⊢
    obtain ⟨-, hroom, hcommit⟩ := Cmp.store_eq_commit h
    rw [hcommit]
    exact (ih hrun).commit ((Cmp.overflow_eq_none_iff _ _).mpr hroom)

/-- Settles O57: each clause is one of `Cmp.Stored`'s. -/
theorem compressorStateAfterStores : Obligations.CompressorStateAfterStores := by
  unfold Obligations.CompressorStateAfterStores
  intro s t c c1 vs hat hexec hat1 hrun
  obtain rfl : s.setCmp (c.init.storeAll vs) = t := by
    rw [execAll_cinit_stores hat] at hexec
    injection hexec
  obtain rfl : c.init.storeAll vs = c1 := Option.some.inj ((hat.setCmp _).symm.trans hat1)
  have h := c.stored_storeAll vs hrun
  have hactive (hne : vs ≠ []) : (c.init.storeAll vs).first = false :=
    Bool.eq_false_iff.mpr fun hfirst => hne (h.first.mp hfirst)
  refine ⟨h.first, fun hne => ⟨h.size hne, ?flags⟩, h.slots, h.prevLz, fun hnil => ?empty, fun hreal => ?real⟩
  case flags => rw [← (h.counts.activeSize (hactive hne)).1, h.size hne]
  case empty =>
    obtain ⟨-, -, hbits, -⟩ := h.counts.freshSize (h.first.mpr hnil)
    exact hbits
  case real =>
    have hcontents := h.contents hreal
    refine ⟨hcontents.lzbTally, hcontents.pdbTally, hcontents.prevSet, fun hne => ?_⟩
    obtain ⟨lz, -, hbits⟩ := h.bits hreal hne
    simpa [fieldBits] using (hbits [] [] []).symm

/-! ### A run of `LOAD`s (O58) -/

/-- A unit that is not FAULTED after a `LOAD` was not FAULTED before it, and has inserted the result (R202, R209). -/
theorem Dec.load_of_run {d : Dec} {flag : BitVec 8} (h : (d.load flag).fault = false) :
    d.fault = false ∧ (d.load flag).first = false ∧ (d.load flag).resultValid = true ∧
      (d.load flag).size = (if d.first then d.size else d.size + 1) ∧
      (d.load flag).ring = Ring.put d.ring (if d.first then 0 else d.size + 1) (d.load flag).result := by
  cases hfault : d.fault with
  | true =>
    rw [Dec.load, Dec.unlessFaulted_of_fault hfault, hfault] at h
    cases h
  | false =>
    rw [Dec.load, Dec.unlessFaulted_of_run hfault] at h ⊢
    obtain ⟨why, hload⟩ | ⟨r, d1, hsame, hload⟩ := Dec.loadWith_same (fun _ _ _ => Dec.readCoded_same) d
    · rw [hload, Dec.raise_fault] at h
      cases h
    · rw [hload, Dec.finish_eq, hsame.first, hsame.size, hsame.ring]
      exact ⟨rfl, rfl, rfl, rfl, rfl⟩

/-- What a decompressor unit holds that has decoded `flags` since `start`: the result of each of the newest 128 `LOAD`s,
that unit's own last result after it, is in its slot. -/
structure Dec.Loaded (start : Dec) (flags : List (BitVec 8)) : Prop where
  first : (start.loadAll flags).first = true ↔ flags = []
  size : (start.loadAll flags).size = flags.length - 1
  slots : ∀ j, j ≤ 127 → j < flags.length →
    (start.loadAll (flags.take (flags.length - j))).fault = false ∧
    (start.loadAll (flags.take (flags.length - j))).resultValid = true ∧
    Ring.get (start.loadAll flags).ring ((start.loadAll flags).size - j) =
      (start.loadAll (flags.take (flags.length - j))).result

/-- Where one more `LOAD` puts its result, and what `s.size` it leaves. -/
theorem Dec.Loaded.load_slot {start : Dec} {flags : List (BitVec 8)} (h : start.Loaded flags) {flag : BitVec 8}
    (hrun : ((start.loadAll flags).load flag).fault = false) :
    ((start.loadAll flags).load flag).size = flags.length ∧
      ((start.loadAll flags).load flag).ring =
        Ring.put (start.loadAll flags).ring flags.length ((start.loadAll flags).load flag).result := by
  obtain ⟨-, -, -, hsize, hring⟩ := Dec.load_of_run hrun
  have hcount := h.size
  cases hfirst : (start.loadAll flags).first with
  | true =>
    have hlen : flags.length = 0 := by rw [h.first.mp hfirst, List.length_nil]
    rw [hfirst, if_pos rfl] at hsize hring
    rw [hlen]
    exact ⟨by omega, hring⟩
  | false =>
    have hne : flags ≠ [] := fun hnil => by cases hfirst.symm.trans (h.first.mpr hnil)
    have hlen : flags.length = (start.loadAll flags).size + 1 := by
      have hpos := List.length_pos_iff.mpr hne
      omega
    rw [hfirst, if_neg Bool.false_ne_true] at hsize hring
    rw [hlen]
    exact ⟨hsize, hring⟩

/-- One more `LOAD`. -/
theorem Dec.Loaded.append {start : Dec} {flags : List (BitVec 8)} (h : start.Loaded flags) {flag : BitVec 8}
    (hrun : ((start.loadAll flags).load flag).fault = false) : start.Loaded (flags ++ [flag]) := by
  have hlast : start.loadAll (flags ++ [flag]) = (start.loadAll flags).load flag := by
    rw [Dec.loadAll_append, Dec.loadAll_cons, Dec.loadAll_nil]
  obtain ⟨-, hfirst, hvalid, -⟩ := Dec.load_of_run hrun
  obtain ⟨hsize, hring⟩ := h.load_slot hrun
  refine
    { first := by rw [hlast, hfirst]; simp
      size := by rw [hlast, hsize]; simp
      slots := fun j hj hlt => ?slots }
  rw [List.length_append, List.length_singleton] at hlt ⊢
  rw [hlast, hsize, hring]
  cases j with
  | zero =>
    have hall : (flags ++ [flag]).take (flags.length + 1 - 0) = flags ++ [flag] := List.take_of_length_le (by simp)
    rw [hall, hlast]
    exact ⟨hrun, hvalid, Ring.get_put_self _ _ _⟩
  | succ j =>
    have htake : (flags ++ [flag]).take (flags.length + 1 - (j + 1)) = flags.take (flags.length - j) := by
      rw [Nat.add_sub_add_right, List.take_append_of_le_length (Nat.sub_le _ _)]
    obtain ⟨hfault, hresult, hslot⟩ := h.slots j (by omega) (by omega)
    have hcount := h.size
    have hlen : flags.length = (start.loadAll flags).size + 1 := by omega
    rw [htake]
    refine ⟨hfault, hresult, ?_⟩
    rw [← hslot, hlen, Ring.get_put_older _ (by omega) (by omega)]

/-- `DINIT` and a run of `LOAD`s that did not fault. -/
theorem Dec.loaded_loadAll (d : Dec) (flags : List (BitVec 8)) (h : (d.init.loadAll flags).fault = false) :
    d.init.Loaded flags := by
  induction flags using List.reverseRecOn with
  | nil => exact ⟨by simp, rfl, fun j _ hlt => absurd hlt (Nat.not_lt_zero j)⟩
  | append_singleton flags flag ih =>
    rw [Dec.loadAll_append, Dec.loadAll_cons, Dec.loadAll_nil] at h
    exact (ih (Dec.load_of_run h).1).append h

/-- Settles O58: the state the statement asks for is the one after the first commands of the run. -/
theorem decompressorStateAfterLoads : Obligations.DecompressorStateAfterLoads := by
  unfold Obligations.DecompressorStateAfterLoads
  intro s t d d1 flags hat hexec hat1 hrun
  obtain rfl : s.setDec (d.init.loadAll flags) = t := by
    rw [execAll_dinit_loads hat] at hexec
    injection hexec
  obtain rfl : d.init.loadAll flags = d1 := Option.some.inj ((hat.setDec _).symm.trans hat1)
  have h := d.loaded_loadAll flags hrun
  refine ⟨h.first, fun hne => ?size, fun j hj hlt => ?slots⟩
  case size => rw [h.size, Nat.sub_add_cancel (List.length_pos_iff.mpr hne)]
  case slots =>
    obtain ⟨hfault, hvalid, hslot⟩ := h.slots j hj hlt
    exact ⟨_, _, execAll_dinit_loads hat _, hat.setDec _, hfault, hvalid, hslot⟩

end Sys2Proof.Machine
end

/-! ## The host's registers, regions and memories (10_state.md R41 to R43; 20_memory.md R60, R76; O47 to O50)

A register access is one lookup in the unit's table of registers (`hostAccess_readReg_cmp` and its like); what is left for
each register is the table's row. -/

section
namespace Sys2Proof.Machine

/-! ### Register accesses (R43) -/

section
variable {s : State} {c : Cmp} {d : Dec} {reg : BitVec 8} {v : Word}

theorem hostAccess_readReg_cmp (hat : AtCmp s c) (hreg : isCmpReg reg = true) (h : c.readReg reg = some v) (k : Nat) :
    hostAccess (.readReg k reg) s = .next { s with hostData := v } := by
  simp only [hostAccess, hostReadReg, hreg, if_true, hat, h, Option.getD_some]

theorem hostAccess_readReg_dec (hat : AtDec s d) (hcmp : isCmpReg reg = false) (hreg : isDecReg reg = true)
    (h : d.readReg reg = some v) (k : Nat) : hostAccess (.readReg k reg) s = .next { s with hostData := v } := by
  simp only [hostAccess, hostReadReg, hcmp, Bool.false_eq_true, if_false, hreg, if_true, hat, h, Option.getD_some]

theorem hostAccess_writeReg_cmp (hat : AtCmp s c) (hreg : isCmpReg reg = true) {c1 : Cmp} (h : c.writeReg reg v = some c1)
    (k : Nat) : hostAccess (.writeReg k reg v) s = .next (s.setCmp c1) := by
  simp only [hostAccess, hostWriteReg, hreg, if_true, hat, h]

theorem hostAccess_writeReg_cmp_refused (hat : AtCmp s c) (hreg : isCmpReg reg = true) (h : c.writeReg reg v = none)
    (k : Nat) : hostAccess (.writeReg k reg v) s = .refused .readOnlyRegister := by
  simp only [hostAccess, hostWriteReg, hreg, if_true, hat, h]

theorem hostAccess_writeReg_dec (hat : AtDec s d) (hcmp : isCmpReg reg = false) (hreg : isDecReg reg = true) {d1 : Dec}
    (h : d.writeReg reg v = some d1) (k : Nat) : hostAccess (.writeReg k reg v) s = .next (s.setDec d1) := by
  simp only [hostAccess, hostWriteReg, hcmp, Bool.false_eq_true, if_false, hreg, if_true, hat, h]

theorem hostAccess_writeReg_dec_refused (hat : AtDec s d) (hcmp : isCmpReg reg = false) (hreg : isDecReg reg = true)
    (h : d.writeReg reg v = none) (k : Nat) : hostAccess (.writeReg k reg v) s = .refused .readOnlyRegister := by
  simp only [hostAccess, hostWriteReg, hcmp, Bool.false_eq_true, if_false, hreg, if_true, hat, h]

end

theorem isCmpReg_of_lt {reg : BitVec 8} (h : reg.toNat < 0x08) : isCmpReg reg = true :=
  decide_eq_true h

theorem isCmpReg_of_ge {reg : BitVec 8} (h : 0x10 ≤ reg.toNat) : isCmpReg reg = false :=
  decide_eq_false (by omega)

theorem isDecReg_of_range {reg : BitVec 8} (h : 0x10 ≤ reg.toNat) (h' : reg.toNat < 0x1A) : isDecReg reg = true := by
  rw [isDecReg, decide_eq_true h, decide_eq_true h', Bool.and_true]

@[simp] theorem registerOr_false (src : Config.Source) (reg : Nat) (v : Word) : registerOr false src reg v = v := rfl

/-! ### The registers of a compressor unit (R41) -/

/-- `C_STATUS` in a unit that is not FAULTED. -/
theorem cmpStatus_of_run {c : Cmp} (hrun : c.fault = false) :
    (cmpStatus c).setWidth 64 =
      (BitVec.ofBool c.measure ++ (0 : BitVec 1) ++ BitVec.ofBool c.flushed ++ BitVec.ofBool c.first).setWidth 64 := by
  simp only [cmpStatus, statusBit, hrun, Bool.false_eq_true, if_false]
  cases c.measure <;> cases c.flushed <;> cases c.first <;> rfl

/-- The layout of `C_STATUS`, whatever the three bits that may be unspecified are. -/
theorem cmpStatus_layout : ∀ (measure flushed first : BitVec 1) (fault : Bool),
    (((0 : BitVec 4) ++ measure ++ BitVec.ofBool fault ++ flushed ++ first).setWidth 64).getLsbD 2 = fault ∧
      (((0 : BitVec 4) ++ measure ++ BitVec.ofBool fault ++ flushed ++ first).setWidth 64).toNat < 2 ^ 4 := by
  decide

/-- A word below a power of two has no bit from there on. -/
theorem getLsbD_of_toNat_lt {v : Word} {n i : Nat} (h : v.toNat < 2 ^ n) (hi : n ≤ i) : v.getLsbD i = false :=
  Nat.testBit_lt_two_pow (h.trans_le (Nat.pow_le_pow_right Nat.two_pos hi))

/-- `FAULT` and the zero bits of `C_STATUS` read true in every condition. -/
theorem cmpStatus_bits (c : Cmp) :
    ((cmpStatus c).setWidth 64).getLsbD 2 = c.fault ∧ ∀ i, 4 ≤ i → ((cmpStatus c).setWidth 64).getLsbD i = false := by
  obtain ⟨hfault, hlt⟩ := cmpStatus_layout (statusBit c.fault c.src 3 c.measure) (statusBit c.fault c.src 1 c.flushed)
    (statusBit c.fault c.src 0 c.first) c.fault
  exact ⟨hfault, fun i => getLsbD_of_toNat_lt hlt⟩

/-- `C_CONFIG` is the only register that a host write changes. -/
theorem Cmp.writeReg_of_ne {reg : BitVec 8} (h : reg ≠ 0x02) (c : Cmp) (v : Word) : c.writeReg reg v = none :=
  if_neg h

/-- A write of `C_CONFIG` sets bit 0 alone. -/
theorem Cmp.writeConfig_eq (c : Cmp) (v : Word) :
    c.writeConfig v = { c with config := if v.getLsbD 0 = true then 1 else 0 } := by
  have hbit : v.setWidth 8 &&& 1 = if v.getLsbD 0 = true then 1 else 0 := by
    have hzero : (v.setWidth 8).getLsbD 0 = v.getLsbD 0 := by simp
    have hlow : v.setWidth 8 &&& 1 = BitVec.setWidth 8 (BitVec.ofBool ((v.setWidth 8).getLsbD 0)) :=
      BitVec.and_one_eq_setWidth_ofBool_getLsbD
    rw [hlow, hzero]
    cases v.getLsbD 0 <;> rfl
  rw [Cmp.writeConfig, hbit]

/-- Settles O47: the rows of the table of registers. -/
theorem compressorRegisters : Obligations.CompressorRegisters := by
  unfold Obligations.CompressorRegisters
  intro s c k hat
  refine ⟨fun hrun => ⟨?status, ?size, ?bsWpos, ?fbCount, ?lzbCount, ?pdbCount⟩, fun _ reg hreg => ?faulted,
    ⟨_, hostAccess_readReg_cmp hat rfl rfl k, cmpStatus_bits c⟩, hostAccess_readReg_cmp hat rfl rfl k,
    hostAccess_readReg_cmp hat rfl rfl k, fun v => ?config, fun reg v t hlt hwrite => ?readOnly⟩
  case status => rw [← cmpStatus_of_run hrun]; exact hostAccess_readReg_cmp hat rfl rfl k
  case size | bsWpos | fbCount | lzbCount | pdbCount =>
    exact hostAccess_readReg_cmp hat rfl (by simp [Cmp.readReg, hrun]) k
  case faulted => fin_cases hreg <;> exact ⟨_, hostAccess_readReg_cmp hat rfl rfl k⟩
  case config =>
    rw [← Cmp.writeConfig_eq]
    exact hostAccess_writeReg_cmp hat rfl rfl k
  case readOnly =>
    by_contra hne
    rw [hostAccess_writeReg_cmp_refused hat (isCmpReg_of_lt hlt) (Cmp.writeReg_of_ne hne c v)] at hwrite
    cases hwrite

/-! ### The registers of a decompressor unit (R42) -/

/-- `D_STATUS` in a unit that is not FAULTED. -/
theorem decStatus_of_run {d : Dec} (hrun : d.fault = false) :
    (decStatus d).setWidth 64 =
      (BitVec.ofBool d.resultValid ++ (0 : BitVec 3) ++ BitVec.ofBool d.first).setWidth 64 := by
  simp only [decStatus, statusBit, hrun, Bool.false_eq_true, if_false]
  cases d.resultValid <;> cases d.first <;> rfl

/-- The layout of `D_STATUS`, whatever the bit that may be unspecified is. -/
theorem decStatus_layout : ∀ (first : BitVec 1) (valid fault : Bool),
    let status := ((0 : BitVec 3) ++ BitVec.ofBool valid ++ (0 : BitVec 1) ++ BitVec.ofBool fault ++ (0 : BitVec 1)
      ++ first).setWidth 64
    status.getLsbD 2 = fault ∧ status.getLsbD 4 = valid ∧ status.getLsbD 1 = false ∧ status.getLsbD 3 = false ∧
      status.toNat < 2 ^ 5 := by
  decide

/-- `FAULT`, `RESULT_VALID` and the zero bits of `D_STATUS` read true in every condition. -/
theorem decStatus_bits (d : Dec) :
    ((decStatus d).setWidth 64).getLsbD 2 = d.fault ∧ ((decStatus d).setWidth 64).getLsbD 4 = d.resultValid ∧
      ((decStatus d).setWidth 64).getLsbD 1 = false ∧ ((decStatus d).setWidth 64).getLsbD 3 = false ∧
      ∀ i, 5 ≤ i → ((decStatus d).setWidth 64).getLsbD i = false := by
  obtain ⟨hfault, hvalid, hone, hthree, hlt⟩ :=
    decStatus_layout (statusBit d.fault d.src 0 d.first) d.resultValid d.fault
  exact ⟨hfault, hvalid, hone, hthree, fun i => getLsbD_of_toNat_lt hlt⟩

/-- A decompressor unit's register below 0x15 is read-only. -/
theorem Dec.writeReg_of_lt {reg : BitVec 8} (h : reg.toNat < 0x15) (d : Dec) (v : Word) : d.writeReg reg v = none := by
  unfold Dec.writeReg
  split
  case h_6 => rfl
  all_goals omega

/-- Settles O48: the rows of the table of registers. -/
theorem decompressorRegisters : Obligations.DecompressorRegisters := by
  unfold Obligations.DecompressorRegisters
  intro s d k hat
  refine ⟨fun hrun => ⟨?status, fun hvalid => ?result, ?size, ?bsRpos, ?lzCursor, ?pdCursor⟩,
    fun _ => ⟨_, hostAccess_readReg_dec hat rfl rfl rfl k⟩, fun _ reg hreg => ?faulted,
    ⟨_, hostAccess_readReg_dec hat rfl rfl rfl k, decStatus_bits d⟩, hostAccess_readReg_dec hat rfl rfl rfl k,
    hostAccess_readReg_dec hat rfl rfl rfl k, hostAccess_readReg_dec hat rfl rfl rfl k,
    hostAccess_readReg_dec hat rfl rfl rfl k, fun reg v t hge hlt hwrite => ?readOnly,
    fun v => ⟨hostAccess_writeReg_dec hat rfl rfl rfl k, hostAccess_writeReg_dec hat rfl rfl rfl k,
      hostAccess_writeReg_dec hat rfl rfl rfl k, hostAccess_writeReg_dec hat rfl rfl rfl k,
      hostAccess_writeReg_dec hat rfl rfl rfl k⟩⟩
  case status => rw [← decStatus_of_run hrun]; exact hostAccess_readReg_dec hat rfl rfl rfl k
  case result => exact hostAccess_readReg_dec hat rfl rfl (by simp [Dec.readReg, hrun, hvalid]) k
  case size | bsRpos | lzCursor | pdCursor =>
    exact hostAccess_readReg_dec hat rfl rfl (by simp [Dec.readReg, hrun]) k
  case faulted => fin_cases hreg <;> exact ⟨_, hostAccess_readReg_dec hat rfl rfl rfl k⟩
  case readOnly =>
    by_contra hlow
    rw [hostAccess_writeReg_dec_refused hat (isCmpReg_of_ge hge) (isDecReg_of_range hge hlt)
      (Dec.writeReg_of_lt (Nat.lt_of_not_le hlow) d v)] at hwrite
    cases hwrite

/-! ### Memories and regions (R60, R76; O49, O50) -/

/-- A register read leaves every unit alone (R43). -/
theorem hostAccess_readReg_next {s t : State} {k : Nat} {reg : BitVec 8} (h : hostAccess (.readReg k reg) s = .next t) :
    ∃ data, t = { s with hostData := data } := by
  simp only [hostAccess, hostReadReg] at h
  split at h
  · split at h
    · cases h
    · injection h with h
      exact ⟨_, h.symm⟩
  · split at h
    · split at h
      · cases h
      · injection h with h
        exact ⟨_, h.symm⟩
    · cases h

theorem hostAccess_readRegion_next {s t : State} {k addr : Nat} {region : CmpRegion}
    (h : hostAccess (.readRegion k region addr) s = .next t) : ∃ data, t = { s with hostData := data } := by
  simp only [hostAccess, hostReadRegion] at h
  split at h
  · cases h
  · split at h
    · injection h with h
      exact ⟨_, h.symm⟩
    · cases h
    · cases h

theorem hostAccess_writeSpace_of {s : State} {d : Dec} (hat : AtDec s d) (k : Nat) (sp : DecSpace) (a : Nat)
    (v : BitVec 16) : hostAccess (.writeSpace k sp a v) s = .next (s.setDec (d.writeSpace sp a v)) :=
  onDec_of hat

/-- Settles O49: a host write is one write of one memory, a host read sets `hostData` alone. -/
theorem hostAccessFrames : Obligations.HostAccessFrames := by
  unfold Obligations.HostAccessFrames
  refine ⟨fun s d k a v hat => ⟨⟨_, hostAccess_writeSpace_of hat k .bs a v, fun b => Memory.read_write _ a b _⟩,
    ⟨_, hostAccess_writeSpace_of hat k .lza a v, fun b => Memory.read_write _ a b _⟩,
    ⟨_, hostAccess_writeSpace_of hat k .pda a v, fun b => Memory.read_write _ a b _⟩⟩, fun s t k addr reg region h => ?_⟩
  obtain h | h := h
  · exact hostAccess_readReg_next h
  · exact hostAccess_readRegion_next h

/-- A read of a region below its count, where the region may be read at all, gives the element (R76). -/
theorem hostAccess_readRegion_of {s : State} {c : Cmp} (hat : AtCmp s c) (hrun : c.fault = false) {region : CmpRegion}
    (hopen : region = .bs → c.flushed = true) {addr : Nat} (hlt : addr < c.regionCount region) (k : Nat) :
    hostAccess (.readRegion k region addr) s = .next { s with hostData := c.regionElem region addr } := by
  have hallowed : (decide (region = .bs) && !c.flushed) = false := by
    rw [Bool.and_eq_false_iff, decide_eq_false_iff_not, Bool.not_eq_false']
    exact (em (region = .bs)).symm.imp_right hopen
  simp only [hostAccess, hostReadRegion, hat, Cmp.readRegion, hrun, Bool.false_eq_true, if_false, hallowed, hlt, if_true]

theorem hostAccess_readRegion_refused {s : State} {c : Cmp} (hat : AtCmp s c) (hrun : c.fault = false)
    (hopen : c.flushed = false) (k addr : Nat) : hostAccess (.readRegion k .bs addr) s = .refused .readBeforeFlush := by
  simp [hostAccess, hostReadRegion, hat, Cmp.readRegion, hrun, hopen]

/-- The host sees an element that the unit wrote. -/
theorem hostView_of_read {w : Nat} {c : Cmp} (hrun : c.fault = false) (hreal : c.measure = false) (e : Config.Element)
    {m : Memory w} {a : Nat} {x : BitVec w} (h : m.read a = some x) : hostView c e m a = x := by
  rw [hostView_of_real hrun hreal, h, Option.getD_some]

/-- Settles O50: the refusal, and for each region the element that the unit wrote. -/
theorem bitStreamReadAfterFlush : Obligations.BitStreamReadAfterFlush := by
  unfold Obligations.BitStreamReadAfterFlush
  intro s c k addr hat hrun
  refine ⟨fun hopen => hostAccess_readRegion_refused hat hrun hopen k addr,
    fun x hflushed hreal hlt hx => ?bs, fun x hreal hlt hx => ?fb, fun x hreal hlt hx => ?lzb,
    fun x hreal hlt hx => ?pdb⟩
  case bs =>
    rw [hostAccess_readRegion_of hat hrun (fun _ => hflushed) hlt, Cmp.regionElem, hostView_of_read hrun hreal .bs hx]
  case fb =>
    rw [hostAccess_readRegion_of hat hrun (fun h => by cases h) hlt, Cmp.regionElem, hostView_of_read hrun hreal .fb hx]
  case lzb =>
    rw [hostAccess_readRegion_of hat hrun (fun h => by cases h) hlt, Cmp.regionElem, hostView_of_read hrun hreal .lzb hx]
  case pdb =>
    rw [hostAccess_readRegion_of hat hrun (fun h => by cases h) hlt, Cmp.regionElem, hostView_of_read hrun hreal .pdb hx]

end Sys2Proof.Machine
end
